-- ==== Sys2Proof/Word.lean ====
section
/-! DEFINITION. The byte, and the two plainest pieces of arithmetic of 00_scope.md rule R7. -/

namespace Sys2Proof

/-- A byte: an unsigned integer 0 to 255, bit 7 its most significant bit (R7). -/
abbrev Byte := BitVec 8

/-- `ceil_div(a, b)` of rule R7. -/
def ceilDiv (a b : Nat) : Nat := (a + b - 1) / b

end Sys2Proof
end

