-- ==== Sys2Proof/Config.lean ====
section
/-! DEFINITION. The constants of 00_scope.md rule R5 and the configuration record `Cfg` of rule R6, with the
decided values as `Cfg.decided`. What a parameter's other values mean is rule R13. A `Cfg` is plain data: the
model holds it in the state, latched at reset (R320) and never written (R21). -/

namespace Sys2Proof

/-- The device variants of rule R2. -/
inductive Model where
  | m1 | m2 | m3 | unknown
deriving DecidableEq, Repr

/-- "one of {K, C, M, Y}" (00_scope.md, glossary). -/
inductive Channel where
  | k | c | m | y
deriving DecidableEq, Repr

/-- The values of COLORMODE (10_state.md section 5). -/
inductive ColorMode where
  | mono | color
deriving DecidableEq, Repr

/-- DIR (R22). -/
inductive Direction where
  | encode | decode
deriving DecidableEq, Repr

/-- PADP_BIT: the bit index of PADP in LHDR, 5 or 6 (R13). -/
inductive PadpBit where
  | bit6 | bit5
deriving DecidableEq, Repr

/-- ROWLEN_MODE (R6, R13). -/
inductive RowLenMode where
  | total | unpadded
deriving DecidableEq, Repr

/-- DATA_PLACEMENT (R6, R13). -/
inductive Placement where
  | inside | trailing
deriving DecidableEq, Repr

/-- PADHDR_LAYOUT (R6, R13): a field map of the 16-bit little-endian word h, or any other pair `pack`, `unpack`. In a
field map bit i of `pad_len` is the bit of h that entry i of `padBits` names, and likewise for `row_len`. -/
inductive PadLayout where
  | bits (padBits rowBits : List Nat)
  /-- The pair `Config.packPad key`, `Config.unpackPad key`. -/
  | other (key : Nat)
deriving DecidableEq, Repr

/-- MODEL_CODE. -/
structure ModelCodes where
  m1 : Byte
  m2 : Byte
  m3 : Byte
deriving DecidableEq, Repr

/-- CHANNEL_CODE. -/
structure ChannelCodes where
  k : Byte
  c : Byte
  m : Byte
  y : Byte
deriving DecidableEq, Repr

/-- COLOR_MODE_CODE. -/
structure ColorCodes where
  mono : Byte
  color : Byte
deriving DecidableEq, Repr

/-- The fields of a Page payload (R256). -/
structure PageFields where
  pixelWidth : BitVec 16
  height : BitVec 16
  colorMode : Byte
  paperSize : Byte
  tray : Byte
  copies : Byte
  duplex : Byte
deriving DecidableEq, Repr

/-- The fields of a Data descriptor (R257). -/
structure DataFields where
  channel : Byte
  blockNumber : Byte
  compressedLen : Nat
  lineCount : BitVec 16
deriving DecidableEq, Repr

/-- Where the fields of a Begin payload lie: its length and the offset of `model_code` (u8). -/
structure BeginLayout where
  len : Nat
  model : Nat
deriving DecidableEq, Repr

/-- Params payload: its length and the offset of `resolution` (u16). -/
structure ParamsLayout where
  len : Nat
  resolution : Nat
deriving DecidableEq, Repr

/-- Page payload: its length and the offsets of `pixel_width`, `height` (u16) and of the five u8 fields. -/
structure PageLayout where
  len : Nat
  pixelWidth : Nat
  height : Nat
  colorMode : Nat
  paperSize : Nat
  tray : Nat
  copies : Nat
  duplex : Nat
deriving DecidableEq, Repr

/-- Data descriptor: its length and the offsets of `color_channel`, `block_number` (u8), `compressed_len` (u32)
and `line_count` (u16). -/
structure DataLayout where
  len : Nat
  channel : Nat
  blockNumber : Nat
  compressedLen : Nat
  lineCount : Nat
deriving DecidableEq, Repr

/-- EndPart payload: its length and the offset of `reason` (u8). -/
structure EndPartLayout where
  len : Nat
  reason : Nat
deriving DecidableEq, Repr

/-- A block type's layout: its fields at fixed offsets of a payload of fixed length, every field little-endian (R62), or
any other pair `serialise`, `parse` (R6, R13), which the two uninterpreted functions of that type below stand for. -/
inductive Layout (α : Type) where
  | fields (l : α)
  | other (key : Nat)
deriving DecidableEq, Repr

/-- The payload layouts of R6, one per block type that has fields. -/
structure Layouts where
  begin : Layout BeginLayout
  params : Layout ParamsLayout
  page : Layout PageLayout
  data : Layout DataLayout
  endPart : Layout EndPartLayout
deriving DecidableEq, Repr

/-- The configuration record of rule R6, one field per parameter of its table. -/
structure Cfg where
  dir : Direction
  strict : Bool
  seqReset : Byte
  seqPre : Bool
  padpBit : PadpBit
  padLayout : PadLayout
  rowLenMode : RowLenMode
  tblBias : Fin 2
  tblHighFirst : Bool
  residualFlush : Bool
  placement : Placement
  encBufCap : Option Nat
  modelCode : ModelCodes
  channelCode : ChannelCodes
  colorCode : ColorCodes
  endPartReason : Byte
  layouts : Layouts
deriving DecidableEq, Repr

/-! ### Layouts that are no field map

R6 and R13 leave a payload layout to be any pair of functions with `parse(serialise(x)) = x`, and the pad-header layout
any pair with `unpack(pack(p, r)) = (p, r)`. Such a pair is a parameter of the device: an uninterpreted constant here, so
that a claim for every configuration holds for every pair. A `parse` that answers nothing has found the payload too short
(R262). Assumption log 5. -/

opaque Config.parseBegin : Nat → List Byte → Option Byte
opaque Config.serialiseBegin : Nat → Byte → List Byte
opaque Config.parseParams : Nat → List Byte → Option (BitVec 16)
opaque Config.serialiseParams : Nat → BitVec 16 → List Byte
opaque Config.parsePage : Nat → List Byte → Option PageFields
opaque Config.serialisePage : Nat → PageFields → List Byte
/-- The descriptor at the front of a payload, and how many bytes it takes there: the rest is compressed data (R257). -/
opaque Config.parseData : Nat → List Byte → Option (DataFields × Nat)
opaque Config.serialiseData : Nat → DataFields → List Byte
opaque Config.parseEndPart : Nat → List Byte → Option Byte
opaque Config.serialiseEndPart : Nat → Byte → List Byte
opaque Config.packPad : Nat → BitVec 2 → BitVec 14 → BitVec 16
opaque Config.unpackPad : Nat → BitVec 16 → BitVec 2 × BitVec 14

/-! ### The decided values -/

/-- The reference layouts of R254 to R258. -/
def Layouts.reference : Layouts where
  begin := .fields { len := 1, model := 0 }
  params := .fields { len := 2, resolution := 0 }
  page := .fields
    { len := 9, pixelWidth := 0, height := 2, colorMode := 4, paperSize := 5, tray := 6, copies := 7, duplex := 8 }
  data := .fields { len := 8, channel := 0, blockNumber := 1, compressedLen := 2, lineCount := 6 }
  endPart := .fields { len := 1, reason := 0 }

/-- pad_len in bits 15:14, row_len in bits 13:0 (R98). -/
def PadLayout.reference : PadLayout := .bits [14, 15] [0, 1, 2, 3, 4, 5, 6, 7, 8, 9, 10, 11, 12, 13]

/-- The decided values of R6. R6 decides no direction ("set per session at reset"): `decode` is a DESIGN CHOICE
of the model (assumption log 1). -/
def Cfg.decided : Cfg where
  dir := .decode
  strict := false
  seqReset := 0x00
  seqPre := true
  padpBit := .bit6
  padLayout := PadLayout.reference
  rowLenMode := .total
  tblBias := 1
  tblHighFirst := true
  residualFlush := false
  placement := .inside
  encBufCap := none
  modelCode := { m1 := 0x01, m2 := 0x02, m3 := 0x03 }
  channelCode := { k := 0, c := 1, m := 2, y := 3 }
  colorCode := { mono := 0, color := 1 }
  endPartReason := 0x00
  layouts := Layouts.reference

end Sys2Proof
end

