-- ==== Sys2Proof/Syntax.lean ====
section
/-! DEFINITION. The instructions: one constructor per row of spec/opcode_table.json, and the four decoding
contexts of 30_encoding.md rule R90. -/

namespace Sys2Proof

/-- The four decoding contexts of R90. -/
inductive Context where
  | frame | lhdr | padhdr | op
deriving DecidableEq, Repr

/-- The six known block types of R92. -/
inductive BlockType where
  | begin | end_ | params | page | data | endPart
deriving DecidableEq, Repr

/-- A frame of R91 as read, less its type byte (the instruction's constructor) and its two length bytes (the
length of `payload`). The validation bytes are kept as they are on the wire: R136 compares them later. -/
structure Frame where
  magic : Byte
  seq : Byte
  typeInv : Byte
  payload : List Byte
  checksum : Byte
deriving DecidableEq, Repr

/-- One constructor per row of the opcode table. The operand bytes that follow an LHDR, PADHDR or OP byte are
data (R90): they are read from D when the instruction runs. -/
inductive Instr where
  /-- BEGIN, type 0x40 (R252). -/
  | blkBegin (f : Frame)
  /-- END, type 0x41 (R259). -/
  | blkEnd (f : Frame)
  /-- PARAMS, type 0x50 (R253). -/
  | blkParams (f : Frame)
  /-- PAGE, type 0x51 (R256). -/
  | blkPage (f : Frame)
  /-- DATA, type 0x52 (R257). -/
  | blkData (f : Frame)
  /-- ENDPART, type 0x55 (R258). -/
  | blkEndPart (f : Frame)
  /-- LHDR, with its PRESENT flag, its PADP flag and the value left when the two flag bits are cleared (R96, R13). -/
  | lhdr (present padp : Bool) (tlen : BitVec 7)
  /-- PADHDR, with its two fields (R98). -/
  | padhdr (padLen : BitVec 2) (rowLen : BitVec 14)
  /-- RAW (R102). -/
  | raw (fld : BitVec 6)
  /-- TBL (R103). -/
  | tbl (fld : BitVec 6)
  /-- REP (R104). -/
  | rep (fld : BitVec 6)
  /-- LREP (R105). -/
  | lrep (fld : BitVec 6)
deriving DecidableEq, Repr

/-- The context in which an instruction is looked up (the opcode table's column "context"). -/
def Instr.context : Instr → Context
  | .blkBegin _ => .frame
  | .blkEnd _ => .frame
  | .blkParams _ => .frame
  | .blkPage _ => .frame
  | .blkData _ => .frame
  | .blkEndPart _ => .frame
  | .lhdr _ _ _ => .lhdr
  | .padhdr _ _ => .padhdr
  | .raw _ => .op
  | .tbl _ => .op
  | .rep _ => .op
  | .lrep _ => .op

end Sys2Proof
end

