-- ==== Sys2Proof/WellFormed.lean ====
section
/-! DEFINITION. Which instructions are well-formed, and which configurations R13 admits. -/

namespace Sys2Proof

/-- A frame's payload fits its two length bytes: "0 to 65535" (R94). -/
def Frame.wf (f : Frame) : Bool := decide (f.payload.length ≤ 65535)

/-- The mask that clears bit 7 and the PADP bit of an LHDR (R96, R13). -/
def PadpBit.tlenMask : PadpBit → BitVec 7
  | .bit6 => 0x3F
  | .bit5 => 0x5F

/-- Well-formedness of an instruction under a configuration: a frame's payload fits, and an LHDR's table-length
value has no flag bit set. Every other operand is as wide as its field. -/
def Instr.wf (c : Cfg) : Instr → Bool
  | .blkBegin f => f.wf
  | .blkEnd f => f.wf
  | .blkParams f => f.wf
  | .blkPage f => f.wf
  | .blkData f => f.wf
  | .blkEndPart f => f.wf
  | .lhdr _ _ tlen => decide (tlen &&& c.padpBit.tlenMask = tlen)
  | .padhdr _ _ => true
  | .raw _ => true
  | .tbl _ => true
  | .rep _ => true
  | .lrep _ => true

/-- Two fields, each an offset and a size, share no byte. -/
def apart (x y : Nat × Nat) : Bool := decide (x.1 + x.2 ≤ y.1) || decide (y.1 + y.2 ≤ x.1)

/-- Fields lie inside a payload of `len` bytes and share no byte. -/
def fieldsFit (len : Nat) (fs : List (Nat × Nat)) : Bool :=
  fs.all (fun f => decide (f.1 + f.2 ≤ len)) && decide (fs.Pairwise fun x y => apart x y = true)

def BeginLayout.fits (x : BeginLayout) : Bool := fieldsFit x.len [(x.model, 1)]

def ParamsLayout.fits (x : ParamsLayout) : Bool := fieldsFit x.len [(x.resolution, 2)]

def PageLayout.fits (x : PageLayout) : Bool :=
  fieldsFit x.len [(x.pixelWidth, 2), (x.height, 2), (x.colorMode, 1), (x.paperSize, 1), (x.tray, 1), (x.copies, 1),
    (x.duplex, 1)]

def DataLayout.fits (x : DataLayout) : Bool :=
  fieldsFit x.len [(x.channel, 1), (x.blockNumber, 1), (x.compressedLen, 4), (x.lineCount, 2)]

def EndPartLayout.fits (x : EndPartLayout) : Bool := fieldsFit x.len [(x.reason, 1)]

/-- The check of a layout with fixed offsets; of another pair of functions nothing can be checked here. -/
def Layout.wf {α : Type} (fits : α → Bool) : Layout α → Bool
  | .fields x => fits x
  | .other _ => true

/-- The fields of each payload with fixed offsets fit and are apart, so that `parse(serialise(x)) = x` (R13). -/
def Layouts.wf (l : Layouts) : Bool :=
  l.begin.wf BeginLayout.fits && l.params.wf ParamsLayout.fits && l.page.wf PageLayout.fits &&
  l.data.wf DataLayout.fits && l.endPart.wf EndPartLayout.fits

/-- A field map uses each of the 16 bits once: 2 for pad_len and 14 for row_len (R98, R13). -/
def PadLayout.wf : PadLayout → Bool
  | .bits padBits rowBits =>
    decide (padBits.length = 2) && decide (rowBits.length = 14) &&
    (padBits ++ rowBits).all (fun b => decide (b < 16)) && decide (padBits ++ rowBits).Nodup
  | .other _ => true

/-- The code tables are injective (R6). -/
def Cfg.codesInjective (c : Cfg) : Bool :=
  decide [c.modelCode.m1, c.modelCode.m2, c.modelCode.m3].Nodup &&
  decide [c.channelCode.k, c.channelCode.c, c.channelCode.m, c.channelCode.y].Nodup &&
  decide [c.colorCode.mono, c.colorCode.color].Nodup

/-- A configuration that R6 and R13 admit, as far as it can be checked. What R13 asks of a pair of functions that is no
field map is `Layouts.Lawful` and `PadLayout.Lawful` (Safety.lean). -/
def Cfg.wf (c : Cfg) : Bool := c.padLayout.wf && c.layouts.wf && c.codesInjective

end Sys2Proof
end

