-- ==== Sys2Proof/Decode.lean ====
section
/-! DEFINITION. Reading an instruction from bytes, total in each of the four contexts of R90 and rejecting by
name; then writing one. Also the byte-order, bit-field and checksum helpers both use. -/

namespace Sys2Proof

/-! ### Byte order, bit fields, checksum -/

/-- `le16(v)` (R8). -/
def le16 (v : Nat) : List Byte := [BitVec.ofNat 8 v, BitVec.ofNat 8 (v / 256)]

/-- `le32(v)` (R8). -/
def le32 (v : Nat) : List Byte :=
  [BitVec.ofNat 8 v, BitVec.ofNat 8 (v / 256), BitVec.ofNat 8 (v / 65536), BitVec.ofNat 8 (v / 16777216)]

/-- Two bytes, least significant first, as a number (R60). -/
def leVal (lo hi : Byte) : Nat := lo.toNat + 256 * hi.toNat

/-- `sum8(s)`, the checksum `csum(s)` of R130. -/
def sum8 : List Byte → Byte
  | [] => 0
  | b :: bs => b + sum8 bs

/-- The number whose bit i is the bit of `h` that entry i of `bits` names. -/
def gatherBits (h : BitVec 16) : List Nat → Nat
  | [] => 0
  | b :: bs => (if h.getLsbD b then 1 else 0) + 2 * gatherBits h bs

/-- The word with bit i of `v` at the place entry i of `bits` names, and 0 elsewhere. -/
def scatterBits (v : Nat) : List Nat → BitVec 16
  | [] => 0
  | b :: bs => (if v % 2 = 1 then BitVec.twoPow 16 b else 0) ||| scatterBits (v / 2) bs

/-! ### The frame format (R91) -/

/-- The magic byte (R91). -/
def magicByte : Byte := 0x1B

/-- The type byte of a block type (R92). -/
def BlockType.code : BlockType → Byte
  | .begin => 0x40
  | .end_ => 0x41
  | .params => 0x50
  | .page => 0x51
  | .data => 0x52
  | .endPart => 0x55

/-- The block type of a type byte; the other 250 values select none (R92). -/
def blockTypeOf (ty : Byte) : Option BlockType :=
  if ty = 0x40 then some .begin
  else if ty = 0x41 then some .end_
  else if ty = 0x50 then some .params
  else if ty = 0x51 then some .page
  else if ty = 0x52 then some .data
  else if ty = 0x55 then some .endPart
  else none

/-- The instruction of a block type. -/
def BlockType.instr : BlockType → Frame → Instr
  | .begin, f => .blkBegin f
  | .end_, f => .blkEnd f
  | .params, f => .blkParams f
  | .page, f => .blkPage f
  | .data, f => .blkData f
  | .endPart, f => .blkEndPart f

/-- The six header bytes of a frame of type byte `ty` (R91). -/
def frameHeader (ty : Byte) (f : Frame) : List Byte :=
  [f.magic, ty, f.seq] ++ le16 f.payload.length ++ [f.typeInv]

/-- All bytes of a frame: header, payload, checksum (R70, R91). -/
def frameBytes (ty : Byte) (f : Frame) : List Byte := frameHeader ty f ++ f.payload ++ [f.checksum]

/-- The frame `write_block` builds (R131): right magic, inverted type and checksum (R93, R95). -/
def goodFrame (ty seq : Byte) (payload : List Byte) : Frame :=
  let f : Frame := { magic := magicByte, seq := seq, typeInv := ty ^^^ 0xFF, payload := payload, checksum := 0 }
  { f with checksum := sum8 (frameHeader ty f ++ payload) }

/-! ### Decoding -/

/-- What the decoder answers. `endOfStream`: no byte is left at the cursor. `truncated`: the bytes end inside the
encoding. `unknownType`: a whole frame whose type byte is none of the six (R138), with its other bytes. -/
inductive Decoded where
  | ok (i : Instr) (rest : List Byte)
  | endOfStream
  | truncated
  | unknownType (ty : Byte) (f : Frame) (rest : List Byte)
deriving DecidableEq, Repr

/-- Context FRAME: the bytes `read_block` takes (R134, R135). -/
def decodeFrame : List Byte → Decoded
  | [] => .endOfStream
  | magic :: ty :: seq :: lo :: hi :: inv :: rest =>
    match rest.drop (leVal lo hi) with
    | [] => .truncated
    | c :: tail =>
      let f : Frame := { magic := magic, seq := seq, typeInv := inv, payload := rest.take (leVal lo hi), checksum := c }
      match blockTypeOf ty with
      | some t => .ok (t.instr f) tail
      | none => .unknownType ty f tail
  | _ => .truncated

/-- The bit index of PADP (R13). -/
def PadpBit.index : PadpBit → Nat
  | .bit6 => 6
  | .bit5 => 5

/-- The header byte with bit 7 and the PADP bit cleared (R96, R13). -/
def lhdrTlen : PadpBit → Byte → BitVec 7
  | .bit6, f => f.setWidth 7 &&& 0x3F
  | .bit5, f => f.setWidth 7 &&& 0x5F

/-- Context LHDR: bit 7 is PRESENT, the PADP bit is PADP, and the byte with both cleared is the table length
(R96, R106, R13). -/
def decodeLhdr (b : PadpBit) (f : Byte) : Instr :=
  .lhdr (f.getLsbD 7) (f.getLsbD b.index) (lhdrTlen b f)

/-- `unpack(h)`: pad_len and row_len (R98, R13). -/
def PadLayout.unpack : PadLayout → BitVec 16 → BitVec 2 × BitVec 14
  | .bits padBits rowBits, h => (BitVec.ofNat 2 (gatherBits h padBits), BitVec.ofNat 14 (gatherBits h rowBits))
  | .other key, h => Config.unpackPad key h

/-- Context PADHDR: `h = b0 + 256*b1`, its fields by the layout (R61, R98, R106). -/
def decodePadhdr (l : PadLayout) (b0 b1 : Byte) : Instr := .padhdr (l.unpack (b1 ++ b0)).1 (l.unpack (b1 ++ b0)).2

/-- Context OP: bits 7:6 select the operation, bits 5:0 are its field; every byte is an opcode (R101, R107). -/
def decodeOp (op : Byte) : Instr :=
  let fld : BitVec 6 := op.setWidth 6
  if op.extractLsb' 6 2 = 0b00#2 then .raw fld
  else if op.extractLsb' 6 2 = 0b01#2 then .tbl fld
  else if op.extractLsb' 6 2 = 0b10#2 then .rep fld
  else .lrep fld

/-- The decoder: the instruction at the front of `bytes` in a context, and the bytes after its encoding. -/
def decode (c : Cfg) : Context → List Byte → Decoded
  | .frame, bytes => decodeFrame bytes
  | .lhdr, f :: rest => .ok (decodeLhdr c.padpBit f) rest
  | .padhdr, b0 :: b1 :: rest => .ok (decodePadhdr c.padLayout b0 b1) rest
  | .op, op :: rest => .ok (decodeOp op) rest
  | _, [] => .endOfStream
  | .padhdr, [_] => .truncated

/-! ### Encoding -/

/-- The LHDR byte (R96). -/
def encodeLhdr (b : PadpBit) (present padp : Bool) (tlen : BitVec 7) : Byte :=
  (if present then 0x80 else 0) ||| (if padp then BitVec.twoPow 8 b.index else 0) ||| tlen.setWidth 8

/-- `pack(pad_len, row_len)`: the word h of a PADHDR (R98, R13). -/
def PadLayout.pack : PadLayout → BitVec 2 → BitVec 14 → BitVec 16
  | .bits padBits rowBits, p, r => scatterBits p.toNat padBits ||| scatterBits r.toNat rowBits
  | .other key, p, r => Config.packPad key p r

/-- A 16-bit word, low byte first (R61). -/
def wordBytes (h : BitVec 16) : List Byte := [h.setWidth 8, h.extractLsb' 8 8]

/-- The bytes of an instruction, from the encodings of R91 to R105. -/
def encode (c : Cfg) : Instr → List Byte
  | .blkBegin f => frameBytes BlockType.begin.code f
  | .blkEnd f => frameBytes BlockType.end_.code f
  | .blkParams f => frameBytes BlockType.params.code f
  | .blkPage f => frameBytes BlockType.page.code f
  | .blkData f => frameBytes BlockType.data.code f
  | .blkEndPart f => frameBytes BlockType.endPart.code f
  | .lhdr present padp tlen => [encodeLhdr c.padpBit present padp tlen]
  | .padhdr padLen rowLen => wordBytes (c.padLayout.pack padLen rowLen)
  | .raw fld => [0b00#2 ++ fld]
  | .tbl fld => [0b01#2 ++ fld]
  | .rep fld => [0b10#2 ++ fld]
  | .lrep fld => [0b11#2 ++ fld]

/-! ### Words of the opcode table -/

/-- The length of a payload whose fields have fixed offsets; 0 when the layout is another pair. -/
def Layout.payloadLen {α : Type} (len : α → Nat) : Layout α → Nat
  | .fields l => len l
  | .other _ => 0

/-- The length of a block type's payload without compressed data, in a set of layouts (R254 to R259). -/
def BlockType.payloadLen (l : Layouts) : BlockType → Nat
  | .begin => l.begin.payloadLen BeginLayout.len
  | .end_ => 0
  | .params => l.params.payloadLen ParamsLayout.len
  | .page => l.page.payloadLen PageLayout.len
  | .data => l.data.payloadLen DataLayout.len
  | .endPart => l.endPart.payloadLen EndPartLayout.len

/-- The bytes and the context a word of the opcode table stands for. The table gives an 8-bit row of context
FRAME the type byte alone: the frame around it has sequence number 0 and a payload of zeros, of the layout's
length. Any other byte is taken in context OP, with operand bytes 0, and 16 bits are a PADHDR with filler and
table bytes 0. One byte value can stand for rows of several contexts (R90): assumption log 2 says why FRAME comes
first and LHDR is never chosen. -/
def tableBytes (c : Cfg) (nbits w : Nat) : Option (Context × List Byte) :=
  if nbits = 16 then some (.padhdr, le16 w ++ List.replicate 3 0)
  else if nbits = 8 then
    match blockTypeOf (BitVec.ofNat 8 w) with
    | some t => some (.frame, frameBytes t.code (goodFrame t.code 0 (List.replicate (t.payloadLen c.layouts) 0)))
    | none => some (.op, BitVec.ofNat 8 w :: List.replicate 64 0)
  else none

/-- The instruction the decoder reads from a word of the opcode table. -/
def decodeTableWord (nbits w : Nat) : Option Instr :=
  match tableBytes Cfg.decided nbits w with
  | none => none
  | some (ctx, bytes) =>
    match decode Cfg.decided ctx bytes with
    | .ok i _ => some i
    | _ => none

end Sys2Proof
end

