-- ==== Sys2Proof/Machine/State.lean ====
section
/-! DEFINITION. The session's state (10_state.md), the reasons a step can stop, and reset (R45, R320). -/

namespace Sys2Proof.Machine

open Sys2Proof

/-! ### The reasons a step can stop -/

/-- The machine stops with a fault of the model. None of these is one of the hardware's own faults of R272: those
are taken, and the session goes on or halts in a next state (R283 to R285). -/
inductive Fault where
  /-- Raised by `step` when RUNSTATE is HALT: "no further step exists; the state is not final" (R35, R285). Safe. -/
  | halted
  /-- Raised by `step` when RUNSTATE is DONE: "no further step exists; this is the only final state" (R35). Safe. -/
  | finished
  /-- Raised by the byte put when its precondition "W >= 1 and 0 <= ACCPOS < 2W, which every caller keeps" (R205)
  does not hold and the address is outside the 2W bytes of ACC (R39). Safe: no reachable state does this. -/
  | accAddress
deriving DecidableEq, Repr

/-- The model gives the step no successor state. -/
inductive Refusal where
  /-- An instruction without a meaning: no arm of `exec` answers this. Safe. -/
  | notModelled (mnemonic : String)
  /-- Raised by the flush when some byte of ACC was not written since the last zero of ACCPOS: "a flush that would
  contain one is a fault of the model (refuse), not a value" (R331, U19). Safe. -/
  | flushNoValue
  /-- Raised by the encoder when the host supplied a plane without HEIGHT scanlines of W bytes each: "A scanline of
  another length is refused: the model gives it no meaning" (R323, U25). Safe. -/
  | scanlineShape
  /-- Raised by the encoder's Begin block when the job's model is none of M1, M2, M3, which the host must supply
  (R323); UNKNOWN "exists only in the decode direction" (R2). Safe. -/
  | encodeModel
deriving DecidableEq, Repr

/-! ### Memories that are byte addressed -/

/-- A byte memory: the cells that hold a value, in strictly rising order of address. An address that is not listed
holds no value (R36, R39). -/
abbrev Memory := List Host.Cell

/-- The one canonical form of a memory: addresses strictly rising. Every listed cell differs from an unlisted
address, which holds no value. -/
def Memory.wf (m : Memory) : Bool := decide (m.Pairwise fun x y => x.1 < y.1)

/-! ### Registers' types -/

/-- RUNSTATE (R35). -/
inductive RunState where
  | run | done | halt
deriving DecidableEq, Repr

/-- EXIT (10_state.md section 5). -/
inductive ExitStatus where
  | zero | nonzero
deriving DecidableEq, Repr

/-- CHAN: "channel with code p[0], or the raw byte p[0] if it is no known code" (R257). -/
inductive Chan where
  | known (c : Channel)
  | raw (b : Byte)
deriving DecidableEq, Repr

/-- A flush unit: the channel and the 2W bytes (R40). -/
structure FlushUnit where
  chan : Chan
  bytes : List Byte
deriving DecidableEq, Repr

/-- The three frame checks of R136, in their order. -/
inductive FrameCheck where
  | magic | typeInv | checksum
deriving DecidableEq, Repr

/-- The nine warnings of R31 and R272. -/
inductive Warning where
  | magic | typeInv | csum | lineFlag | pad | model | trunc | trailing | residual
deriving DecidableEq, Repr

/-- The sticky bit and the counter of one warning (R31). -/
structure WarnReg where
  bit : Bool
  count : Nat
deriving DecidableEq, Repr

/-- The nine warning registers (R31). -/
structure Warnings where
  magic : WarnReg
  typeInv : WarnReg
  csum : WarnReg
  lineFlag : WarnReg
  pad : WarnReg
  model : WarnReg
  trunc : WarnReg
  trailing : WarnReg
  residual : WarnReg
deriving DecidableEq, Repr

/-- The twelve faults of R272, each with the information its row records. -/
inductive Trap where
  | tableLen (tlen : Nat)
  | lineLen (produced leff : Nat)
  | lineTrunc (cur : Nat)
  | tableIndex (i : Nat)
  | noGeometry
  | desc (ty : Byte)
  | unknownType (ty : Byte)
  | encOverflow
  | encPayload (len : Nat)
  | encRun (count : Nat)
  | encRowLen (rowLen : Nat)
  | strict (check : FrameCheck)
deriving DecidableEq, Repr

/-- FPOS: "`ip`, and `cur` if inside a Data block; in the encode direction the page, channel and line indices" (R283). -/
inductive FaultPos where
  | zero
  | decode (ip : Nat) (cur : Option Nat)
  | encode (page : Nat) (chan : Channel) (line : Nat)
deriving DecidableEq, Repr

/-- Where the encode direction stands in `EncodeRun`, `EncodePage` and `EncodePlane` (R260, R238, R233): the next
step emits this frame, or encodes one line. -/
inductive EncPhase where
  | begin | params | page | line | data | endPart | end_
deriving DecidableEq, Repr

/-! ### The job record and the scanline source (R4, R6, R293) -/

/-- One page of a job: its part of the configuration record, and per plane the scanlines the source yields. -/
structure Page where
  pixelWidth : BitVec 16
  height : BitVec 16
  isColor : Bool
  paperSize : Byte
  tray : Byte
  copies : Byte
  duplex : Byte
  planeK : List (List Byte)
  planeC : List (List Byte)
  planeM : List (List Byte)
  planeY : List (List Byte)
deriving DecidableEq, Repr

/-- The job record of an encode session. -/
structure Job where
  model : Model
  resolution : BitVec 16
  pages : List Page
deriving DecidableEq, Repr

/-- No job: what a decode session holds. -/
def Job.none : Job where
  model := .unknown
  resolution := 0
  pages := []

/-! ### The state -/

/-- All state of a session. Names in capitals are the spec's. -/
structure State where
  /-- Cfg, latched at reset; its fields `dir` and `strict` are the registers DIR and STRICT (R21, R320). -/
  cfg : Cfg
  /-- IN, the input byte stream (R37). -/
  inp : List Byte
  /-- The job record and the scanlines (R21). -/
  job : Job
  /-- RUNSTATE (R35). -/
  runState : RunState
  /-- EXIT. -/
  exit : ExitStatus
  /-- FCODE (R272). -/
  fcode : Byte
  /-- The information recorded with the fault (R272, column "info recorded"). -/
  finfo : Option Trap
  /-- FPOS. -/
  fpos : FaultPos
  /-- FBLK. -/
  fblk : Nat
  /-- NBLK. -/
  nblk : Nat
  /-- NBLKFATAL. -/
  nblkFatal : Nat
  /-- The nine W_ flags and counters (R31). -/
  warns : Warnings
  /-- MODEL (R33). -/
  model : Model
  /-- W (R34). -/
  w : Nat
  /-- HEIGHT. -/
  height : Nat
  /-- COLORMODE. -/
  colorMode : ColorMode
  /-- `ip`, the offset in IN of the next byte the framer reads (R28). -/
  ip : Nat
  /-- Which of the four contexts the decoder is in (R90). -/
  ctx : Context
  /-- D, the compressed data of the Data block being decoded (R38). -/
  d : List Byte
  /-- `cur`, the offset in D (R29). -/
  cur : Nat
  /-- LINES_LEFT (R26). -/
  linesLeft : Nat
  /-- LSTART (R25). -/
  lstart : Nat
  /-- PADROW, or NONE (R25). -/
  padRow : Option Nat
  /-- The model's own: the pad_len of the current line's PADHDR, which ROWLEN_MODE = UNPADDED reads at the end of the
  line ("pad_len being the value read for this line", R13). -/
  padLen : Nat
  /-- The model's own: the table-length value of an LHDR whose PADHDR is still to be read (the `f` of R192). -/
  hdrTlen : Nat
  /-- TLEN (R25). -/
  tlen : Nat
  /-- T, the dictionary table, addresses 0 to 15 (R36). -/
  tbl : Memory
  /-- PRODUCED (R25). -/
  produced : Nat
  /-- CHAN. -/
  chan : Chan
  /-- ACC, the accumulation buffer, addresses 0 to 2W - 1 (R39). -/
  acc : Memory
  /-- ACCPOS (R24). -/
  accPos : Nat
  /-- SINK, the image sink (R40). -/
  sink : List FlushUnit
  /-- SEQ (R23). -/
  seq : Byte
  /-- OUT, the output byte stream (R41). -/
  out : List Byte
  /-- BLKNUM. -/
  blkNum : Nat
  /-- UPGRADED (R27). -/
  upgraded : Bool
  /-- LINEBUF (R42). -/
  lineBuf : List Byte
  /-- ENCBUF (R42). -/
  encBuf : List Byte
  /-- The model's own: where `EncodeRun` stands. -/
  phase : EncPhase
  /-- The page index (R30). -/
  encPage : Nat
  /-- The channel (R30). -/
  encChan : Channel
  /-- The line index within the plane (R30). -/
  encLine : Nat
  /-- The byte index within the line (R30). -/
  encByte : Nat
deriving DecidableEq, Repr

/-- A warning register at reset. -/
def WarnReg.reset : WarnReg where
  bit := false
  count := 0

/-- Every warning bit and counter 0 (R45). -/
def Warnings.reset : Warnings where
  magic := .reset
  typeInv := .reset
  csum := .reset
  lineFlag := .reset
  pad := .reset
  model := .reset
  trunc := .reset
  trailing := .reset
  residual := .reset

/-- Reset, the host's action (R320): latches Cfg, the input stream and the job, and puts every register to its
value of R45. MODEL is the job's when encoding and UNKNOWN when decoding. -/
def State.resetFor (c : Cfg) (input : List Byte) (job : Job) : State where
  cfg := c
  inp := input
  job := job
  runState := .run
  exit := .zero
  fcode := 0
  finfo := Option.none
  fpos := .zero
  fblk := 0
  nblk := 0
  nblkFatal := 0
  warns := .reset
  model := match c.dir with
    | .encode => job.model
    | .decode => .unknown
  w := 0
  height := 0
  colorMode := .mono
  ip := 0
  ctx := .frame
  d := []
  cur := 0
  linesLeft := 0
  lstart := 0
  padRow := Option.none
  padLen := 0
  hdrTlen := 0
  tlen := 0
  tbl := []
  produced := 0
  chan := .known .k
  acc := []
  accPos := 0
  sink := []
  seq := c.seqReset
  out := []
  blkNum := 0
  upgraded := false
  lineBuf := []
  encBuf := []
  phase := .begin
  encPage := 0
  encChan := .k
  encLine := 0
  encByte := 0

/-- The machine right after reset: a decode session with the decided Cfg and an empty input stream. -/
def State.reset : State := State.resetFor Cfg.decided [] Job.none

end Sys2Proof.Machine
end

