-- ==== Sys2Proof/Machine/Flags.lean ====
section
/-! DEFINITION. The only flags of the hardware: the warning bits and counters (R31, R32), and `warn` (R271). -/

namespace Sys2Proof.Machine

open Sys2Proof

/-- One warning raised: the sticky bit set, the counter one higher (R31, R271). -/
def WarnReg.raised (r : WarnReg) : WarnReg := { bit := true, count := r.count + 1 }

/-- The register of a warning. -/
def Warnings.get (ws : Warnings) : Warning → WarnReg
  | .magic => ws.magic
  | .typeInv => ws.typeInv
  | .csum => ws.csum
  | .lineFlag => ws.lineFlag
  | .pad => ws.pad
  | .model => ws.model
  | .trunc => ws.trunc
  | .trailing => ws.trailing
  | .residual => ws.residual

/-- The warning registers after one warning. -/
def Warnings.raise (ws : Warnings) : Warning → Warnings
  | .magic => { ws with magic := ws.magic.raised }
  | .typeInv => { ws with typeInv := ws.typeInv.raised }
  | .csum => { ws with csum := ws.csum.raised }
  | .lineFlag => { ws with lineFlag := ws.lineFlag.raised }
  | .pad => { ws with pad := ws.pad.raised }
  | .model => { ws with model := ws.model.raised }
  | .trunc => { ws with trunc := ws.trunc.raised }
  | .trailing => { ws with trailing := ws.trailing.raised }
  | .residual => { ws with residual := ws.residual.raised }

/-- The warning codes of R272. -/
def Warning.code : Warning → Byte
  | .magic => 0x01
  | .typeInv => 0x02
  | .csum => 0x03
  | .lineFlag => 0x04
  | .pad => 0x05
  | .model => 0x06
  | .trunc => 0x07
  | .trailing => 0x08
  | .residual => 0x09

/-- `warn W_X` (R271): it changes no other state and cannot fail. -/
def State.warn (k : Warning) (s : State) : State := { s with warns := s.warns.raise k }

/-- `warn W_X` under a condition. -/
def State.warnIf (b : Bool) (k : Warning) (s : State) : State := if b then s.warn k else s

/-- The warning a failed frame check sets (R136). -/
def FrameCheck.warning : FrameCheck → Warning
  | .magic => .magic
  | .typeInv => .typeInv
  | .checksum => .csum

end Sys2Proof.Machine
end

