-- ==== Sys2Proof/Machine/Operands.lean ====
section
/-! DEFINITION. Operand forms: counts, table indices and lengths (R101, R106), the logical line length (R198) and the
address map of the accumulation buffer (R66). -/

namespace Sys2Proof.Machine

open Sys2Proof

/-- RAW: `fld + 1` literal bytes (R106). -/
def rawCount (fld : BitVec 6) : Nat := fld.toNat + 1

/-- TBL: `fld + 1` index bytes (R106); `fld + TBL_BIAS` in general (R13). -/
def tblCount (c : Cfg) (fld : BitVec 6) : Nat := fld.toNat + c.tblBias.val

/-- REP: `fld` copies (R106). -/
def repCount (fld : BitVec 6) : Nat := fld.toNat

/-- LREP: `fld * 64` copies (R106). -/
def lrepCount (fld : BitVec 6) : Nat := 64 * fld.toNat

/-- `x[7:4]` (R106). -/
def highNibble (x : Byte) : Nat := (x.extractLsb' 4 4).toNat

/-- `x[3:0]` (R106). -/
def lowNibble (x : Byte) : Nat := (x.extractLsb' 0 4).toNat

/-- The table index looked up and put first: bits 7:4, or bits 3:0 when TBL_HIGH_FIRST is false (R200, R206, R13). -/
def firstIndex (c : Cfg) (x : Byte) : Nat := if c.tblHighFirst then highNibble x else lowNibble x

/-- The table index looked up and put second. -/
def secondIndex (c : Cfg) (x : Byte) : Nat := if c.tblHighFirst then lowNibble x else highNibble x

/-- L_eff: `2 * W  if MODEL = M2  else  W` (R198). -/
def lineLen (m : Model) (w : Nat) : Nat := if m = .m2 then 2 * w else w

/-- L_eff of a state. -/
def State.leff (s : State) : Nat := lineLen s.model s.w

/-- The address a byte put writes, from the put index p = ACCPOS (R66). -/
def accAddr (m : Model) (w p : Nat) : Nat := if m = .m2 then (p % 2) * w + p / 2 else p

/-- The value the end-of-line comparison holds against PADROW: `cur - LSTART`, and without the pad header and filler
when ROWLEN_MODE = UNPADDED (R204, R13). -/
def rowUsed (mode : RowLenMode) (used padLen : Nat) : Nat :=
  match mode with
  | .total => used
  | .unpadded => used - 2 - padLen

end Sys2Proof.Machine
end

