-- ==== Sys2Proof/Machine/Ops.lean ====
section
/-! DEFINITION. The named operations: byte memories, taking a fault and returning from one (R283 to R286), the
sequencing of pseudocode that may fault, the reads of D (R191) and T (R201), the byte put and the flush (R205,
R68), and `write_block` (R131). -/

namespace Sys2Proof.Machine

open Sys2Proof

/-! ### Byte memories -/

/-- The byte at an address, or no value. -/
def Memory.read : Memory → Nat → Option Byte
  | [], _ => none
  | (a, v) :: m, x => if a = x then some v else Memory.read m x

/-- A byte write. It keeps the cells in rising order of address. -/
def Memory.write : Memory → Nat → Byte → Memory
  | [], x, b => [(x, b)]
  | (a, v) :: m, x, b =>
    if x < a then (x, b) :: (a, v) :: m
    else if a = x then (x, b) :: m
    else (a, v) :: Memory.write m x b

/-- The bytes at addresses a .. a+n-1, if each holds a value. -/
def Memory.readAll (m : Memory) : Nat → Nat → Option (List Byte)
  | _, 0 => some []
  | a, n + 1 =>
    match m.read a, Memory.readAll m (a + 1) n with
    | some b, some bs => some (b :: bs)
    | _, _ => none

/-- The bytes at addresses a .. a+n-1, 0x00 where there is no value: the residue of R251. -/
def Memory.readPadded (m : Memory) : Nat → Nat → List Byte
  | _, 0 => []
  | a, n + 1 => (m.read a).getD 0 :: Memory.readPadded m (a + 1) n

/-! ### Taking a fault, and the return from one -/

/-- The fault codes of R272. -/
def Trap.code : Trap → Byte
  | .tableLen _ => 0x10
  | .lineLen _ _ => 0x11
  | .lineTrunc _ => 0x12
  | .tableIndex _ => 0x13
  | .noGeometry => 0x14
  | .desc _ => 0x15
  | .unknownType _ => 0x20
  | .encOverflow => 0x21
  | .encPayload _ => 0x22
  | .encRun _ => 0x23
  | .encRowLen _ => 0x24
  | .strict _ => 0x25

/-- The severity column of R272: run-fatal, or else block-fatal. -/
def Trap.runFatal : Trap → Bool
  | .tableLen _ => false
  | .lineLen _ _ => false
  | .lineTrunc _ => false
  | .tableIndex _ => false
  | .noGeometry => false
  | .desc _ => false
  | .unknownType _ => true
  | .encOverflow => true
  | .encPayload _ => true
  | .encRun _ => true
  | .encRowLen _ => true
  | .strict _ => true

/-- FPOS at a fault (R283). A decoder in one of the three line contexts is inside a Data block (DEDUCED, assumption log
6). When an emitted frame raises F_ENC_PAYLOAD, the page, channel and line indices are the cursors as they stand then: one
past the last line for a group's Data block, and what an earlier plane left for every other frame (DESIGN CHOICE, unsafe,
assumption log 23). -/
def State.faultPos (s : State) : FaultPos :=
  match s.cfg.dir with
  | .decode => .decode s.ip (if s.ctx = .frame then none else some s.cur)
  | .encode => .encode s.encPage s.encChan s.encLine

/-- The fault record (R283). "A run-fatal record is never overwritten." -/
def State.recordFault (t : Trap) (s : State) : State :=
  if s.runState = .halt then s
  else
    { s with
      fcode := t.code
      finfo := some t
      fpos := s.faultPos
      fblk := match s.cfg.dir with
        | .decode => s.nblk - 1
        | .encode => s.fblk }

/-- The return from a block-fatal fault: the handler ends and control is back at the loop of R250, which reads the
next frame at `ip`. Nothing is restored (R284). -/
def State.resumeLoop (s : State) : State := { s with ctx := .frame }

/-- `raise F_X(info)`: the record, then the entry of its severity (R283, R284, R285). -/
def State.raise (t : Trap) (s : State) : State :=
  let r := s.recordFault t
  if t.runFatal then { r with runState := .halt, exit := .nonzero }
  else State.resumeLoop { r with nblkFatal := r.nblkFatal + 1 }

/-! ### Pseudocode that may fault -/

/-- How a piece of pseudocode ends. `ok`: it goes on with a value. `raised`: a fault was taken and its entry done,
so nothing after it in the same pseudocode runs (R286). `fault` and `refused`: the model stops. -/
inductive Flow (α : Type) where
  | ok (a : α) (s : State)
  | raised (s : State)
  | fault (f : Fault)
  | refused (r : Refusal)
deriving DecidableEq, Repr

/-- One piece of pseudocode after another. -/
def Flow.bind {α β : Type} (x : Flow α) (k : α → State → Flow β) : Flow β :=
  match x with
  | .ok a s => k a s
  | .raised s => .raised s
  | .fault f => .fault f
  | .refused r => .refused r

/-- `raise` inside pseudocode. -/
def Flow.trap {α : Type} (t : Trap) (s : State) : Flow α := .raised (s.raise t)

/-- The outcome of a step whose pseudocode ended so. -/
def Flow.outcome (x : Flow Unit) : Host.Outcome State Fault Refusal :=
  match x with
  | .ok _ s => .next s
  | .raised s => .next s
  | .fault f => .fault f
  | .refused r => .refused r

/-! ### Reads of D and T -/

/-- `cur <- n`. -/
def State.setCur (s : State) (n : Nat) : State := { s with cur := n }

/-- `NextByte()` (R191). -/
def nextByte (s : State) : Flow Byte :=
  match s.d[s.cur]? with
  | some b => .ok b (s.setCur (s.cur + 1))
  | none => Flow.trap (.lineTrunc s.cur) s

/-- `TRead(i)` (R201). An entry not loaded on this line faults too (U16). -/
def tRead (i : Nat) (s : State) : Flow Byte :=
  if i < s.tlen then
    match s.tbl.read i with
    | some b => .ok b s
    | none => Flow.trap (.tableIndex i) s
  else Flow.trap (.tableIndex i) s

/-- `for i = 0 .. TLEN-1:  T[i] <- NextByte()`, from entry i on, n entries (R192, R197). -/
def loadTable : Nat → Nat → State → Flow Unit
  | _, 0, s => .ok () s
  | i, n + 1, s => (nextByte s).bind fun b s1 => loadTable (i + 1) n { s1 with tbl := s1.tbl.write i b }

/-! ### The byte put -/

/-- ACC, ACCPOS and SINK as given: all that a byte put writes. -/
def State.withPut (s : State) (m : Memory) (p : Nat) (u : List FlushUnit) : State :=
  { s with acc := m, accPos := p, sink := u }

/-- `Flush(u)`: appends (CHAN, u) to SINK and sets ACCPOS to 0 (R68). From then on no byte of ACC was written
"since the last zero of ACCPOS", so none has a value (R331). -/
def flushAcc (s : State) : Flow Unit :=
  match s.acc.readAll 0 (2 * s.w) with
  | some u => .ok () (s.withPut [] 0 (s.sink ++ [{ chan := s.chan, bytes := u }]))
  | none => .refused .flushNoValue

/-- `PutByte(v)` (R205). -/
def putByte (v : Byte) (s : State) : Flow Unit :=
  let a := accAddr s.model s.w s.accPos
  if a < 2 * s.w then
    let s1 := s.withPut (s.acc.write a v) (s.accPos + 1) s.sink
    if s1.accPos = 2 * s1.w then flushAcc s1 else .ok () s1
  else .fault .accAddress

/-- `for k = 1 .. n:  PutByte(v)` (R202, R203). -/
def putCopies : Nat → Byte → State → Flow Unit
  | 0, _, s => .ok () s
  | n + 1, v, s => (putByte v s).bind fun _ s1 => putCopies n v s1

/-- `for k = 1 .. n:  PutByte(NextByte())` (R199). -/
def putLiterals : Nat → State → Flow Unit
  | 0, s => .ok () s
  | n + 1, s => (nextByte s).bind fun b s1 => (putByte b s1).bind fun _ s2 => putLiterals n s2

/-- The loop over n index bytes of R200. -/
def putLookups : Nat → State → Flow Unit
  | 0, s => .ok () s
  | n + 1, s =>
    (nextByte s).bind fun x s1 =>
    (tRead (firstIndex s1.cfg x) s1).bind fun b s2 =>
    (putByte b s2).bind fun _ s3 =>
    (tRead (secondIndex s3.cfg x) s3).bind fun b' s4 =>
    (putByte b' s4).bind fun _ s5 => putLookups n s5

/-- A sequence of bytes put one after another. No rule's pseudocode is this; claims state what an opcode puts with it. -/
def putAll : List Byte → State → Flow Unit
  | [], s => .ok () s
  | b :: bs, s => (putByte b s).bind fun _ s1 => putAll bs s1

/-- What is done with bytes left in ACC at a Page block or at the end of the stream: W_RESIDUAL and, when
RESIDUAL_FLUSH is set, a flush unit with 0x00 for the bytes not written (R251, R256, R13). -/
def residue (s : State) : State :=
  if s.accPos = 0 then s
  else
    let s1 := s.warn .residual
    if s1.cfg.residualFlush then
      { s1 with sink := s1.sink ++ [{ chan := s1.chan, bytes := s1.acc.readPadded 0 (2 * s1.w) }] }
    else s1

/-! ### write_block -/

/-- `Emit(s)` (R9). -/
def emit (bs : List Byte) (s : State) : State := { s with out := s.out ++ bs }

/-- The sequence number a frame carries: SEQ, or with SEQ_PRE = false SEQ + 1 mod 256, "first sets SEQ" (R132, R13). -/
def State.carriedSeq (s : State) : Byte := if s.cfg.seqPre then s.seq else s.seq + 1

/-- `write_block(type, payload)` (R131 to R133). DESIGN CHOICE, unsafe (assumption log 22): with SEQ_PRE = false too, the
length is tested before SEQ is incremented, so F_ENC_PAYLOAD leaves SEQ unchanged, as R133 and R286 say of the decided
value. -/
def writeBlock (ty : Byte) (payload : List Byte) (s : State) : Flow Unit :=
  if 65535 < payload.length then Flow.trap (.encPayload payload.length) s
  else .ok () (emit (frameBytes ty (goodFrame ty s.carriedSeq payload)) { s with seq := s.seq + 1 })

end Sys2Proof.Machine
end

