-- ==== Sys2Proof/Machine/Payload.lean ====
section
/-! DEFINITION. The payload layouts and code tables of R252 to R258: reading a field of a payload, and building a
payload from its fields; then `parse` and `serialise` of each block type (R6, R13). -/

namespace Sys2Proof.Machine

open Sys2Proof

/-! ### Fields -/

/-- A u8 field. -/
def fieldU8 (p : List Byte) (o : Nat) : Byte := p.getD o 0

/-- A u16 field, little-endian (R62). -/
def fieldU16 (p : List Byte) (o : Nat) : BitVec 16 := fieldU8 p (o + 1) ++ fieldU8 p o

/-- A u32 field, little-endian (R62, R257). -/
def fieldU32 (p : List Byte) (o : Nat) : Nat :=
  (fieldU8 p o).toNat + 256 * (fieldU8 p (o + 1)).toNat + 65536 * (fieldU8 p (o + 2)).toNat +
    16777216 * (fieldU8 p (o + 3)).toNat

/-- A payload with the bytes `bs` at offset `o`. -/
def setField (o : Nat) (bs p : List Byte) : List Byte := p.take o ++ bs ++ p.drop (o + bs.length)

/-- A payload of `len` bytes before its fields are set. DESIGN CHOICE, unsafe (assumption log 24): room that no field
covers is emitted as 0x00. The spec names no such room (R256), and leaves its bytes to `serialise` (R13). -/
def blankPayload (len : Nat) : List Byte := List.replicate len 0

/-- A payload of `len` bytes with fields at their offsets. -/
def buildPayload (len : Nat) (fs : List (Nat × List Byte)) : List Byte :=
  fs.foldl (fun p f => setField f.1 f.2 p) (blankPayload len)

/-! ### Code tables -/

/-- MODEL_CODE(m), for the three models that have one (R252). -/
def modelByte (t : ModelCodes) : Model → Option Byte
  | .m1 => some t.m1
  | .m2 => some t.m2
  | .m3 => some t.m3
  | .unknown => none

/-- The model with code b, or UNKNOWN (R252). -/
def modelOf (t : ModelCodes) (b : Byte) : Model :=
  if b = t.m1 then .m1 else if b = t.m2 then .m2 else if b = t.m3 then .m3 else .unknown

/-- CHANNEL_CODE (R257). -/
def channelByte (t : ChannelCodes) : Channel → Byte
  | .k => t.k
  | .c => t.c
  | .m => t.m
  | .y => t.y

/-- The channel with code b, "or the raw byte p[0] if it is no known code" (R257). -/
def chanOf (t : ChannelCodes) (b : Byte) : Chan :=
  if b = t.k then .known .k else if b = t.c then .known .c else if b = t.m then .known .m
  else if b = t.y then .known .y else .raw b

/-- COLOR_MODE_CODE (R256). -/
def colorByte (t : ColorCodes) : ColorMode → Byte
  | .mono => t.mono
  | .color => t.color

/-- "COLOR if p[4] = 1 else MONO" (R256). -/
def colorOf (t : ColorCodes) (b : Byte) : ColorMode := if b = t.color then .color else .mono

/-! ### parse and serialise, per block type -/

/-- `parse` of a layout with fixed offsets: nothing when the payload is shorter than the layout (R262). -/
def parseFields {α : Type} (len : Nat) (p : List Byte) (x : α) : Option α := if p.length < len then none else some x

/-- `parse(Begin)` (R254). -/
def Layouts.parseBegin (l : Layouts) (p : List Byte) : Option Byte :=
  match l.begin with
  | .fields x => parseFields x.len p (fieldU8 p x.model)
  | .other key => Config.parseBegin key p

/-- `serialise(Begin{model})` (R254). -/
def Layouts.serialiseBegin (l : Layouts) (code : Byte) : List Byte :=
  match l.begin with
  | .fields x => buildPayload x.len [(x.model, [code])]
  | .other key => Config.serialiseBegin key code

/-- `parse(Params)` (R255). -/
def Layouts.parseParams (l : Layouts) (p : List Byte) : Option (BitVec 16) :=
  match l.params with
  | .fields x => parseFields x.len p (fieldU16 p x.resolution)
  | .other key => Config.parseParams key p

/-- `serialise(Params{resolution})` (R255). -/
def Layouts.serialiseParams (l : Layouts) (resolution : BitVec 16) : List Byte :=
  match l.params with
  | .fields x => buildPayload x.len [(x.resolution, le16 resolution.toNat)]
  | .other key => Config.serialiseParams key resolution

/-- `parse(Page)` (R256). -/
def Layouts.parsePage (l : Layouts) (p : List Byte) : Option PageFields :=
  match l.page with
  | .fields x => parseFields x.len p
      { pixelWidth := fieldU16 p x.pixelWidth
        height := fieldU16 p x.height
        colorMode := fieldU8 p x.colorMode
        paperSize := fieldU8 p x.paperSize
        tray := fieldU8 p x.tray
        copies := fieldU8 p x.copies
        duplex := fieldU8 p x.duplex }
  | .other key => Config.parsePage key p

/-- `serialise(Page{...})` (R256). -/
def Layouts.serialisePage (l : Layouts) (f : PageFields) : List Byte :=
  match l.page with
  | .fields x =>
    buildPayload x.len
      [(x.pixelWidth, le16 f.pixelWidth.toNat), (x.height, le16 f.height.toNat), (x.colorMode, [f.colorMode]),
        (x.paperSize, [f.paperSize]), (x.tray, [f.tray]), (x.copies, [f.copies]), (x.duplex, [f.duplex])]
  | .other key => Config.serialisePage key f

/-- `parse(Data)`: the descriptor, and how many bytes of the payload it takes (R257). -/
def Layouts.parseData (l : Layouts) (p : List Byte) : Option (DataFields × Nat) :=
  match l.data with
  | .fields x => parseFields x.len p
      ({ channel := fieldU8 p x.channel
         blockNumber := fieldU8 p x.blockNumber
         compressedLen := fieldU32 p x.compressedLen
         lineCount := fieldU16 p x.lineCount }, x.len)
  | .other key => Config.parseData key p

/-- `serialise(Data{color_channel, block_number, compressed_len, line_count})` (R257). -/
def Layouts.serialiseData (l : Layouts) (f : DataFields) : List Byte :=
  match l.data with
  | .fields x =>
    buildPayload x.len
      [(x.channel, [f.channel]), (x.blockNumber, [f.blockNumber]), (x.compressedLen, le32 f.compressedLen),
        (x.lineCount, le16 f.lineCount.toNat)]
  | .other key => Config.serialiseData key f

/-- `parse(EndPart)` (R258). -/
def Layouts.parseEndPart (l : Layouts) (p : List Byte) : Option Byte :=
  match l.endPart with
  | .fields x => parseFields x.len p (fieldU8 p x.reason)
  | .other key => Config.parseEndPart key p

/-- `serialise(EndPart{reason})` (R258). -/
def Layouts.serialiseEndPart (l : Layouts) (reason : Byte) : List Byte :=
  match l.endPart with
  | .fields x => buildPayload x.len [(x.reason, [reason])]
  | .other key => Config.serialiseEndPart key reason

end Sys2Proof.Machine
end

