-- ==== Sys2Proof/Machine/Frame.lean ====
section
/-! DEFINITION. The FRAME family: what `read_block` does with a whole frame (R134, R136 to R138), and the handlers of the
six block types (R252, R253, R256 to R259). -/

namespace Sys2Proof.Machine

open Sys2Proof

/-! ### read_block, once the frame is read -/

/-- One check of R136; in strict mode a failed check sets its warning and raises F_STRICT (R137). -/
def frameCheck (k : FrameCheck) (good : Bool) (s : State) : Flow Unit :=
  if good then .ok () s
  else if s.cfg.strict then Flow.trap (.strict k) (s.warn k.warning)
  else .ok () (s.warn k.warning)

/-- `hdr[0] = 0x1B` (R136). -/
def Frame.magicOk (f : Frame) : Bool := decide (f.magic = magicByte)

/-- `hdr[5] = hdr[1] XOR 0xFF` (R136). -/
def Frame.typeInvOk (ty : Byte) (f : Frame) : Bool := decide (f.typeInv = ty ^^^ 0xFF)

/-- `c = csum(hdr ++ payload)`, over the bytes as read (R136). -/
def Frame.checksumOk (ty : Byte) (f : Frame) : Bool := decide (f.checksum = sum8 (frameHeader ty f ++ f.payload))

/-- `validate(hdr, payload, c)` (R136, R137). -/
def validate (ty : Byte) (f : Frame) (s : State) : Flow Unit :=
  (frameCheck .magic (Frame.magicOk f) s).bind fun _ s1 =>
  (frameCheck .typeInv (Frame.typeInvOk ty f) s1).bind fun _ s2 =>
  frameCheck .checksum (Frame.checksumOk ty f) s2

/-- `read_block` from the point where the whole frame has been read: `ip` past it, NBLK, validation (R134). -/
def acceptFrame (ty : Byte) (f : Frame) (s : State) : Flow Unit :=
  validate ty f { s with ip := s.ip + (7 + f.payload.length), nblk := s.nblk + 1 }

/-- A frame of unknown type: validated, then F_UNKNOWN_TYPE (R138). -/
def acceptUnknown (ty : Byte) (f : Frame) (s : State) : Flow Unit :=
  (acceptFrame ty f s).bind fun _ s1 => Flow.trap (.unknownType ty) s1

/-! ### Starting a Data block's lines -/

/-- After the last line: `if cur < len(D): warn W_TRAILING`, and back to the loop (R190, R250). -/
def endData (s : State) : State := State.resumeLoop (s.warnIf (decide (s.cur < s.d.length)) .trailing)

/-- The test of the line loop `while LINES_LEFT > 0` (R190). -/
def linesLoop (s : State) : State := if s.linesLeft = 0 then endData s else { s with ctx := .lhdr }

/-- `DecodeData(D, line_count)` up to its first line (R190). -/
def startData (d : List Byte) (n : Nat) (s : State) : State := linesLoop { s with d := d, cur := 0, linesLeft := n }

/-! ### The handlers -/

/-- `OnBegin(p)` (R252). -/
def onBegin (p : List Byte) (s : State) : Flow Unit :=
  match Layouts.parseBegin s.cfg.layouts p with
  | none => Flow.trap (.desc BlockType.begin.code) s
  | some b =>
    let m := modelOf s.cfg.modelCode b
    .ok () (State.warnIf (decide (m = .unknown)) .model { s with model := m })

/-- `OnParams(p)` (R253). -/
def onParams (p : List Byte) (s : State) : Flow Unit :=
  match Layouts.parseParams s.cfg.layouts p with
  | none => Flow.trap (.desc BlockType.params.code) s
  | some _ => .ok () s

/-- `OnPage(p)` (R256). -/
def onPage (p : List Byte) (s : State) : Flow Unit :=
  match Layouts.parsePage s.cfg.layouts p with
  | none => Flow.trap (.desc BlockType.page.code) s
  | some f =>
    .ok ()
      { residue s with
        w := ceilDiv f.pixelWidth.toNat 8
        height := f.height.toNat
        colorMode := colorOf s.cfg.colorCode f.colorMode
        acc := []
        accPos := 0 }

/-- The last part of `OnData(p)`: with no geometry F_NO_GEOMETRY, else the lines of D (R257). -/
def decodeData (d : List Byte) (n : Nat) (s : State) : Flow Unit :=
  if s.w = 0 then Flow.trap .noGeometry s else .ok () (startData d n s)

/-- `OnData(p)` when DATA_PLACEMENT = INSIDE, after CHAN: `body` is the payload past its descriptor (R257). -/
def onDataInside (body : List Byte) (clen n : Nat) (s : State) : Flow Unit :=
  if body.length < clen then Flow.trap (.desc BlockType.data.code) s
  else decodeData (body.take clen) n (s.warnIf (decide (clen < body.length)) .trailing)

/-- `OnData(p)` when DATA_PLACEMENT = TRAILING, after CHAN (R257). -/
def onDataTrailing (clen n : Nat) (s : State) : Flow Unit :=
  let rest := s.inp.drop s.ip
  let taken := rest.take clen
  decodeData taken n
    { State.warnIf (decide (rest.length < clen)) .trunc s with ip := s.ip + taken.length }

/-- `OnData(p)` (R257). -/
def onData (p : List Byte) (s : State) : Flow Unit :=
  match Layouts.parseData s.cfg.layouts p with
  | none => Flow.trap (.desc BlockType.data.code) s
  | some (f, len) =>
    let s1 := { s with chan := chanOf s.cfg.channelCode f.channel }
    match s.cfg.placement with
    | .inside => onDataInside (p.drop len) f.compressedLen f.lineCount.toNat s1
    | .trailing => onDataTrailing f.compressedLen f.lineCount.toNat s1

/-- `OnEndPart(p)` (R258). -/
def onEndPart (p : List Byte) (s : State) : Flow Unit :=
  match Layouts.parseEndPart s.cfg.layouts p with
  | none => Flow.trap (.desc BlockType.endPart.code) s
  | some _ => .ok () s

/-- `OnEnd(p)`: nothing; a payload is ignored (R259). -/
def onEnd (_p : List Byte) (s : State) : Flow Unit := .ok () s

/-- A frame of a known type: `read_block`, then the handler of R250. -/
def runFrame (t : BlockType) (handler : List Byte → State → Flow Unit) (f : Frame) (s : State) :
    Host.Outcome State Fault Refusal :=
  Flow.outcome ((acceptFrame t.code f s).bind fun _ s1 => handler f.payload s1)

/-- BEGIN (R252). -/
def execBegin (f : Frame) (s : State) : Host.Outcome State Fault Refusal := runFrame .begin onBegin f s

/-- END (R259). -/
def execEnd (f : Frame) (s : State) : Host.Outcome State Fault Refusal := runFrame .end_ onEnd f s

/-- PARAMS (R253). -/
def execParams (f : Frame) (s : State) : Host.Outcome State Fault Refusal := runFrame .params onParams f s

/-- PAGE (R256). -/
def execPage (f : Frame) (s : State) : Host.Outcome State Fault Refusal := runFrame .page onPage f s

/-- DATA (R257). -/
def execData (f : Frame) (s : State) : Host.Outcome State Fault Refusal := runFrame .data onData f s

/-- ENDPART (R258). -/
def execEndPart (f : Frame) (s : State) : Host.Outcome State Fault Refusal := runFrame .endPart onEndPart f s

end Sys2Proof.Machine
end

