-- ==== Sys2Proof/Machine/Line.lean ====
section
/-! DEFINITION. The LHDR, PADHDR and OP families: the line header, the pad header, the opcode loop and the end of a line
(R192 to R204). An instruction begins with `cur` at its own first byte and moves past it. -/

namespace Sys2Proof.Machine

open Sys2Proof

/-! ### The end of a line and the opcode loop -/

/-- The row_len comparison of R204: true when a line with a PADHDR did not use the bytes it declared. -/
def rowMismatch (s : State) : Bool :=
  match s.padRow with
  | none => false
  | some r => decide (rowUsed s.cfg.rowLenMode (s.cur - s.lstart) s.padLen ≠ r)

/-- `EndLine()` (R204), then `LINES_LEFT <- LINES_LEFT - 1` and the line loop's test (R190). -/
def endLine (s : State) : Flow Unit :=
  if s.produced ≠ s.leff then Flow.trap (.lineLen s.produced s.leff) s
  else
    let s1 := s.warnIf (rowMismatch s) .pad
    .ok () (linesLoop { s1 with linesLeft := s1.linesLeft - 1 })

/-- The test `while PRODUCED < L_eff` of R198: the next opcode, or the end of the line. -/
def opLoop (s : State) : Flow Unit := if s.produced < s.leff then .ok () { s with ctx := .op } else endLine s

/-- `PRODUCED <- PRODUCED + n`, after an opcode's puts, and back to the opcode loop. -/
def addProduced (n : Nat) (s : State) : Flow Unit := opLoop { s with produced := s.produced + n }

/-! ### The line header -/

/-- `DecodeLine` from the table-length test on: TLEN, the table load, PRODUCED <- 0 and the opcode loop (R192,
R196 to R198). Entries the line does not load hold no value (R36, R197). -/
def startOps (tlen : Nat) (s : State) : Flow Unit :=
  if 16 < tlen then Flow.trap (.tableLen tlen) s
  else
    (loadTable 0 tlen { s with tlen := tlen, tbl := [] }).bind fun _ s1 => opLoop { s1 with produced := 0 }

/-- LHDR: `DecodeLine` up to `ReadPad` or past it (R192, R193, R196, R197). With padding the PADHDR is the next
instruction, of the same step (`decodeStep`). -/
def execLhdr (present padp : Bool) (tlen : BitVec 7) (s : State) : Host.Outcome State Fault Refusal :=
  let s1 := { s with lstart := s.cur, padRow := none, padLen := 0, cur := s.cur + 1 }
  let s2 := s1.warnIf (!present) .lineFlag
  Flow.outcome
    (if padp then .ok () { s2 with hdrTlen := tlen.toNat, ctx := .padhdr } else startOps tlen.toNat s2)

/-- The filler loop of `ReadPad`: W_PAD for each filler byte that is not 0xFF (R194). -/
def readFiller : Nat → State → Flow Unit
  | 0, s => .ok () s
  | n + 1, s => (nextByte s).bind fun x s1 => readFiller n (s1.warnIf (decide (x ≠ 0xFF)) .pad)

/-- PADHDR: `ReadPad()`, then the rest of `DecodeLine` with the header's table length (R192, R194). -/
def execPadhdr (padLen : BitVec 2) (rowLen : BitVec 14) (s : State) : Host.Outcome State Fault Refusal :=
  let s1 := { s with padRow := some rowLen.toNat, padLen := padLen.toNat, cur := s.cur + 2 }
  Flow.outcome ((readFiller padLen.toNat s1).bind fun _ s2 => startOps s2.hdrTlen s2)

/-! ### The opcodes -/

/-- The opcode byte itself consumed. -/
def State.pastOpcode (s : State) : State := s.setCur (s.cur + 1)

/-- RAW (R199). -/
def execRaw (fld : BitVec 6) (s : State) : Host.Outcome State Fault Refusal :=
  Flow.outcome ((putLiterals (rawCount fld) s.pastOpcode).bind fun _ s1 => addProduced (rawCount fld) s1)

/-- TBL (R200). -/
def execTbl (fld : BitVec 6) (s : State) : Host.Outcome State Fault Refusal :=
  let n := tblCount s.cfg fld
  Flow.outcome ((putLookups n s.pastOpcode).bind fun _ s1 => addProduced (2 * n) s1)

/-- The shared form of REP and LREP: the value byte, n puts of it, PRODUCED (R202, R203). -/
def repeatByte (n : Nat) (s : State) : Flow Unit :=
  (nextByte s).bind fun v s1 => (putCopies n v s1).bind fun _ s2 => addProduced n s2

/-- REP (R202). -/
def execRep (fld : BitVec 6) (s : State) : Host.Outcome State Fault Refusal :=
  Flow.outcome (repeatByte (repCount fld) s.pastOpcode)

/-- LREP (R203). -/
def execLrep (fld : BitVec 6) (s : State) : Host.Outcome State Fault Refusal :=
  Flow.outcome (repeatByte (lrepCount fld) s.pastOpcode)

end Sys2Proof.Machine
end

