-- ==== Sys2Proof/Machine/Dispatch.lean ====
section
/-! DEFINITION. One arm per constructor of `Instr`. -/

namespace Sys2Proof.Machine

open Sys2Proof

def exec (i : Instr) (s : State) : Host.Outcome State Fault Refusal :=
  match i with
  | .blkBegin f => Sys2Proof.Machine.execBegin f s
  | .blkEnd f => Sys2Proof.Machine.execEnd f s
  | .blkParams f => Sys2Proof.Machine.execParams f s
  | .blkPage f => Sys2Proof.Machine.execPage f s
  | .blkData f => Sys2Proof.Machine.execData f s
  | .blkEndPart f => Sys2Proof.Machine.execEndPart f s
  | .lhdr present padp tlen => Sys2Proof.Machine.execLhdr present padp tlen s
  | .padhdr padLen rowLen => Sys2Proof.Machine.execPadhdr padLen rowLen s
  | .raw fld => Sys2Proof.Machine.execRaw fld s
  | .tbl fld => Sys2Proof.Machine.execTbl fld s
  | .rep fld => Sys2Proof.Machine.execRep fld s
  | .lrep fld => Sys2Proof.Machine.execLrep fld s

end Sys2Proof.Machine
end

