-- ==== Sys2Proof/Machine/LineEncode.lean ====
section
/-! DEFINITION. The line codec, encoding direction (41_line_encode.md): a pure function of the line, the model and Cfg. -/

namespace Sys2Proof.Machine

open Sys2Proof

/-- The maximal runs of a line, in order: each a byte value and how often it stands (R163). -/
def runsOf : List Byte → List (Byte × Nat)
  | [] => []
  | b :: bs =>
    match runsOf bs with
    | [] => [(b, 1)]
    | (v, n) :: rs => if v = b then (b, n + 1) :: rs else (b, 1) :: (v, n) :: rs

/-- The loop of `RawChunks`, for at most k chunks (R165). -/
def rawChunksUpTo : Nat → List Byte → List Byte
  | 0, _ => []
  | k + 1, lit =>
    if lit.isEmpty then []
    else
      let m := min 64 lit.length
      [BitVec.ofNat 8 (m - 1)] ++ lit.take m ++ rawChunksUpTo k (lit.drop m)

/-- `RawChunks(lit)`: full chunks of 64 first, the short chunk last (R165). The pseudo-instruction LIT (R112). -/
def rawChunks (lit : List Byte) : List Byte := rawChunksUpTo lit.length lit

/-- `Repeat(count, v)`, or nothing for a run of 8192 or more (R166, R167). The pseudo-instruction RUN (R112). -/
def repeatOps (count : Nat) (v : Byte) : Option (List Byte) :=
  let big : List Byte := if 4096 ≤ count then [0xE0, v, 0xE0, v] else []
  let r := if 4096 ≤ count then count - 4096 else count
  if 4096 ≤ r then none
  else
    let long : List Byte := if 64 ≤ r then [0xC0 ||| BitVec.ofNat 8 (r / 64), v] else []
    let r' := if 64 ≤ r then r % 64 else r
    let short : List Byte := if 0 < r' then [0x80 ||| BitVec.ofNat 8 r', v] else []
    some (big ++ long ++ short)

/-- What `EncodeLine` answers: the line stream, or the fault it raises and the byte index it had reached. -/
inductive LineCode where
  | stream (bs : List Byte)
  | fail (t : Trap) (at_ : Nat)
deriving DecidableEq, Repr

/-- The pass of R162 over the runs still to code: `lit` are the pending literal bytes, `i` the byte index. A run of 3
or more is a repeat, a shorter one literal (R163, R164). -/
def codeRuns : List (Byte × Nat) → List Byte → Nat → LineCode
  | [], lit, _ => .stream (rawChunks lit)
  | (v, n) :: rs, lit, i =>
    if 3 ≤ n then
      match repeatOps n v with
      | none => .fail (.encRun n) i
      | some r =>
        match codeRuns rs [] (i + n) with
        | .stream rest => .stream (rawChunks lit ++ r ++ rest)
        | .fail t j => .fail t j
    else codeRuns rs (lit ++ List.replicate n v) (i + n)

/-- `pad_len = (4 - (enc_len + 2) mod 4) mod 4` (R115). -/
def padLenFor (encLen : Nat) : Nat := (4 - (encLen + 2) % 4) % 4

/-- The row length a pad header declares (R99), or `enc_len` when ROWLEN_MODE = UNPADDED (R13). -/
def rowLenFor (mode : RowLenMode) (encLen : Nat) : Nat :=
  match mode with
  | .total => encLen + 2 + padLenFor encLen
  | .unpadded => encLen

/-- `Pad(body)` for the body `lead :: ops` of a line of L bytes (R170). The leading byte gets the PADP bit. -/
def padStream (c : Cfg) (lead : Byte) (ops : List Byte) (L : Nat) : LineCode :=
  let encLen := 1 + ops.length
  let rowLen := rowLenFor c.rowLenMode encLen
  if 16383 < rowLen then .fail (.encRowLen rowLen) L
  else
    .stream ([lead ||| BitVec.twoPow 8 c.padpBit.index]
      ++ wordBytes (c.padLayout.pack (BitVec.ofNat 2 (padLenFor encLen)) (BitVec.ofNat 14 rowLen))
      ++ List.replicate (padLenFor encLen) 0xFF ++ ops)

/-- `EncodeLine(line)` (R162). The leading byte 0x80 is the LHDR with PRESENT and an empty table (R168). -/
def encodeLine (c : Cfg) (m : Model) (line : List Byte) : LineCode :=
  match codeRuns (runsOf line) [] 0 with
  | .fail t i => .fail t i
  | .stream ops => if m = .m3 then padStream c 0x80 ops line.length else .stream (0x80 :: ops)

/-- Two physical lines combined byte by byte (R161). -/
def interleave : List Byte → List Byte → List Byte
  | a :: as, b :: bs => a :: b :: interleave as bs
  | _, _ => []

end Sys2Proof.Machine
end

