-- ==== Sys2Proof/Machine/Document.lean ====
section
/-! DEFINITION. The encode direction as steps: `EncodeRun` (R260), `EncodePage` (R238), `EncodePlane` (R233). One step
emits one frame or encodes one line (R11). -/

namespace Sys2Proof.Machine

open Sys2Proof

/-! ### Lines and groups -/

/-- The plane of a channel. -/
def Page.plane (pg : Page) : Channel → List (List Byte)
  | .k => pg.planeK
  | .c => pg.planeC
  | .m => pg.planeM
  | .y => pg.planeY

/-- The fields of a page's Page block, with its colour mode's code (R256). -/
def Page.fields (pg : Page) (colorMode : Byte) : PageFields where
  pixelWidth := pg.pixelWidth
  height := pg.height
  colorMode := colorMode
  paperSize := pg.paperSize
  tray := pg.tray
  copies := pg.copies
  duplex := pg.duplex

/-- W of a page (R34). -/
def Page.width (pg : Page) : Nat := ceilDiv pg.pixelWidth.toNat 8

/-- `total_lines` (R230). -/
def totalLines (m : Model) (height : Nat) : Nat := if m = .m2 then ceilDiv height 2 else height

/-- `lpb` (R231). -/
def linesPerBlock (total : Nat) : Nat := ceilDiv total 8

/-- `ngroups` (R232). -/
def groupCount (total : Nat) : Nat := if total = 0 then 0 else ceilDiv total (linesPerBlock total)

/-- The line after the last one of group k: `min(k lpb, total_lines)` (R232). -/
def groupEnd (total k : Nat) : Nat := min (k * linesPerBlock total) total

/-- `total_lines` of the current page. -/
def State.totalLines (s : State) : Nat := Machine.totalLines s.model s.height

/-- The plane has the shape the host must supply: exactly HEIGHT scanlines of exactly W bytes (R323). -/
def planeShaped (w height : Nat) (p : List (List Byte)) : Bool :=
  decide (p.length = height) && p.all fun l => decide (l.length = w)

/-- The planes a page is scanned for have that shape: all four of a colour job's page, K only of a mono one. -/
def Page.shaped (pg : Page) : Bool :=
  planeShaped pg.width pg.height.toNat pg.planeK &&
  (!pg.isColor ||
    (planeShaped pg.width pg.height.toNat pg.planeY && planeShaped pg.width pg.height.toNat pg.planeM &&
      planeShaped pg.width pg.height.toNat pg.planeC))

/-- "some byte of plane Y, M or C of this page is nonzero" (R238). -/
def Page.hasColor (pg : Page) : Bool :=
  (pg.planeY ++ pg.planeM ++ pg.planeC).any fun l => l.any fun b => decide (b ≠ 0)

/-- A physical line of W bytes. -/
def physicalLine (w : Nat) (p : List (List Byte)) (i : Nat) : Option (List Byte) :=
  match p[i]? with
  | some l => if l.length = w then some l else none
  | none => none

/-- Logical line t of a plane; nothing when the host supplied no such line (R230, R323). -/
def logicalLine (m : Model) (w height : Nat) (p : List (List Byte)) (t : Nat) : Option (List Byte) :=
  if m = .m2 then
    match physicalLine w p (2 * t) with
    | none => none
    | some a =>
      if 2 * t + 1 < height then
        match physicalLine w p (2 * t + 1) with
        | none => none
        | some b => some (interleave a b)
      else some (interleave a (List.replicate w 0))
  else physicalLine w p t

/-! ### Where the encoder goes next -/

/-- To the first or the next page, or past the last one to EndPart (R260). -/
def toPage (n : Nat) (s : State) : State :=
  { s with encPage := n, phase := if n < s.job.pages.length then .page else .endPart }

/-- To the first line of group k of the current plane (R233). -/
def toGroup (k : Nat) (s : State) : State := { s with blkNum := k, encBuf := [], phase := .line }

/-- To the first group of a plane, at its line 0 (R233). A page of no lines has no group in any plane (R232). DESIGN
CHOICE, unsafe (assumption log 18): the byte index is put to 0 here; at the next line of the same plane it keeps the length
of the line before until that line is encoded. R30 and R162 do not fix it between lines. -/
def toPlane (ch : Channel) (s : State) : State :=
  let s1 := { s with encChan := ch, encLine := 0, encByte := 0 }
  if s1.totalLines = 0 then toPage (s1.encPage + 1) s1 else toGroup 1 s1

/-- After the last group of a plane: the order Y, M, C, K, then the next page (R238, R261). -/
def afterPlane (s : State) : State :=
  match s.encChan with
  | .y => toPlane .m s
  | .m => toPlane .c s
  | .c => toPlane .k s
  | .k => toPage (s.encPage + 1) s

/-! ### The steps -/

/-- Begin: `write_block(0x40, [MODEL_CODE(MODEL)])` (R252, R260). -/
def encodeBegin (s : State) : Flow Unit :=
  match modelByte s.cfg.modelCode s.model with
  | none => .refused .encodeModel
  | some b =>
    (writeBlock BlockType.begin.code (Layouts.serialiseBegin s.cfg.layouts b) s).bind fun _ s1 =>
    .ok () { s1 with phase := .params }

/-- Params, once (R253, R260). -/
def encodeParams (s : State) : Flow Unit :=
  (writeBlock BlockType.params.code (Layouts.serialiseParams s.cfg.layouts s.job.resolution) s).bind fun _ s1 =>
  .ok () (toPage s1.encPage s1)

/-- A page's geometry and colour mode, and its Page block (R238, R260). -/
def encodePageBlock (pg : Page) (s : State) : Flow Unit :=
  let color := pg.isColor && pg.hasColor
  let s1 :=
    { s with
      w := pg.width
      height := pg.height.toNat
      upgraded := color
      colorMode := if color then .color else .mono }
  let payload := Layouts.serialisePage s1.cfg.layouts (pg.fields (colorByte s1.cfg.colorCode s1.colorMode))
  (writeBlock BlockType.page.code payload s1).bind fun _ s2 => .ok () (toPlane (if color then .y else .k) s2)

/-- The start of a page (R238). A plane that is not shaped as the host must shape it is refused (R323). -/
def encodePage (s : State) : Flow Unit :=
  match s.job.pages[s.encPage]? with
  | none => .ok () { s with phase := .endPart }
  | some pg => if pg.shaped then encodePageBlock pg s else .refused .scanlineShape

/-- A length is past ENC_BUF_CAP (R234). -/
def pastCap : Option Nat → Nat → Bool
  | none, _ => false
  | some cap, n => decide (cap < n)

/-- `Append(ENCBUF, s)` (R234). -/
def appendEnc (bs : List Byte) (s : State) : Flow Unit :=
  if pastCap s.cfg.encBufCap (s.encBuf.length + bs.length) then Flow.trap .encOverflow s
  else .ok () { s with encBuf := s.encBuf ++ bs }

/-- After a line: the next line of the group, or its Data block. DESIGN CHOICE, unsafe (assumption log 23): after a
group's last line the line index is one past it, which is total_lines after the plane's last group. R30 and R233 give it
no value there. An F_ENC_PAYLOAD of the group's Data block records that index in FPOS (R283). -/
def afterLine (s : State) : State :=
  let s1 := { s with encLine := s.encLine + 1 }
  if groupEnd s1.totalLines s1.blkNum ≤ s1.encLine then { s1 with phase := .data } else s1

/-- One line of a group: `EncodeLine`, then `Append` (R233). DESIGN CHOICE, unsafe (assumption log 18): the byte index
is left at the line's length, and after a failed line where `EncodeLine` stood; R30 does not say which. -/
def encodeLogical (line : List Byte) (s : State) : Flow Unit :=
  let s1 := { s with lineBuf := line }
  match encodeLine s1.cfg s1.model line with
  | .fail t i => Flow.trap t { s1 with encByte := i }
  | .stream bs => (appendEnc bs { s1 with encByte := line.length }).bind fun _ s2 => .ok () (afterLine s2)

/-- The next logical line of the current plane (R230, R233). -/
def encodeLineStep (s : State) : Flow Unit :=
  match s.job.pages[s.encPage]? with
  | none => .refused .scanlineShape
  | some pg =>
    match logicalLine s.model s.w s.height (pg.plane s.encChan) s.encLine with
    | none => .refused .scanlineShape
    | some line => encodeLogical line s

/-- `EmitData(desc, data)` (R235). -/
def emitData (desc data : List Byte) (s : State) : Flow Unit :=
  match s.cfg.placement with
  | .inside => writeBlock BlockType.data.code (desc ++ data) s
  | .trailing => (writeBlock BlockType.data.code desc s).bind fun _ s1 => .ok () (emit data s1)

/-- The fields of the current group's descriptor (R233). -/
def State.groupFields (s : State) : DataFields where
  channel := channelByte s.cfg.channelCode s.encChan
  blockNumber := BitVec.ofNat 8 s.blkNum
  compressedLen := s.encBuf.length
  lineCount := BitVec.ofNat 16 (groupEnd s.totalLines s.blkNum - groupEnd s.totalLines (s.blkNum - 1))

/-- The serialised descriptor of the current group (R233). -/
def State.groupDesc (s : State) : List Byte := Layouts.serialiseData s.cfg.layouts s.groupFields

/-- The Data block of a group; "ENCBUF is emptied after each Data block is emitted" (R42, R233). -/
def encodeData (s : State) : Flow Unit :=
  (emitData s.groupDesc s.encBuf s).bind fun _ s1 =>
  let s2 := { s1 with encBuf := [] }
  .ok () (if s2.blkNum < groupCount s2.totalLines then toGroup (s2.blkNum + 1) s2 else afterPlane s2)

/-- EndPart (R258, R260). -/
def encodeEndPart (s : State) : Flow Unit :=
  (writeBlock BlockType.endPart.code (Layouts.serialiseEndPart s.cfg.layouts s.cfg.endPartReason) s).bind fun _ s1 =>
  .ok () { s1 with phase := .end_ }

/-- End, the last block of the stream; then RUNSTATE <- DONE (R259, R260). -/
def encodeEnd (s : State) : Flow Unit :=
  (writeBlock BlockType.end_.code [] s).bind fun _ s1 => .ok () { s1 with runState := .done }

/-- The next step of `EncodeRun(job)` (R260). -/
def encodeStep (s : State) : Flow Unit :=
  match s.phase with
  | .begin => encodeBegin s
  | .params => encodeParams s
  | .page => encodePage s
  | .line => encodeLineStep s
  | .data => encodeData s
  | .endPart => encodeEndPart s
  | .end_ => encodeEnd s

end Sys2Proof.Machine
end

