-- ==== Sys2Proof/Machine/Fetch.lean ====
section
/-! DEFINITION. Fetching in the decode direction: the bytes at the cursor of the current context, what happens when they
hold no instruction, the end of the stream, and placing a table word where the next step fetches. -/

namespace Sys2Proof.Machine

open Sys2Proof

/-- The bytes the next step decodes: IN from `ip` in context FRAME, D from `cur` in the others (R28, R29, R90). -/
def State.window (s : State) : List Byte :=
  match s.ctx with
  | .frame => s.inp.drop s.ip
  | .lhdr => s.d.drop s.cur
  | .padhdr => s.d.drop s.cur
  | .op => s.d.drop s.cur

/-- What the decoder reads at the cursor. -/
def fetch (s : State) : Decoded := decode s.cfg s.ctx s.window

/-- `Finish()` (R251). -/
def finish (s : State) : State := { residue s with runState := .done }

/-- The stream ends inside a frame: W_TRUNC, and end of stream (R134, R135). -/
def truncatedFrame (s : State) : State := finish { s.warn .trunc with ip := s.inp.length }

/-- LSTART and PADROW, which `DecodeLine` writes before it reads the header byte (R192). -/
def beginLine (s : State) : State := { s with lstart := s.cur, padRow := none, padLen := 0 }

/-- D ends where the line decoder needs a byte: the bytes that were there are read, then F_LINE_TRUNC (R191). What the
pseudocode writes before that read has happened (R286). -/
def truncatedLine (s : State) : State :=
  let s1 := if s.ctx = .lhdr then beginLine s else s
  let s2 := s1.setCur (max s1.cur s1.d.length)
  s2.raise (.lineTrunc s2.cur)

/-- The step when no byte is left at the cursor. -/
def atEnd (s : State) : State := if s.ctx = .frame then finish s else truncatedLine s

/-- The step when the bytes end inside the encoding. -/
def atTruncation (s : State) : State := if s.ctx = .frame then truncatedFrame s else truncatedLine s

/-- A byte sequence with `bs` stored at offset `o`, over what was there; missing bytes before `o` are 0. -/
def overlay (o : Nat) (bs xs : List Byte) : List Byte :=
  xs.take o ++ List.replicate (o - xs.length) 0 ++ bs ++ xs.drop (o + bs.length)

/-- A state whose next step fetches `bytes` in context `ctx`: the bytes at the cursor, a running decode session, and
for a line context the line in progress that R257 and R190 guarantee (W at least 1, a line left, nothing produced). -/
def placeAt (ctx : Context) (bytes : List Byte) (s : State) : State :=
  let s1 := { s with cfg := { s.cfg with dir := .decode }, runState := .run, ctx := ctx }
  if ctx = .frame then { s1 with inp := overlay s1.ip bytes s1.inp }
  else
    { s1 with
      d := overlay s1.cur bytes s1.d
      w := if s1.w = 0 then 64 else s1.w
      linesLeft := if s1.linesLeft = 0 then 1 else s1.linesLeft
      produced := 0
      hdrTlen := 0 }

/-- The word of an opcode-table row, placed where the next step fetches. -/
def placeTableWord (nbits w : Nat) (s : State) : State :=
  match tableBytes s.cfg nbits w with
  | none => s
  | some (ctx, bytes) => placeAt ctx bytes s

end Sys2Proof.Machine
end

