-- ==== Sys2Proof/Machine/Step.lean ====
section
/-! DEFINITION. One step of the session (R11), and placing a table word for the next step. -/

namespace Sys2Proof.Machine

open Sys2Proof

/-- One instruction of the decode direction, or what stands in its place (R250). -/
def decodeOne (s : State) : Host.Outcome State Fault Refusal :=
  match fetch s with
  | .ok i _ => exec i s
  | .endOfStream => .next (atEnd s)
  | .truncated => .next (atTruncation s)
  | .unknownType ty f _ => Flow.outcome (acceptUnknown ty f s)

/-- The decode direction: one instruction. "R192 `DecodeLine()`, first part: step" holds `ReadPad`, so the PADHDR of an
LHDR with padding is fetched and run in the step of its LHDR (R194). -/
def decodeStep (s : State) : Host.Outcome State Fault Refusal :=
  match decodeOne s with
  | .next t => if s.ctx = .lhdr ∧ t.ctx = .padhdr then decodeOne t else .next t
  | .fault f => .fault f
  | .refused r => .refused r

/-- One step. "a step exists only in RUN" (10_state.md section 5), and DIR selects which half of the rules is live
(R22, R292). -/
def step (s : State) : Host.Outcome State Fault Refusal :=
  match s.runState with
  | .halt => .fault .halted
  | .done => .fault .finished
  | .run =>
    match s.cfg.dir with
    | .decode => decodeStep s
    | .encode => Flow.outcome (encodeStep s)

/-- `s` with the instruction of a table word stored where `step` fetches its next instruction. -/
def State.withFetchWord (s : State) (nbits w : Nat) : State := placeTableWord nbits w s

end Sys2Proof.Machine
end

