-- ==== Sys2Proof/Safety.lean ====
section
/-! DEFINITION. The terms claims use: a legal state, a buffer filled as the byte put fills it, a frame that passes its
checks, and a finished run. -/

namespace Sys2Proof.Machine

open Sys2Proof

/-! ### Layouts -/

/-- What R13 asks of the payload layouts: `parse(serialise(x)) = x`; of a descriptor also with the compressed data after
it, and for the compressed lengths that its u32 holds (R257). -/
structure Layouts.Lawful (l : Layouts) : Prop where
  begin : ∀ code, Layouts.parseBegin l (Layouts.serialiseBegin l code) = some code
  params : ∀ r, Layouts.parseParams l (Layouts.serialiseParams l r) = some r
  page : ∀ f, Layouts.parsePage l (Layouts.serialisePage l f) = some f
  data : ∀ f body, f.compressedLen < 4294967296 →
    Layouts.parseData l (Layouts.serialiseData l f ++ body) = some (f, (Layouts.serialiseData l f).length)
  endPart : ∀ r, Layouts.parseEndPart l (Layouts.serialiseEndPart l r) = some r

/-- What R13 asks of the pad-header layout: `unpack(pack(p, r)) = (p, r)`. -/
def PadLayout.Lawful (l : PadLayout) : Prop := ∀ p r, l.unpack (l.pack p r) = (p, r)

/-- A payload is long enough for its block type's layout: `parse` answers (R262). END has no field. -/
def BlockType.parses (l : Layouts) : BlockType → List Byte → Bool
  | .begin, p => (Layouts.parseBegin l p).isSome
  | .end_, _ => true
  | .params, p => (Layouts.parseParams l p).isSome
  | .page, p => (Layouts.parsePage l p).isSome
  | .data, p => (Layouts.parseData l p).isSome
  | .endPart, p => (Layouts.parseEndPart l p).isSome

/-! ### Frames -/

/-- A frame that passes the three checks of R136. -/
def Frame.good (ty : Byte) (f : Frame) : Bool := Frame.magicOk f && Frame.typeInvOk ty f && Frame.checksumOk ty f

/-- The frame's block reaches its handler: it passes the checks, or the session is tolerant (R136, R137). -/
def Frame.dispatched (c : Cfg) (ty : Byte) (f : Frame) : Prop := c.strict = false ∨ Frame.good ty f = true

/-- A warning register after n more warnings (R31, R271). -/
def WarnReg.raisedBy (r : WarnReg) (n : Nat) : WarnReg := { bit := r.bit || decide (0 < n), count := r.count + n }

/-- The warning registers after one more check of R136. -/
def warnUnless (ok : Bool) (k : Warning) (ws : Warnings) : Warnings := if ok then ws else ws.raise k

/-- The warning registers after the three checks of R136, none ending the step. -/
def checkWarns (ty : Byte) (f : Frame) (ws : Warnings) : Warnings :=
  warnUnless (Frame.checksumOk ty f) .csum
    (warnUnless (Frame.typeInvOk ty f) .typeInv (warnUnless (Frame.magicOk f) .magic ws))

/-- `s` once a frame has been read and has passed to its handler. -/
def State.afterFrame (ty : Byte) (f : Frame) (s : State) : State :=
  { s with ip := s.ip + (7 + f.payload.length), nblk := s.nblk + 1, warns := checkWarns ty f s.warns }

/-! ### The dictionary table and the accumulation buffer -/

/-- T holding `bs` in entries 0 .. len(bs)-1 and nothing in the others (R197). -/
def tableCells (bs : List Byte) : Memory := (List.range bs.length).zip bs

/-- Entry i of T, for claims about entries that hold a value. -/
def State.tableByte (s : State) (i : Nat) : Byte := (s.tbl.read i).getD 0

/-- Every entry of T below TLEN holds a value (R197). -/
def State.tableLoaded (s : State) : Prop := ∀ i < s.tlen, (s.tbl.read i).isSome = true

/-- The bytes a TBL puts for its index bytes: per index byte the entries of bits 7:4 and 3:0, in the order
TBL_HIGH_FIRST names (R200, R206, R13). -/
def State.lookups (s : State) (xs : List Byte) : List Byte :=
  xs.flatMap fun x =>
    if s.cfg.tblHighFirst then [s.tableByte (x.toNat / 16), s.tableByte (x.toNat % 16)]
    else [s.tableByte (x.toNat % 16), s.tableByte (x.toNat / 16)]

/-- Every nibble of the index bytes names an entry below TLEN (R201). -/
def State.indexed (s : State) (xs : List Byte) : Prop := ∀ x ∈ xs, x.toNat / 16 < s.tlen ∧ x.toNat % 16 < s.tlen

/-- The bytes of ACC that hold a value are those the puts since the last zero of ACCPOS wrote, under the current MODEL
and W (R69). -/
def State.accFilled (s : State) : Prop :=
  (∀ c ∈ s.acc, c.1 < 2 * s.w) ∧
  ∀ a < 2 * s.w, ((s.acc.read a).isSome = true ↔ ∃ p < s.accPos, accAddr s.model s.w p = a)

/-- The byte put's precondition (R205), and a buffer filled so that no flush lacks a byte (R69). -/
structure State.PutReady (s : State) : Prop where
  wide : 0 < s.w
  pos : s.accPos < 2 * s.w
  filled : s.accFilled

/-- The flush unit that 2W logical bytes make: on M2 the even ones, then the odd ones; else as they are (R66, R67). -/
def flushUnitOf (m : Model) (w : Nat) (bs : List Byte) : List Byte :=
  if m = .m2 then
    (List.range w).map (fun i => bs.getD (2 * i) 0) ++ (List.range w).map (fun i => bs.getD (2 * i + 1) 0)
  else bs

/-- `s` after an opcode's puts left ACC, ACCPOS and the new flush units as given, with `cur` and PRODUCED moved. -/
def State.opDone (s : State) (m : Memory) (p : Nat) (u : List FlushUnit) (cur produced : Nat) : State :=
  { s.withPut m p (s.sink ++ u) with cur := cur, produced := produced }

/-! ### Legal states -/

/-- What holds of a state of any run: every register within its width (R10 and 10_state.md sections 2 and 5), memories
in canonical form and inside their address range (R36, R39), and what position in the pseudocode implies. -/
structure State.Legal (s : State) : Prop where
  accWf : s.acc.wf = true
  tblWf : s.tbl.wf = true
  accRange : ∀ c ∈ s.acc, c.1 < 2 * s.w
  tblRange : ∀ c ∈ s.tbl, c.1 < s.tlen
  tlen : s.tlen ≤ 16
  accPos : s.accPos < 2 * s.w ∨ s.accPos = 0
  linesLeft : s.linesLeft < 65536
  padRow : ∀ r, s.padRow = some r → r < 16384
  w : s.w ≤ 8192
  height : s.height < 65536
  blkNum : s.blkNum ≤ 8
  inBlock : s.ctx ≠ .frame → 0 < s.w ∧ 0 < s.linesLeft
  inLine : s.ctx = .op → s.produced < s.leff ∧ s.tableLoaded
  faults : s.nblkFatal + (if s.ctx = .frame then 0 else 1) ≤ s.nblk
  encoder : s.cfg.dir = .encode → s.ctx = .frame ∧ s.acc = [] ∧ s.accPos = 0
  exit : s.exit = .nonzero ↔ s.runState = .halt
  record : s.fcode = (match s.finfo with | none => 0 | some t => t.code)
  severity : s.runState = .halt ↔ ∃ t, s.finfo = some t ∧ t.runFatal = true

/-! ### Runs -/

/-- R47's premise of a claim about a run: the session is in the reset state of R45. -/
def State.Started (s : State) : Prop := ∃ (c : Cfg) (input : List Byte) (job : Job), s = State.resetFor c input job

/-- "nothing in flight" (R47): no Data block is being decoded, no byte waits for a flush, and no line or group is being
collected. State holds no other pending work, and `step` is the only transition. -/
def State.Idle (s : State) : Prop :=
  s.ctx = .frame ∧ s.linesLeft = 0 ∧ s.accPos = 0 ∧ s.acc = [] ∧ s.lineBuf = [] ∧ s.encBuf = []

/-- A run is over: no step has a next state. -/
def State.Stopped (s : State) : Prop := ∀ t, step s ≠ .next t

/-- After at most finitely many steps the machine answers no next state: every run from `s` ends. -/
def Terminates (s : State) : Prop := ∃ k, ∀ t, Host.Core.run Sys2Proof.core k s ≠ .next t

/-- A decode run that ended well: DONE, no block skipped, no warning (R324). -/
def State.Clean (s : State) : Prop :=
  s.runState = .done ∧ s.nblkFatal = 0 ∧ s.warns = Warnings.reset

/-- The registers and memories marked E in 10_state.md, and the encode cursors of R30. -/
def State.encodeSide (s : State) :
    (Byte × List Byte × Nat × Bool × List Byte × List Byte) × EncPhase × Nat × Channel × Nat × Nat :=
  ((s.seq, s.out, s.blkNum, s.upgraded, s.lineBuf, s.encBuf), s.phase, s.encPage, s.encChan, s.encLine, s.encByte)

/-- The registers and memories marked D in 10_state.md. -/
def State.decodeSide (s : State) :
    (Nat × Nat × Nat × Nat × Nat × Option Nat × Chan × Nat × Nat × Nat × Nat × Nat) ×
      (Warnings × Context × List Byte × Nat × Nat × Memory × Memory × List FlushUnit) :=
  ((s.accPos, s.tlen, s.produced, s.linesLeft, s.lstart, s.padRow, s.chan, s.fblk, s.nblk, s.nblkFatal, s.ip, s.cur),
   (s.warns, s.ctx, s.d, s.padLen, s.hdrTlen, s.tbl, s.acc, s.sink))

end Sys2Proof.Machine
end

