-- ==== Sys2Proof/Certificates/Slice0/Obligations.lean ====
section
/-! DEFINITION. The statements for the provers. Each docstring names the rule of spec/ it formalises. -/

open Sys2Proof Sys2Proof.Machine

/-! ### Encodings and the step -/

/-- Decode and encode agree, for every instruction and every configuration whose pad-header layout obeys R13; a field map
that uses each of the 16 bits once does. -/
def Obligations.DecodeEncodeRoundTrip : Prop :=
  (∀ (padBits rowBits : List Nat), (PadLayout.bits padBits rowBits).wf = true →
    PadLayout.Lawful (.bits padBits rowBits)) ∧
  ∀ (c : Cfg) (i : Instr) (rest : List Byte), PadLayout.Lawful c.padLayout → i.wf c = true →
    decode c i.context (encode c i ++ rest) = .ok i rest

/-- The decoder accepts nothing but encodings, each in its context: no bit of a word is dropped. -/
def Obligations.DecodeAcceptsOnlyEncodings : Prop :=
  ∀ (c : Cfg) (ctx : Context) (bytes : List Byte) (i : Instr) (rest : List Byte), PadLayout.Lawful c.padLayout →
    decode c ctx bytes = .ok i rest → i.wf c = true ∧ i.context = ctx ∧ encode c i ++ rest = bytes

/-- R101 and R107: in context OP every byte is an opcode, split by its ranges 0x00-0x3F, 0x40-0x7F, 0x80-0xBF,
0xC0-0xFF; in context LHDR every byte is a header; in context FRAME a frame is decoded for six type bytes only. -/
def Obligations.EveryOpcodeByteDecodes : Prop :=
  (∀ (c : Cfg) (op : Byte) (rest : List Byte), decode c .op (op :: rest) =
    .ok (if op.toNat < 64 then .raw (BitVec.ofNat 6 op.toNat)
      else if op.toNat < 128 then .tbl (BitVec.ofNat 6 (op.toNat - 64))
      else if op.toNat < 192 then .rep (BitVec.ofNat 6 (op.toNat - 128))
      else .lrep (BitVec.ofNat 6 (op.toNat - 192))) rest) ∧
  (∀ (c : Cfg) (f : Byte) (rest : List Byte), ∃ present padp tlen,
    decode c .lhdr (f :: rest) = .ok (.lhdr present padp tlen) rest) ∧
  (∀ (c : Cfg) (bytes : List Byte) (i : Instr) (rest : List Byte), decode c .frame bytes = .ok i rest →
    ∃ ty, bytes[1]? = some ty ∧ ty ∈ ([0x40, 0x41, 0x50, 0x51, 0x52, 0x55] : List Byte))

/-- Words written out from the encodings of R91, R96, R98 and R102 to R105 decode to their instructions. -/
def Obligations.SpecWordsDecode : Prop :=
  decode Cfg.decided .frame [0x1B, 0x40, 0x00, 0x01, 0x00, 0xBF, 0x02, 0x1D] =
    .ok (.blkBegin { magic := 0x1B, seq := 0, typeInv := 0xBF, payload := [0x02], checksum := 0x1D }) [] ∧
  decode Cfg.decided .lhdr [0xC2] = .ok (.lhdr true true 2) [] ∧
  decode Cfg.decided .padhdr [0x0C, 0x80] = .ok (.padhdr 2 12) [] ∧
  decode Cfg.decided .op [0x03] = .ok (.raw 3) [] ∧
  decode Cfg.decided .op [0x41] = .ok (.tbl 1) [] ∧
  decode Cfg.decided .op [0x84] = .ok (.rep 4) [] ∧
  decode Cfg.decided .op [0xE0] = .ok (.lrep 32) []

/-- R11, R250: when the bytes at the cursor decode to an instruction, the step is that instruction's meaning, at that very
state: the meaning itself moves the cursors past the instruction's bytes. The second clause is the model's choice
(assumption log 4, DESIGN CHOICE, unsafe): LHDR and PADHDR are two instructions with a meaning each, so the step of an LHDR
with padding, one step by R192 and R194, is two calls of exec with a state t between them, whose context is PADHDR and
whose hdrTlen is a register of the model's own. It says that exec answers a next state for an LHDR with padding only. -/
def Obligations.StepRunsTheDecodedInstruction : Prop :=
  ∀ (s : State) (i : Instr) (rest : List Byte), s.runState = .run → s.cfg.dir = .decode → i.wf s.cfg = true →
    decode s.cfg s.ctx s.window = .ok i rest →
    ((∀ present tlen, i ≠ .lhdr present true tlen) → step s = exec i s) ∧
    (∀ present tlen, i = .lhdr present true tlen →
      ∃ t, exec i s = .next t ∧ t.ctx = .padhdr ∧ t.window = rest ∧ t.hdrTlen = tlen.toNat ∧
        ∀ j rest', decode s.cfg .padhdr rest = .ok j rest' → step s = exec j t)

/-! ### The framer -/

/-- R131 to R133, R282, R13: the frame `write_block` emits, byte by byte, and the counter it leaves; the frame carries SEQ,
or with SEQ_PRE = false SEQ + 1. A payload over 65535 bytes raises F_ENC_PAYLOAD, emits nothing and leaves SEQ: with
SEQ_PRE = false that is the model's choice (assumption log 22). -/
def Obligations.WriteBlockEmitsTheFrame : Prop :=
  (∀ (s : State) (ty q : Byte) (payload : List Byte), payload.length ≤ 65535 →
    q = (if s.cfg.seqPre then s.seq else s.seq + 1) →
    writeBlock ty payload s =
      .ok () { s with
        out := s.out ++
          ([0x1B, ty, q, BitVec.ofNat 8 (payload.length % 256), BitVec.ofNat 8 (payload.length / 256), ty ^^^ 0xFF]
            ++ payload
            ++ [sum8 ([0x1B, ty, q, BitVec.ofNat 8 (payload.length % 256),
                BitVec.ofNat 8 (payload.length / 256), ty ^^^ 0xFF] ++ payload)])
        seq := s.seq + 1 }) ∧
  (∀ (s : State) (ty : Byte) (payload : List Byte), 65535 < payload.length → s.runState = .run →
    ∃ t, writeBlock ty payload s = .raised t ∧ t.out = s.out ∧ t.seq = s.seq ∧ t.runState = .halt ∧
      t.exit = .nonzero ∧ t.fcode = 0x22 ∧ t.finfo = some (.encPayload payload.length))

/-- R141: the trailing byte of an emitted frame is the checksum of the bytes before it, and `read_block` on the frame
reads it back whole and sets no warning. -/
def Obligations.EmittedFrameReadsBack : Prop :=
  ∀ (t : BlockType) (seq : Byte) (payload rest : List Byte) (s : State), payload.length ≤ 65535 →
    (frameBytes t.code (goodFrame t.code seq payload)).getLast? =
      some (sum8 (frameBytes t.code (goodFrame t.code seq payload)).dropLast) ∧
    decodeFrame (frameBytes t.code (goodFrame t.code seq payload) ++ rest) =
      .ok (t.instr (goodFrame t.code seq payload)) rest ∧
    acceptFrame t.code (goodFrame t.code seq payload) s =
      .ok () { s with ip := s.ip + (7 + payload.length), nblk := s.nblk + 1 }

/-- R136: tolerant validation sets W_MAGIC, W_TYPEINV and W_CSUM, each exactly when its check fails, ends nothing, and
leaves every other warning. -/
def Obligations.TolerantChecksOnlyWarn : Prop :=
  ∀ (s : State) (ty : Byte) (f : Frame), s.cfg.strict = false →
    ∃ ws, acceptFrame ty f s = .ok () { s with ip := s.ip + (7 + f.payload.length), nblk := s.nblk + 1, warns := ws } ∧
      ws.magic = (if f.magic = 0x1B then s.warns.magic else { bit := true, count := s.warns.magic.count + 1 }) ∧
      ws.typeInv =
        (if f.typeInv = ty ^^^ 0xFF then s.warns.typeInv else { bit := true, count := s.warns.typeInv.count + 1 }) ∧
      ws.csum = (if f.checksum = sum8 (frameHeader ty f ++ f.payload) then s.warns.csum
        else { bit := true, count := s.warns.csum.count + 1 }) ∧
      ws.lineFlag = s.warns.lineFlag ∧ ws.pad = s.warns.pad ∧ ws.model = s.warns.model ∧
      ws.trunc = s.warns.trunc ∧ ws.trailing = s.warns.trailing ∧ ws.residual = s.warns.residual

/-- R137, R281: with STRICT = 1 the first failing check sets its warning and halts the run with F_STRICT; the block
is not dispatched, whatever its type. -/
def Obligations.StrictCheckHaltsTheRun : Prop :=
  ∀ (s : State) (b : BlockType) (f : Frame), s.cfg.strict = true → s.runState = .run → Frame.good b.code f = false →
    ∃ (k : FrameCheck) (t : State), exec (b.instr f) s = .next t ∧
      (k = .magic ↔ f.magic ≠ 0x1B) ∧
      (k = .typeInv ↔ f.magic = 0x1B ∧ f.typeInv ≠ b.code ^^^ 0xFF) ∧
      t.warns = s.warns.raise k.warning ∧ t.fcode = 0x25 ∧ t.finfo = some (.strict k) ∧
      t.runState = .halt ∧ t.exit = .nonzero ∧ t.ip = s.ip + (7 + f.payload.length) ∧ t.nblk = s.nblk + 1 ∧
      t.nblkFatal = s.nblkFatal ∧ t.model = s.model ∧ t.w = s.w ∧ t.height = s.height ∧
      t.colorMode = s.colorMode ∧ t.chan = s.chan ∧ t.acc = s.acc ∧ t.accPos = s.accPos ∧ t.sink = s.sink ∧
      t.d = s.d ∧ t.ctx = s.ctx

/-- R138, R273, R289: a whole frame whose type byte is none of the six is consumed and validated, and halts the run: with
F_UNKNOWN_TYPE when the checks let it through, and with F_STRICT, first, when STRICT = 1 and a check fails. The test is on
the type byte whatever the frame's other bytes are. -/
def Obligations.UnknownTypeHaltsTheRun : Prop :=
  ∀ (s : State) (ty : Byte) (f : Frame) (rest : List Byte), s.runState = .run → s.cfg.dir = .decode →
    s.ctx = .frame → f.wf = true → s.window = frameBytes ty f ++ rest →
    ty ∉ ([0x40, 0x41, 0x50, 0x51, 0x52, 0x55] : List Byte) →
    ∃ t, step s = .next t ∧ t.runState = .halt ∧ t.exit = .nonzero ∧
      t.fpos = .decode (s.ip + (7 + f.payload.length)) none ∧ t.fblk = s.nblk ∧
      t.ip = s.ip + (7 + f.payload.length) ∧ t.nblk = s.nblk + 1 ∧
      t.nblkFatal = s.nblkFatal ∧ t.model = s.model ∧ t.acc = s.acc ∧ t.accPos = s.accPos ∧ t.sink = s.sink ∧
      (Frame.dispatched s.cfg ty f →
        t.fcode = 0x20 ∧ t.finfo = some (.unknownType ty) ∧ t.warns = checkWarns ty f s.warns) ∧
      (s.cfg.strict = true → Frame.good ty f = false →
        ∃ k : FrameCheck, (k = .magic ↔ f.magic ≠ 0x1B) ∧ (k = .typeInv ↔ f.magic = 0x1B ∧ f.typeInv ≠ ty ^^^ 0xFF) ∧
          t.fcode = 0x25 ∧ t.finfo = some (.strict k) ∧ t.warns = s.warns.raise k.warning)

/-- R134, R135, R251, R13: with no byte left the session is DONE with EXIT as it was; with fewer bytes than a whole frame
W_TRUNC is set first and the partial frame discarded. A residue in ACC sets W_RESIDUAL, and is flushed, with 0x00 for the
bytes not written, exactly when RESIDUAL_FLUSH is set. -/
def Obligations.EndOfStreamIsDone : Prop :=
  ∀ (s : State) (units : List FlushUnit), s.runState = .run → s.cfg.dir = .decode → s.ctx = .frame →
    units = (if s.accPos ≠ 0 ∧ s.cfg.residualFlush = true then
      [{ chan := s.chan, bytes := (List.range (2 * s.w)).map fun a => (s.acc.read a).getD 0 }] else []) →
    (s.inp.length ≤ s.ip → step s = .next { s with
      runState := .done
      warns := if s.accPos = 0 then s.warns else s.warns.raise .residual
      sink := s.sink ++ units }) ∧
    (s.ip < s.inp.length →
      (s.inp.length - s.ip < 6 ∨
        s.inp.length - s.ip < 7 + leVal (s.inp.getD (s.ip + 3) 0) (s.inp.getD (s.ip + 4) 0)) →
      step s = .next { s with
        runState := .done
        ip := s.inp.length
        warns := if s.accPos = 0 then s.warns.raise .trunc else (s.warns.raise .trunc).raise .residual
        sink := s.sink ++ units })

/-! ### The block handlers -/

/-- BEGIN (R252): MODEL becomes the model whose code the payload carries, or UNKNOWN with W_MODEL; nothing else but the
frame's own bookkeeping changes. Which byte a field layout takes is the last clause (R254). -/
def Obligations.BeginSetsTheModel : Prop :=
  (∀ (s : State) (f : Frame) (b : Byte), Frame.dispatched s.cfg 0x40 f → s.cfg.codesInjective = true →
    Layouts.parseBegin s.cfg.layouts f.payload = some b →
    (∀ m, modelByte s.cfg.modelCode m = some b → exec (.blkBegin f) s = .next { s.afterFrame 0x40 f with model := m }) ∧
    ((∀ m, modelByte s.cfg.modelCode m ≠ some b) →
      exec (.blkBegin f) s = .next { s.afterFrame 0x40 f with
        model := .unknown, warns := (checkWarns 0x40 f s.warns).raise .model })) ∧
  ∀ (l : Layouts) (x : BeginLayout) (p : List Byte), l.begin = .fields x →
    Layouts.parseBegin l p = if x.len ≤ p.length then some (p.getD x.model 0) else none

/-- PARAMS, ENDPART (with a payload as long as its layout) and END (with any payload) change nothing but the frame's
own bookkeeping (R253, R258, R259). -/
def Obligations.ParamsEndPartEndChangeNothing : Prop :=
  (∀ (s : State) (f : Frame),
    (Frame.dispatched s.cfg 0x50 f → (Layouts.parseParams s.cfg.layouts f.payload).isSome = true →
      exec (.blkParams f) s = .next (s.afterFrame 0x50 f)) ∧
    (Frame.dispatched s.cfg 0x55 f → (Layouts.parseEndPart s.cfg.layouts f.payload).isSome = true →
      exec (.blkEndPart f) s = .next (s.afterFrame 0x55 f)) ∧
    (Frame.dispatched s.cfg 0x41 f → exec (.blkEnd f) s = .next (s.afterFrame 0x41 f))) ∧
  (∀ (l : Layouts) (x : ParamsLayout) (p : List Byte), l.params = .fields x →
    ((Layouts.parseParams l p).isSome = true ↔ x.len ≤ p.length)) ∧
  ∀ (l : Layouts) (x : EndPartLayout) (p : List Byte), l.endPart = .fields x →
    ((Layouts.parseEndPart l p).isSome = true ↔ x.len ≤ p.length)

/-- PAGE (R256): W, HEIGHT and COLORMODE from the payload, ACC empty and ACCPOS 0. A residue sets W_RESIDUAL, and is
flushed padded with zeros, in the old geometry, exactly when RESIDUAL_FLUSH is set. Which bytes a field layout takes is
the last clause. -/
def Obligations.PageSetsTheGeometry : Prop :=
  (∀ (s : State) (f : Frame) (g : PageFields), Frame.dispatched s.cfg 0x51 f →
    Layouts.parsePage s.cfg.layouts f.payload = some g →
    exec (.blkPage f) s = .next { s.afterFrame 0x51 f with
      w := (g.pixelWidth.toNat + 7) / 8
      height := g.height.toNat
      colorMode := if g.colorMode = s.cfg.colorCode.color then .color else .mono
      acc := []
      accPos := 0
      warns := if s.accPos = 0 then checkWarns 0x51 f s.warns else (checkWarns 0x51 f s.warns).raise .residual
      sink := if s.accPos ≠ 0 ∧ s.cfg.residualFlush = true then
          s.sink ++ [{ chan := s.chan, bytes := (List.range (2 * s.w)).map fun a => (s.acc.read a).getD 0 }]
        else s.sink }) ∧
  ∀ (l : Layouts) (x : PageLayout) (p : List Byte), l.page = .fields x → x.len ≤ p.length →
    ∃ g, Layouts.parsePage l p = some g ∧
      g.pixelWidth.toNat = leVal (p.getD x.pixelWidth 0) (p.getD (x.pixelWidth + 1) 0) ∧
      g.height.toNat = leVal (p.getD x.height 0) (p.getD (x.height + 1) 0) ∧ g.colorMode = p.getD x.colorMode 0

/-- DATA with DATA_PLACEMENT = INSIDE (R257, R190): CHAN, D, cur and LINES_LEFT are set and the first line is next;
with no line W_TRAILING reports the bytes of D. Payload bytes past the compressed data set W_TRAILING. Which bytes a field
layout takes is the last clause. -/
def Obligations.DataInsideStartsItsLines : Prop :=
  (∀ (s : State) (f : Frame) (g : DataFields) (len : Nat) (body : List Byte), Frame.dispatched s.cfg 0x52 f →
    s.cfg.placement = .inside → s.w ≠ 0 → Layouts.parseData s.cfg.layouts f.payload = some (g, len) →
    body = f.payload.drop len → g.compressedLen ≤ body.length →
    ∃ ws, exec (.blkData f) s = .next { s.afterFrame 0x52 f with
        chan := chanOf s.cfg.channelCode g.channel
        d := body.take g.compressedLen
        cur := 0
        linesLeft := g.lineCount.toNat
        ctx := if g.lineCount = 0 then .frame else .lhdr
        warns := ws } ∧
      ws.trailing = s.warns.trailing.raisedBy
        ((if g.compressedLen < body.length then 1 else 0) +
          (if g.lineCount = 0 ∧ 0 < g.compressedLen then 1 else 0)) ∧
      ∀ k, k ≠ .trailing → ws.get k = (checkWarns 0x52 f s.warns).get k) ∧
  ∀ (l : Layouts) (x : DataLayout) (p : List Byte), l.data = .fields x → x.len ≤ p.length →
    ∃ g, Layouts.parseData l p = some (g, x.len) ∧ g.channel = p.getD x.channel 0 ∧
      g.compressedLen = (p.getD x.compressedLen 0).toNat + 256 * (p.getD (x.compressedLen + 1) 0).toNat +
        65536 * (p.getD (x.compressedLen + 2) 0).toNat + 16777216 * (p.getD (x.compressedLen + 3) 0).toNat ∧
      g.lineCount.toNat = leVal (p.getD x.lineCount 0) (p.getD (x.lineCount + 1) 0)

/-- DATA with DATA_PLACEMENT = TRAILING (R257, R190): D is the bytes of IN after the frame, as many as the descriptor says
and IN has (with W_TRUNC when it has fewer), and `ip` moves past them. With no line W_TRAILING reports the bytes of D. -/
def Obligations.DataTrailingStartsItsLines : Prop :=
  ∀ (s : State) (f : Frame) (g : DataFields) (len avail : Nat) (ws : Warnings), Frame.dispatched s.cfg 0x52 f →
    s.cfg.placement = .trailing → s.w ≠ 0 → Layouts.parseData s.cfg.layouts f.payload = some (g, len) →
    avail = s.inp.length - (s.ip + (7 + f.payload.length)) →
    ws = (if avail < g.compressedLen then (checkWarns 0x52 f s.warns).raise .trunc else checkWarns 0x52 f s.warns) →
    exec (.blkData f) s = .next { s.afterFrame 0x52 f with
      chan := chanOf s.cfg.channelCode g.channel
      d := (s.inp.drop (s.ip + (7 + f.payload.length))).take g.compressedLen
      ip := s.ip + (7 + f.payload.length) + min g.compressedLen avail
      cur := 0
      linesLeft := g.lineCount.toNat
      ctx := if g.lineCount = 0 then .frame else .lhdr
      warns := if g.lineCount = 0 ∧ 0 < min g.compressedLen avail then ws.raise .trailing else ws }

/-- R262, R280, R257: a payload shorter than its layout raises the block-fatal F_DESC of its type; the block is skipped.
The reference layouts have 1, 0, 2, 9, 8 and 1 bytes. A Data descriptor under INSIDE whose compressed_len exceeds the rest
of the payload raises it too, with CHAN already set (assumption log 19). That F_DESC of a Data block records `ip` alone is
the model's reading (assumption log 6). -/
def Obligations.ShortPayloadIsSkipped : Prop :=
  (∀ (s : State) (b : BlockType) (f : Frame), Frame.dispatched s.cfg b.code f → s.runState = .run →
    s.cfg.dir = .decode → s.ctx = .frame → BlockType.parses s.cfg.layouts b f.payload = false →
    exec (b.instr f) s = .next { s.afterFrame b.code f with
      fcode := 0x15
      finfo := some (.desc b.code)
      fpos := .decode (s.ip + (7 + f.payload.length)) none
      fblk := s.nblk
      nblkFatal := s.nblkFatal + 1 }) ∧
  (∀ (b : BlockType) (p : List Byte), BlockType.parses Layouts.reference b p =
    decide ((match b with | .begin => 1 | .end_ => 0 | .params => 2 | .page => 9 | .data => 8 | .endPart => 1)
      ≤ p.length)) ∧
  ∀ (s : State) (f : Frame) (g : DataFields) (len : Nat), Frame.dispatched s.cfg 0x52 f → s.runState = .run →
    s.cfg.dir = .decode → s.ctx = .frame → s.cfg.placement = .inside →
    Layouts.parseData s.cfg.layouts f.payload = some (g, len) → (f.payload.drop len).length < g.compressedLen →
    exec (.blkData f) s = .next { s.afterFrame 0x52 f with
      chan := chanOf s.cfg.channelCode g.channel
      fcode := 0x15
      finfo := some (.desc 0x52)
      fpos := .decode (s.ip + (7 + f.payload.length)) none
      fblk := s.nblk
      nblkFatal := s.nblkFatal + 1 }

/-- R257, R279, R289: a Data block met while W = 0 raises the block-fatal F_NO_GEOMETRY, after CHAN is set and the
descriptor checked, with its W_TRAILING (INSIDE), or its W_TRUNC and `ip` past the data (TRAILING). That D keeps what it
held is the model's choice (assumption log 8), and that the fault records `ip` alone is its reading (assumption log 6). -/
def Obligations.DataWithoutGeometryIsSkipped : Prop :=
  ∀ (s : State) (f : Frame) (g : DataFields) (len : Nat), Frame.dispatched s.cfg 0x52 f → s.runState = .run →
    s.cfg.dir = .decode → s.ctx = .frame → s.w = 0 → Layouts.parseData s.cfg.layouts f.payload = some (g, len) →
    (s.cfg.placement = .inside → g.compressedLen ≤ (f.payload.drop len).length →
      exec (.blkData f) s = .next { s.afterFrame 0x52 f with
        chan := chanOf s.cfg.channelCode g.channel
        warns := if g.compressedLen < (f.payload.drop len).length then (checkWarns 0x52 f s.warns).raise .trailing
          else checkWarns 0x52 f s.warns
        fcode := 0x14
        finfo := some .noGeometry
        fpos := .decode (s.ip + (7 + f.payload.length)) none
        fblk := s.nblk
        nblkFatal := s.nblkFatal + 1 }) ∧
    (∀ avail past, s.cfg.placement = .trailing → avail = s.inp.length - (s.ip + (7 + f.payload.length)) →
      past = s.ip + (7 + f.payload.length) + min g.compressedLen avail →
      exec (.blkData f) s = .next { s.afterFrame 0x52 f with
        chan := chanOf s.cfg.channelCode g.channel
        ip := past
        warns := if avail < g.compressedLen then (checkWarns 0x52 f s.warns).raise .trunc
          else checkWarns 0x52 f s.warns
        fcode := 0x14
        finfo := some .noGeometry
        fpos := .decode past none
        fblk := s.nblk
        nblkFatal := s.nblkFatal + 1 })

/-- R257: CHAN is the channel whose code the descriptor carries, or the raw byte when no channel has it. -/
def Obligations.ChannelCodeOrRawByte : Prop :=
  ∀ (c : Cfg), c.codesInjective = true →
    (∀ ch, chanOf c.channelCode (channelByte c.channelCode ch) = .known ch) ∧
    ∀ b, (∀ ch, channelByte c.channelCode ch ≠ b) → chanOf c.channelCode b = .raw b

/-! ### The line header -/

/-- LHDR (R192, R193, R195, R197, R198). Without padding the table is loaded, entries from TLEN up hold nothing, PRODUCED
is 0 and the first opcode is next. With PADP = 1, on every model, the pad header is next, in the same step
(StepRunsTheDecodedInstruction), before the table length is tested: the state between the two instructions is the model's
own (assumption log 4). PRESENT = 0 only warns. -/
def Obligations.LhdrStartsTheLine : Prop :=
  (∀ (s : State) (present : Bool) (tlen : BitVec 7), tlen.toNat ≤ 16 →
    s.cur + 1 + tlen.toNat ≤ s.d.length → 0 < s.leff →
    exec (.lhdr present false tlen) s = .next { s with
      lstart := s.cur
      padRow := none
      padLen := 0
      cur := s.cur + 1 + tlen.toNat
      warns := if present then s.warns else s.warns.raise .lineFlag
      tlen := tlen.toNat
      tbl := tableCells ((s.d.drop (s.cur + 1)).take tlen.toNat)
      produced := 0
      ctx := .op }) ∧
  (∀ (s : State) (present : Bool) (tlen : BitVec 7),
    exec (.lhdr present true tlen) s = .next { s with
      lstart := s.cur
      padRow := none
      padLen := 0
      cur := s.cur + 1
      warns := if present then s.warns else s.warns.raise .lineFlag
      hdrTlen := tlen.toNat
      ctx := .padhdr })

/-- PADHDR (R194, R192): PADROW is the declared row length, W_PAD is set once for each filler byte that is not 0xFF, and
the line goes on with its table and its opcodes. -/
def Obligations.PadHeaderReadsItsFiller : Prop :=
  ∀ (s : State) (p : BitVec 2) (r : BitVec 14), s.hdrTlen ≤ 16 →
    s.cur + 2 + p.toNat + s.hdrTlen ≤ s.d.length → 0 < s.leff →
    exec (.padhdr p r) s = .next { s with
      padRow := some r.toNat
      padLen := p.toNat
      cur := s.cur + 2 + p.toNat + s.hdrTlen
      warns := (fun ws => Warnings.raise ws .pad)^[(((s.d.drop (s.cur + 2)).take p.toNat).filter (· ≠ 0xFF)).length]
        s.warns
      tlen := s.hdrTlen
      tbl := tableCells ((s.d.drop (s.cur + 2 + p.toNat)).take s.hdrTlen)
      produced := 0
      ctx := .op }

/-- R196, R274: a table length above 16 raises the block-fatal F_TABLE_LEN before any table byte is read and before TLEN
is written; with padding, after the pad header and its filler, with their W_PAD (R192, R194). -/
def Obligations.TableLengthAboveSixteenEndsTheBlock : Prop :=
  (∀ (s : State) (present : Bool) (tlen : BitVec 7), 16 < tlen.toNat → s.runState = .run → s.cfg.dir = .decode →
    s.ctx = .lhdr →
    exec (.lhdr present false tlen) s = .next { s with
      lstart := s.cur
      padRow := none
      padLen := 0
      cur := s.cur + 1
      warns := if present then s.warns else s.warns.raise .lineFlag
      fcode := 0x10
      finfo := some (.tableLen tlen.toNat)
      fpos := .decode s.ip (some (s.cur + 1))
      fblk := s.nblk - 1
      nblkFatal := s.nblkFatal + 1
      ctx := .frame }) ∧
  (∀ (s : State) (p : BitVec 2) (r : BitVec 14), 16 < s.hdrTlen → s.runState = .run → s.cfg.dir = .decode →
    s.ctx = .padhdr → (p = 0 ∨ s.cur + 2 + p.toNat ≤ s.d.length) →
    exec (.padhdr p r) s = .next { s with
      padRow := some r.toNat
      padLen := p.toNat
      cur := s.cur + 2 + p.toNat
      warns := (fun ws => Warnings.raise ws .pad)^[(((s.d.drop (s.cur + 2)).take p.toNat).filter (· ≠ 0xFF)).length]
        s.warns
      fcode := 0x10
      finfo := some (.tableLen s.hdrTlen)
      fpos := .decode s.ip (some (s.cur + 2 + p.toNat))
      fblk := s.nblk - 1
      nblkFatal := s.nblkFatal + 1
      ctx := .frame })

/-! ### The opcodes -/

/-- RAW (R199, R198, R204): the `fld + 1` bytes after the opcode are put in order, `cur` and PRODUCED move, and the next
opcode, the end of the line or F_LINE_LEN follows. Nothing but ACC, ACCPOS and SINK is written by the puts. -/
def Obligations.RawPutsItsLiterals : Prop :=
  ∀ (s : State) (fld : BitVec 6) (n : Nat), s.PutReady → n = fld.toNat + 1 → s.cur + 1 + n ≤ s.d.length →
    ∃ m p u, putAll ((s.d.drop (s.cur + 1)).take n) s = .ok () (s.withPut m p (s.sink ++ u)) ∧
      (s.produced + n < s.leff → exec (.raw fld) s =
        .next { s.opDone m p u (s.cur + 1 + n) (s.produced + n) with ctx := .op }) ∧
      (s.produced + n = s.leff → ∃ t, endLine (s.opDone m p u (s.cur + 1 + n) (s.produced + n)) = .ok () t ∧
        exec (.raw fld) s = .next t) ∧
      (s.leff < s.produced + n → exec (.raw fld) s =
        .next ((s.opDone m p u (s.cur + 1 + n) (s.produced + n)).raise (.lineLen (s.produced + n) s.leff)))

/-- TBL (R200, R206): each index byte puts the table entry of bits 7:4 and then that of bits 3:0 (the other way round
when TBL_HIGH_FIRST is false), for `fld + TBL_BIAS` index bytes that index loaded entries. -/
def Obligations.TblPutsItsLookups : Prop :=
  ∀ (s : State) (fld : BitVec 6) (n : Nat) (xs : List Byte), s.PutReady → s.tableLoaded →
    n = fld.toNat + s.cfg.tblBias.val → s.cur + 1 + n ≤ s.d.length → xs = (s.d.drop (s.cur + 1)).take n →
    s.indexed xs →
    ∃ m p u, putAll (s.lookups xs) s = .ok () (s.withPut m p (s.sink ++ u)) ∧
      (s.produced + 2 * n < s.leff → exec (.tbl fld) s =
        .next { s.opDone m p u (s.cur + 1 + n) (s.produced + 2 * n) with ctx := .op }) ∧
      (s.produced + 2 * n = s.leff → ∃ t, endLine (s.opDone m p u (s.cur + 1 + n) (s.produced + 2 * n)) = .ok () t ∧
        exec (.tbl fld) s = .next t) ∧
      (s.leff < s.produced + 2 * n → exec (.tbl fld) s =
        .next ((s.opDone m p u (s.cur + 1 + n) (s.produced + 2 * n)).raise
          (.lineLen (s.produced + 2 * n) s.leff)))

/-- REP (R202) and LREP (R203): the byte after the opcode is put `fld`, respectively `64 * fld`, times; with field 0 the
value byte is consumed and nothing is put. -/
def Obligations.RepeatsPutTheirByte : Prop :=
  ∀ (s : State) (fld : BitVec 6) (v : Byte) (i : Instr) (n : Nat), s.PutReady → s.d[s.cur + 1]? = some v →
    (i = .rep fld ∧ n = fld.toNat ∨ i = .lrep fld ∧ n = 64 * fld.toNat) →
    ∃ m p u, putAll (List.replicate n v) s = .ok () (s.withPut m p (s.sink ++ u)) ∧
      (s.produced + n < s.leff → exec i s = .next { s.opDone m p u (s.cur + 2) (s.produced + n) with ctx := .op }) ∧
      (s.produced + n = s.leff → ∃ t, endLine (s.opDone m p u (s.cur + 2) (s.produced + n)) = .ok () t ∧
        exec i s = .next t) ∧
      (s.leff < s.produced + n → exec i s =
        .next ((s.opDone m p u (s.cur + 2) (s.produced + n)).raise (.lineLen (s.produced + n) s.leff)))

/-- R204, R190, R13: a line that produced exactly L_eff bytes ends; W_PAD reports a row length other than the bytes used,
all of them (ROWLEN_MODE = TOTAL) or those without pad header and filler (UNPADDED); LINES_LEFT counts down, and after the
last line W_TRAILING reports bytes left in D and the next frame is read. A line that produced another number raises
F_LINE_LEN, and nothing else happens to it. -/
def Obligations.LineEndCountsDown : Prop :=
  (∀ (s : State) (used : Nat), s.produced = s.leff →
    used = (if s.cfg.rowLenMode = .total then s.cur - s.lstart else s.cur - s.lstart - 2 - s.padLen) →
    ∃ ws, endLine s = .ok () { s with
        linesLeft := s.linesLeft - 1
        ctx := if s.linesLeft ≤ 1 then .frame else .lhdr
        warns := ws } ∧
      ws.pad = s.warns.pad.raisedBy (if s.padRow ≠ none ∧ s.padRow ≠ some used then 1 else 0) ∧
      ws.trailing = s.warns.trailing.raisedBy (if s.linesLeft ≤ 1 ∧ s.cur < s.d.length then 1 else 0) ∧
      ∀ k, k ≠ .pad → k ≠ .trailing → ws.get k = s.warns.get k) ∧
  (∀ (s : State), s.produced ≠ s.leff → endLine s = .raised (s.raise (.lineLen s.produced s.leff)))

/-- R201, R278, R286: a TBL whose k-th index byte names an entry at or above TLEN raises the block-fatal F_TABLE_INDEX. The
lookups of the index bytes before it have been put, and when the nibble looked up first is valid and the other is not, that
first one's entry too. TBL_HIGH_FIRST says which nibble is first. -/
def Obligations.TableIndexOutOfRangeFaults : Prop :=
  ∀ (s : State) (fld : BitVec 6) (k first second : Nat) (xs : List Byte) (x : Byte), s.PutReady → s.tableLoaded →
    k < fld.toNat + s.cfg.tblBias.val → s.d[s.cur + 1 + k]? = some x → xs = (s.d.drop (s.cur + 1)).take k →
    s.indexed xs →
    first = (if s.cfg.tblHighFirst then x.toNat / 16 else x.toNat % 16) →
    second = (if s.cfg.tblHighFirst then x.toNat % 16 else x.toNat / 16) →
    (s.tlen ≤ first → ∃ t, putAll (s.lookups xs) s = .ok () t ∧
      exec (.tbl fld) s = .next ((t.setCur (s.cur + 2 + k)).raise (.tableIndex first))) ∧
    (first < s.tlen → s.tlen ≤ second → ∃ t, putAll (s.lookups xs ++ [s.tableByte first]) s = .ok () t ∧
      exec (.tbl fld) s = .next ((t.setCur (s.cur + 2 + k)).raise (.tableIndex second)))

/-- R191, R277, R286: when D ends inside an opcode, the bytes of the literals or index bytes that were there are put and
the block ends with F_LINE_TRUNC; a repeat without its value byte puts nothing. D can end as well before an opcode or a
line header, inside a table load, inside a pad header and inside its filler: the same fault, and what the pseudocode wrote
before it stays. -/
def Obligations.TruncatedOpcodeEndsTheBlock : Prop :=
  (∀ (s : State) (fld : BitVec 6), s.PutReady → s.cur < s.d.length →
    (s.d.length < s.cur + 1 + (fld.toNat + 1) →
      ∃ t, putAll (s.d.drop (s.cur + 1)) s = .ok () t ∧
        exec (.raw fld) s = .next ((t.setCur s.d.length).raise (.lineTrunc s.d.length))) ∧
    (s.d.length < s.cur + 1 + (fld.toNat + s.cfg.tblBias.val) → s.tableLoaded → s.indexed (s.d.drop (s.cur + 1)) →
      ∃ t, putAll (s.lookups (s.d.drop (s.cur + 1))) s = .ok () t ∧
        exec (.tbl fld) s = .next ((t.setCur s.d.length).raise (.lineTrunc s.d.length))) ∧
    (s.d.length = s.cur + 1 →
      exec (.rep fld) s = .next ((s.setCur s.d.length).raise (.lineTrunc s.d.length)) ∧
      exec (.lrep fld) s = .next ((s.setCur s.d.length).raise (.lineTrunc s.d.length)))) ∧
  (∀ (s : State), s.runState = .run → s.cfg.dir = .decode → s.d.length ≤ s.cur →
    (s.ctx = .op → step s = .next (s.raise (.lineTrunc s.cur))) ∧
    (s.ctx = .lhdr →
      step s = .next (State.raise (.lineTrunc s.cur) { s with lstart := s.cur, padRow := none, padLen := 0 }))) ∧
  (∀ (s : State) (present : Bool) (tlen : BitVec 7), tlen.toNat ≤ 16 → s.cur < s.d.length →
    s.d.length < s.cur + 1 + tlen.toNat →
    exec (.lhdr present false tlen) s = .next (State.raise (.lineTrunc s.d.length) { s with
      lstart := s.cur
      padRow := none
      padLen := 0
      cur := s.d.length
      warns := if present then s.warns else s.warns.raise .lineFlag
      tlen := tlen.toNat
      tbl := tableCells (s.d.drop (s.cur + 1)) })) ∧
  (∀ (s : State) (present : Bool) (tlen : BitVec 7) (rest : List Byte), s.runState = .run → s.cfg.dir = .decode →
    s.ctx = .lhdr → decode s.cfg .lhdr s.window = .ok (.lhdr present true tlen) rest → rest.length < 2 →
    step s = .next (State.raise (.lineTrunc s.d.length) { s with
      lstart := s.cur
      padRow := none
      padLen := 0
      cur := s.d.length
      warns := if present then s.warns else s.warns.raise .lineFlag
      hdrTlen := tlen.toNat
      ctx := .padhdr })) ∧
  (∀ (s : State) (p : BitVec 2) (r : BitVec 14), s.cur + 2 ≤ s.d.length → s.d.length < s.cur + 2 + p.toNat →
    exec (.padhdr p r) s = .next (State.raise (.lineTrunc s.d.length) { s with
      padRow := some r.toNat
      padLen := p.toNat
      cur := s.d.length
      warns := (fun ws => Warnings.raise ws .pad)^[((s.d.drop (s.cur + 2)).filter (· ≠ 0xFF)).length] s.warns })) ∧
  ∀ (s : State) (p : BitVec 2) (r : BitVec 14), s.hdrTlen ≤ 16 → s.cur + 2 + p.toNat ≤ s.d.length →
    s.d.length < s.cur + 2 + p.toNat + s.hdrTlen →
    exec (.padhdr p r) s = .next (State.raise (.lineTrunc s.d.length) { s with
      padRow := some r.toNat
      padLen := p.toNat
      cur := s.d.length
      warns := (fun ws => Warnings.raise ws .pad)^[(((s.d.drop (s.cur + 2)).take p.toNat).filter (· ≠ 0xFF)).length]
        s.warns
      tlen := s.hdrTlen
      tbl := tableCells (s.d.drop (s.cur + 2 + p.toNat)) })

/-! ### The accumulation buffer -/

/-- R205: a byte put writes its byte at the mapped address, leaves every other byte of ACC, and moves ACCPOS; the put
that fills the buffer appends (CHAN, ACC) to SINK and sets ACCPOS to 0. -/
def Obligations.PutByteWritesOneByte : Prop :=
  ∀ (s : State) (v : Byte), s.PutReady →
    (s.accPos + 1 < 2 * s.w → ∃ m, putByte v s = .ok () (s.withPut m (s.accPos + 1) s.sink) ∧
      ∀ a, m.read a = if a = accAddr s.model s.w s.accPos then some v else s.acc.read a) ∧
    (s.accPos + 1 = 2 * s.w → ∃ u, putByte v s = .ok () (s.withPut [] 0 (s.sink ++ [{ chan := s.chan, bytes := u }])) ∧
      u.length = 2 * s.w ∧
      ∀ a < 2 * s.w, u[a]? = if a = accAddr s.model s.w s.accPos then some v else s.acc.read a)

/-- R66: on M2 put index 2i goes to address i and 2i + 1 to W + i, a bijection of 0 .. 2W-1; on every other model put
index p goes to address p. -/
def Obligations.AccAddressMap : Prop :=
  (∀ w i, i < w → accAddr .m2 w (2 * i) = i ∧ accAddr .m2 w (2 * i + 1) = w + i) ∧
  (∀ w a, a < 2 * w → ∃ p, (p < 2 * w ∧ accAddr .m2 w p = a) ∧ ∀ q, q < 2 * w → accAddr .m2 w q = a → q = p) ∧
  (∀ w p, p < 2 * w → accAddr .m2 w p < 2 * w) ∧
  ∀ m w p, m ≠ .m2 → accAddr m w p = p

/-- R67, R68: 2W bytes put from ACCPOS = 0 make one flush unit, de-interleaved on M2 and in order otherwise, and set ACCPOS
to 0. That no byte of ACC holds a value after the flush is the model's reading of R331 (assumption log 9, DEDUCED). -/
def Obligations.FullBufferIsOneFlushUnit : Prop :=
  ∀ (s : State) (bs : List Byte), s.PutReady → s.accPos = 0 → bs.length = 2 * s.w →
    putAll bs s =
      .ok () (s.withPut [] 0 (s.sink ++ [{ chan := s.chan, bytes := flushUnitOf s.model s.w bs }]))

/-- R69: the bytes of ACC that hold a value are exactly those put since the last zero of ACCPOS, after every step that
does not change MODEL to or from M2 while ACCPOS is not 0 (the one hole, R331). -/
def Obligations.AccStaysFilledByItsPuts : Prop :=
  ∀ (s t : State), s.Legal → s.accFilled → step s = .next t →
    (s.accPos = 0 ∨ (s.model = .m2 ↔ t.model = .m2)) → t.accFilled

/-- R331, U19: a put that completes a buffer with a byte that holds no value is refused. -/
def Obligations.FlushOfUnwrittenByteIsRefused : Prop :=
  ∀ (s : State) (v : Byte) (a : Nat), s.accPos + 1 = 2 * s.w → a < 2 * s.w → s.acc.read a = none →
    a ≠ accAddr s.model s.w s.accPos → accAddr s.model s.w s.accPos < 2 * s.w →
    putByte v s = .refused .flushNoValue

/-! ### Faults -/

/-- R283 to R285: the fault record; block-fatal entry with its return to the frame loop; run-fatal entry, in both
directions. Nothing else is written. A run-fatal record is never overwritten. That FPOS holds `cur` exactly in the three
line contexts is the model's reading of "inside a Data block" (assumption log 6). -/
def Obligations.FaultEntryBySeverity : Prop :=
  (∀ (s : State) (f : Trap), s.runState = .run → s.cfg.dir = .decode → f.runFatal = false →
    s.raise f = { s with
      fcode := f.code
      finfo := some f
      fpos := .decode s.ip (if s.ctx = .frame then none else some s.cur)
      fblk := s.nblk - 1
      nblkFatal := s.nblkFatal + 1
      ctx := .frame }) ∧
  (∀ (s : State) (f : Trap), s.runState = .run → f.runFatal = true →
    s.raise f = { s with
      fcode := f.code
      finfo := some f
      fpos := if s.cfg.dir = .decode then .decode s.ip (if s.ctx = .frame then none else some s.cur)
        else .encode s.encPage s.encChan s.encLine
      fblk := if s.cfg.dir = .decode then s.nblk - 1 else s.fblk
      runState := .halt
      exit := .nonzero }) ∧
  (∀ (s : State) (f : Trap), s.runState = .halt → s.recordFault f = s)

/-! ### Whole-machine rules -/

/-- R21: no step writes Cfg, the input stream or the job. -/
def Obligations.InputsAreNeverWritten : Prop :=
  ∀ (s t : State), step s = .next t → t.cfg = s.cfg ∧ t.inp = s.inp ∧ t.job = s.job

/-- R28: `ip` only moves forward, and never past the end of IN if it was not past it. -/
def Obligations.InputCursorOnlyMovesForward : Prop :=
  ∀ (s t : State), step s = .next t → s.ip ≤ t.ip ∧ (s.ip ≤ s.inp.length → t.ip ≤ s.inp.length)

/-- R46: no step leaves HALT or DONE, and no step clears a warning, its counter or a fault record. -/
def Obligations.OnlyResetClears : Prop :=
  (∀ (s : State), s.runState ≠ .run → s.Stopped) ∧
  ∀ (s t : State), step s = .next t →
    (∀ k, (s.warns.get k).count ≤ (t.warns.get k).count ∧ ((s.warns.get k).bit = true → (t.warns.get k).bit = true)) ∧
    (s.fcode ≠ 0 → t.fcode ≠ 0) ∧ (s.finfo ≠ none → t.finfo ≠ none) ∧ s.nblkFatal ≤ t.nblkFatal ∧ s.nblk ≤ t.nblk

/-- R40, R41: SINK and OUT are append-only. -/
def Obligations.OutputsOnlyGrow : Prop :=
  ∀ (s t : State), step s = .next t → s.sink <+: t.sink ∧ s.out <+: t.out

/-- R22: a step of one direction writes no register of the other. -/
def Obligations.DirectionsAreApart : Prop :=
  ∀ (s t : State), step s = .next t →
    (s.cfg.dir = .decode → t.encodeSide = s.encodeSide) ∧ (s.cfg.dir = .encode → t.decodeSide = s.decodeSide)

/-- R23, R73, R13: SEQ goes up by one, mod 256, for each frame appended to OUT, and is written by nothing else; the frame
carries the counter's value before the increment, or after it when SEQ_PRE is false. That a step whose frame raises
F_ENC_PAYLOAD leaves SEQ unchanged with SEQ_PRE = false too is the model's choice (assumption log 22, DESIGN CHOICE,
unsafe). -/
def Obligations.SeqCountsTheFrames : Prop :=
  ∀ (s t : State), step s = .next t →
    (t.seq = s.seq ∧ t.out = s.out) ∨
    (t.seq = s.seq + 1 ∧ ∃ ty payload data,
      t.out = s.out ++ frameBytes ty (goodFrame ty (if s.cfg.seqPre then s.seq else t.seq) payload) ++ data ∧
      (s.cfg.placement = .inside → data = []))

/-- The widths and ranges of 10_state.md, the canonical form of the memories, and the agreement of RUNSTATE, EXIT, FCODE
and the fault record are kept by every step of either direction. -/
def Obligations.LegalIsKeptByEveryStep : Prop := ∀ (s t : State), s.Legal → step s = .next t → t.Legal

/-- R47, R320: a session that starts, for every configuration, input stream and job, is in a legal state, with no fault
recorded, no block skipped and nothing in flight. -/
def Obligations.ResetIsLegal : Prop :=
  ∀ (s : State), s.Started → s.Legal ∧ s.fcode = 0 ∧ s.nblkFatal = 0 ∧ s.Idle

/-- R45: what reset leaves. Only the values R45 gives; DIR = DECODE is the model's own choice (assumption log 1). -/
def Obligations.ResetValues : Prop :=
  ∀ (c : Cfg) (input : List Byte) (job : Job), let s := State.resetFor c input job
    s.seq = c.seqReset ∧ s.accPos = 0 ∧ s.tlen = 0 ∧ s.produced = 0 ∧ s.linesLeft = 0 ∧ s.lstart = 0 ∧ s.padRow = none ∧
    s.chan = .known .k ∧ s.blkNum = 0 ∧ s.upgraded = false ∧ s.model = (if c.dir = .encode then job.model else .unknown) ∧
    s.w = 0 ∧ s.height = 0 ∧ s.colorMode = .mono ∧ s.runState = .run ∧ s.exit = .zero ∧ s.fcode = 0 ∧ s.fpos = .zero ∧
    s.fblk = 0 ∧ s.nblk = 0 ∧ s.nblkFatal = 0 ∧ (∀ k, s.warns.get k = { bit := false, count := 0 }) ∧ s.ip = 0 ∧
    (∀ i, s.tbl.read i = none) ∧ s.acc = [] ∧ s.sink = [] ∧ s.out = [] ∧ s.lineBuf = [] ∧ s.encBuf = [] ∧ s.cfg = c

/-- R322: in the decode direction a legal running state whose buffer was filled by its puts (`accFilled`, R69) has a next
state, whatever stream is being read. Without that premise a state behind the hole of R331 may be refused a flush. -/
def Obligations.DecodeAlwaysHasANextStep : Prop :=
  ∀ (s : State), s.Legal → s.accFilled → s.runState = .run → s.cfg.dir = .decode → ∃ t, step s = .next t

/-- R332: every decode run ends, from every state and on every stream. -/
def Obligations.EveryDecodeRunEnds : Prop := ∀ (s : State), s.cfg.dir = .decode → Terminates s

/-- R332: every encode run ends, from every state and for every job. -/
def Obligations.EveryEncodeRunEnds : Prop := ∀ (s : State), s.cfg.dir = .encode → Terminates s

/-! ### The line encoder -/

/-- R163: the runs of a line cover it in order, are not empty, and no two neighbours have the same byte. -/
def Obligations.RunsAreMaximal : Prop :=
  ∀ (line : List Byte), (runsOf line).flatMap (fun r => List.replicate r.2 r.1) = line ∧
    (∀ r ∈ runsOf line, 1 ≤ r.2) ∧ (runsOf line).IsChain (fun r q => r.1 ≠ q.1)

/-- R165: RAW chunks of 64 bytes, the short one last; chunk k starts at offset 65k with its length less one. -/
def Obligations.RawChunksAreFullButTheLast : Prop :=
  ∀ (lit : List Byte), (rawChunks lit).length = lit.length + (lit.length + 63) / 64 ∧
    ∀ k, 64 * k < lit.length →
      (rawChunks lit)[65 * k]? = some (BitVec.ofNat 8 (min 64 (lit.length - 64 * k) - 1)) ∧
      ∀ j, j < min 64 (lit.length - 64 * k) → (rawChunks lit)[65 * k + 1 + j]? = lit[64 * k + j]?

/-- R166, R167: the repeat decomposition, with the 4096 step taken at most once and no encoding from 8192 on. R162, R164,
R168: how `encodeLine` makes the stream of a line of it, 0x80 first. Short runs alone are one literal sequence; a maximal
run of 3 or more is written as a repeat, after the short runs before it as one literal sequence, and the rest of the line
follows as it would stand alone. R170: on M3 the same bytes are the body that is padded. -/
def Obligations.RepeatDecomposition : Prop :=
  (∀ (n : Nat) (v : Byte), 3 ≤ n →
    (n < 64 → repeatOps n v = some [0x80 ||| BitVec.ofNat 8 n, v]) ∧
    (64 ≤ n → n < 4096 → repeatOps n v = some ([0xC0 ||| BitVec.ofNat 8 (n / 64), v] ++
      (if n % 64 = 0 then [] else [0x80 ||| BitVec.ofNat 8 (n % 64), v]))) ∧
    (4096 ≤ n → n < 8192 → repeatOps n v = some ([0xE0, v, 0xE0, v] ++
      (if n - 4096 < 64 then [] else [0xC0 ||| BitVec.ofNat 8 ((n - 4096) / 64), v]) ++
      (if (n - 4096) % 64 = 0 then [] else [0x80 ||| BitVec.ofNat 8 (n % 64), v]))) ∧
    (8192 ≤ n → repeatOps n v = none)) ∧
  (∀ (c : Cfg) (m : Model) (line : List Byte), m ≠ .m3 → (∀ r ∈ runsOf line, r.2 < 3) →
    encodeLine c m line = .stream (0x80 :: rawChunks line)) ∧
  (∀ (c : Cfg) (m : Model) (pre : List Byte) (n : Nat) (v : Byte) (post ops rest : List Byte), m ≠ .m3 →
    (∀ r ∈ runsOf pre, r.2 < 3) → 3 ≤ n → pre.getLast? ≠ some v → post.head? ≠ some v → repeatOps n v = some ops →
    encodeLine c m post = .stream (0x80 :: rest) →
    encodeLine c m (pre ++ List.replicate n v ++ post) = .stream (0x80 :: (rawChunks pre ++ ops ++ rest))) ∧
  (∀ (c : Cfg) (line ops : List Byte) (rowLen : Nat), encodeLine c .m1 line = .stream (0x80 :: ops) →
    rowLen = (if c.rowLenMode = .total then ops.length + 3 + padLenFor (ops.length + 1) else ops.length + 1) →
    rowLen ≤ 16383 →
    encodeLine c .m3 line = .stream ([0x80 ||| BitVec.twoPow 8 c.padpBit.index] ++
      wordBytes (c.padLayout.pack (BitVec.ofNat 2 (padLenFor (ops.length + 1))) (BitVec.ofNat 14 rowLen)) ++
      List.replicate (padLenFor (ops.length + 1)) 0xFF ++ ops))

/-- When a line has a stream, and which fault it raises when it has none. R167: F_ENC_RUN exactly for a run of 8192 or
more, and with the length of the first such run. Every other line has a stream off M3; on M3 it has one unless its row
length, R170's or under ROWLEN_MODE = UNPADDED R13's, exceeds 16383: then it raises F_ENC_ROWLEN with that length, which
cannot be for a line of at most 8192 bytes (R170, R288). -/
def Obligations.LongRunsHaveNoEncoding : Prop :=
  (∀ (c : Cfg) (m : Model) (line : List Byte),
    (∃ n i, encodeLine c m line = .fail (.encRun n) i) ↔ ∃ r ∈ runsOf line, 8192 ≤ r.2) ∧
  (∀ (c : Cfg) (m : Model) (pre : List Byte) (n : Nat) (v : Byte) (post : List Byte), 8192 ≤ n →
    (∀ r ∈ runsOf pre, r.2 < 8192) → pre.getLast? ≠ some v → post.head? ≠ some v →
    ∃ i, encodeLine c m (pre ++ List.replicate n v ++ post) = .fail (.encRun n) i) ∧
  ∀ (c : Cfg) (line : List Byte), (∀ r ∈ runsOf line, r.2 < 8192) →
    (∀ m, m ≠ .m3 → ∃ ops, encodeLine c m line = .stream (0x80 :: ops)) ∧
    (∀ (body : List Byte) (rowLen : Nat), encodeLine c .m1 line = .stream body →
      rowLen = (if c.rowLenMode = .total then body.length + 2 + padLenFor body.length else body.length) →
      (rowLen ≤ 16383 → ∃ bs, encodeLine c .m3 line = .stream bs) ∧
      (16383 < rowLen → ∃ i, encodeLine c .m3 line = .fail (.encRowLen rowLen) i)) ∧
    (line.length ≤ 8192 → ∃ bs, encodeLine c .m3 line = .stream bs)

/-- R172: the size of a line stream: at most `1 + L + ceil(L / 64)`, and 5 more when M3 pads it. -/
def Obligations.LineStreamSizeBound : Prop :=
  ∀ (c : Cfg) (m : Model) (line bs : List Byte), encodeLine c m line = .stream bs →
    bs.length ≤ 1 + line.length + (line.length + 63) / 64 + (if m = .m3 then 5 else 0)

/-- R170, R99: an M3 stream is a multiple of 4 bytes long, says so in its pad header, and has PRESENT, PADP and an
empty table in its first byte. -/
def Obligations.PaddedStreamIsAMultipleOfFour : Prop :=
  ∀ (line bs : List Byte), encodeLine Cfg.decided .m3 line = .stream bs →
    bs.length % 4 = 0 ∧ bs[0]? = some 0xC0 ∧
    ∃ (b0 b1 : Byte) (p : BitVec 2) (r : BitVec 14), bs[1]? = some b0 ∧ bs[2]? = some b1 ∧
      decode Cfg.decided .padhdr [b0, b1] = .ok (.padhdr p r) [] ∧ r.toNat = bs.length ∧
      ∀ k, k < p.toNat → bs[3 + k]? = some 0xFF

/-- R115: the padding formula gives 0 when enc_len + 2 is a multiple of 4 and otherwise the distance to the next one. -/
def Obligations.PaddingFormula : Prop :=
  ∀ n, padLenFor n < 4 ∧ (n + 2 + padLenFor n) % 4 = 0 ∧
    (n % 4 = 0 → padLenFor n = 2) ∧ (n % 4 = 1 → padLenFor n = 1) ∧ (n % 4 = 2 → padLenFor n = 0) ∧
    (n % 4 = 3 → padLenFor n = 3)

/-- R161, R66: the encoder's interleaving is the inverse of the decoder's address map. -/
def Obligations.InterleaveUndoesTheAddressMap : Prop :=
  ∀ (a b : List Byte) (w : Nat), a.length = w → b.length = w →
    (interleave a b).length = 2 * w ∧
    (∀ i, i < w → (interleave a b)[2 * i]? = a[i]? ∧ (interleave a b)[2 * i + 1]? = b[i]?) ∧
    flushUnitOf .m2 w (interleave a b) = a ++ b

/-- R173: decoding the stream of a line puts exactly the bytes of the line, consumes the whole stream, and raises no
warning and no fault: on every model, with and without row padding, for every configuration whose pad-header layout obeys
R13. -/
def Obligations.LineRoundTrip : Prop :=
  ∀ (s : State) (line bs : List Byte), PadLayout.Lawful s.cfg.padLayout →
    s.cfg.dir = .decode → s.runState = .run → s.ctx = .lhdr → s.PutReady → s.linesLeft = 1 →
    line.length = s.leff → encodeLine s.cfg s.model line = .stream bs → s.cur + bs.length = s.d.length →
    s.d.drop s.cur = bs →
    ∃ k t m p u, Host.Core.run Sys2Proof.core k s = .next t ∧
      putAll line s = .ok () (s.withPut m p (s.sink ++ u)) ∧ t.acc = m ∧ t.accPos = p ∧ t.sink = s.sink ++ u ∧
      t.cur = s.d.length ∧ t.ctx = .frame ∧ t.linesLeft = 0 ∧ t.warns = s.warns ∧ t.nblkFatal = s.nblkFatal ∧
      t.fcode = s.fcode ∧ t.runState = .run

/-! ### The plane splitter and the document -/

/-- R231, R232: at most 8 groups, none empty, none longer than `lpb`, together all lines. -/
def Obligations.GroupsCoverThePlane : Prop :=
  ∀ total, groupCount total ≤ 8 ∧ groupEnd total (groupCount total) = total ∧
    ∀ k, 1 ≤ k → k ≤ groupCount total →
      groupEnd total (k - 1) < groupEnd total k ∧
      groupEnd total k - groupEnd total (k - 1) ≤ (total + 7) / 8 ∧
      (k < groupCount total → groupEnd total k - groupEnd total (k - 1) = (total + 7) / 8)

/-- R260, R252, R253, R258, R259: the frames of a document outside its pages. The first step of an encode session emits the
Begin block; then Params carries the resolution, and the first page, or else EndPart, is next; EndPart carries
ENDPART_REASON; End is the last block, after which RUNSTATE is DONE and nothing more is emitted. Nothing else changes. A
job whose model is none of M1, M2 and M3 breaks the host's contract (R323): that its Begin step is refused is the model's
reading (assumption log 13, DEDUCED). -/
def Obligations.EncodeStreamBeginsWithBeginAndEndsWithEnd : Prop :=
  (∀ (c : Cfg) (job : Job) (b q : Byte), c.dir = .encode → c.layouts = Layouts.reference →
    modelByte c.modelCode job.model = some b → q = (if c.seqPre then c.seqReset else c.seqReset + 1) →
    step (State.resetFor c [] job) = .next { State.resetFor c [] job with
      out := frameBytes 0x40 (goodFrame 0x40 q [b])
      seq := c.seqReset + 1
      phase := .params }) ∧
  (∀ (c : Cfg) (input : List Byte) (job : Job), c.dir = .encode → job.model ∉ [Model.m1, .m2, .m3] →
    step (State.resetFor c input job) = .refused .encodeModel) ∧
  ∀ (s : State) (q : Byte), s.runState = .run → s.cfg.dir = .encode → s.cfg.layouts = Layouts.reference →
    q = (if s.cfg.seqPre then s.seq else s.seq + 1) →
    (s.phase = .params → step s = .next { s with
      out := s.out ++ frameBytes 0x50 (goodFrame 0x50 q (le16 s.job.resolution.toNat))
      seq := s.seq + 1
      phase := if s.encPage < s.job.pages.length then .page else .endPart }) ∧
    (s.phase = .endPart → step s = .next { s with
      out := s.out ++ frameBytes 0x55 (goodFrame 0x55 q [s.cfg.endPartReason])
      seq := s.seq + 1
      phase := .end_ }) ∧
    (s.phase = .end_ → ∃ t, step s = .next t ∧ t = { s with
      out := s.out ++ frameBytes 0x41 (goodFrame 0x41 q [])
      seq := s.seq + 1
      runState := .done } ∧ t.Stopped)

/-- R238, R256, R261: a page's step emits one Page block that carries the page's final colour mode: COLOR exactly for a
colour page with a nonzero byte in Y, M or C. It starts with plane Y, or with K on a mono page. R323: a scanline of another
length is refused; that the step which starts the page does it, when a plane the page is scanned for (K alone of a mono
page) has not exactly `height` scanlines of exactly W bytes, is the model's choice (assumption log 11, DESIGN CHOICE). -/
def Obligations.PageBlockCarriesTheFinalColorMode : Prop :=
  (∀ (s : State) (pg : Page) (color : Bool) (q : Byte), s.runState = .run → s.cfg.dir = .encode → s.phase = .page →
    s.cfg.layouts = Layouts.reference → q = (if s.cfg.seqPre then s.seq else s.seq + 1) →
    s.job.pages[s.encPage]? = some pg → pg.shaped = true →
    (color = true ↔ pg.isColor = true ∧ ∃ l ∈ pg.planeY ++ pg.planeM ++ pg.planeC, ∃ b ∈ l, b ≠ 0) →
    ∃ t, step s = .next t ∧ t.seq = s.seq + 1 ∧ t.w = (pg.pixelWidth.toNat + 7) / 8 ∧ t.height = pg.height.toNat ∧
      t.colorMode = (if color then .color else .mono) ∧ t.upgraded = color ∧
      t.out = s.out ++ frameBytes 0x51 (goodFrame 0x51 q
        (le16 pg.pixelWidth.toNat ++ le16 pg.height.toNat ++
          [if color then s.cfg.colorCode.color else s.cfg.colorCode.mono, pg.paperSize, pg.tray, pg.copies, pg.duplex])) ∧
      (pg.height ≠ 0 → t.phase = .line ∧ t.encChan = (if color then .y else .k) ∧ t.encLine = 0 ∧ t.blkNum = 1) ∧
      (pg.height = 0 → t.encPage = s.encPage + 1 ∧
        t.phase = (if s.encPage + 1 < s.job.pages.length then .page else .endPart))) ∧
  (∀ (s : State) (pg : Page), s.runState = .run → s.cfg.dir = .encode → s.phase = .page →
    s.job.pages[s.encPage]? = some pg → pg.shaped = false → step s = .refused .scanlineShape) ∧
  ∀ (pg : Page), pg.shaped = false ↔
    ∃ p, (p = pg.planeK ∨ pg.isColor = true ∧ p ∈ [pg.planeY, pg.planeM, pg.planeC]) ∧
      (p.length ≠ pg.height.toNat ∨ ∃ l ∈ p, l.length ≠ (pg.pixelWidth.toNat + 7) / 8)

/-- R233, R235: the Data block of a group carries the channel, the group's number, the length of the data and the number of
lines, then the line streams (INSIDE), or has them after its frame (TRAILING); ENCBUF is emptied (R42). The next group of
the plane follows; after the last one plane M follows Y, C follows M, K follows C, and the next page, or EndPart, follows K
(R238, R261). Under INSIDE more than 65527 bytes end the run in F_ENC_PAYLOAD (R327). One clause is the model's choice: the
line index that the next group of the plane finds is the one past the last line of this group (assumption log 23, DESIGN
CHOICE, unsafe). -/
def Obligations.DataBlockCarriesItsGroup : Prop :=
  ∀ (s : State) (q : Byte) (desc : List Byte), s.runState = .run → s.cfg.dir = .encode → s.phase = .data →
    s.cfg.layouts = Layouts.reference → q = (if s.cfg.seqPre then s.seq else s.seq + 1) →
    desc = [channelByte s.cfg.channelCode s.encChan, BitVec.ofNat 8 s.blkNum] ++ le32 s.encBuf.length ++
      le16 (groupEnd s.totalLines s.blkNum - groupEnd s.totalLines (s.blkNum - 1)) →
    (s.cfg.placement = .trailing ∨ s.encBuf.length ≤ 65527 →
      ∃ t, step s = .next t ∧ t.seq = s.seq + 1 ∧ t.encBuf = [] ∧
        (s.cfg.placement = .inside → t.out = s.out ++ frameBytes 0x52 (goodFrame 0x52 q (desc ++ s.encBuf))) ∧
        (s.cfg.placement = .trailing → t.out = s.out ++ frameBytes 0x52 (goodFrame 0x52 q desc) ++ s.encBuf) ∧
        (s.blkNum < groupCount s.totalLines → t.phase = .line ∧ t.blkNum = s.blkNum + 1 ∧ t.encChan = s.encChan ∧
          t.encLine = s.encLine ∧ t.encPage = s.encPage) ∧
        (groupCount s.totalLines ≤ s.blkNum → s.totalLines ≠ 0 →
          (∀ ch next, (ch, next) ∈ [(Channel.y, Channel.m), (.m, .c), (.c, .k)] → s.encChan = ch →
            t.phase = .line ∧ t.encChan = next ∧ t.blkNum = 1 ∧ t.encLine = 0 ∧ t.encPage = s.encPage) ∧
          (s.encChan = .k → t.encPage = s.encPage + 1 ∧
            t.phase = (if s.encPage + 1 < s.job.pages.length then .page else .endPart)))) ∧
    (s.cfg.placement = .inside → 65527 < s.encBuf.length →
      ∃ t, step s = .next t ∧ t.runState = .halt ∧ t.exit = .nonzero ∧ t.fcode = 0x22 ∧
        t.finfo = some (.encPayload (8 + s.encBuf.length)) ∧ t.out = s.out ∧ (s.cfg.seqPre = true → t.seq = s.seq))

/-- R230, R233, R234, R162: one step encodes the next logical line of the group and appends its stream to ENCBUF; a stream
past ENC_BUF_CAP, or a line that has no stream, ends the run with its fault and appends nothing. A logical line is a
physical line, and on M2 two interleaved, the second of them zeros after the last line of an odd page. Two clauses are the
model's choice: the line index after a group's last line (assumption log 23) and the byte index after a failed line
(assumption log 18). -/
def Obligations.LineStepAppendsItsStream : Prop :=
  (∀ (s : State) (pg : Page) (line : List Byte), s.runState = .run → s.cfg.dir = .encode → s.phase = .line →
    s.job.pages[s.encPage]? = some pg →
    logicalLine s.model s.w s.height (pg.plane s.encChan) s.encLine = some line →
    ∃ t, step s = .next t ∧ t.lineBuf = line ∧ t.out = s.out ∧ t.seq = s.seq ∧
      (∀ bs, encodeLine s.cfg s.model line = .stream bs →
        (∀ cap, s.cfg.encBufCap = some cap → s.encBuf.length + bs.length ≤ cap) →
        t.encBuf = s.encBuf ++ bs ∧ t.encLine = s.encLine + 1 ∧ t.runState = .run ∧ t.fcode = s.fcode ∧
          (groupEnd s.totalLines s.blkNum ≤ s.encLine + 1 ↔ t.phase = .data)) ∧
      (∀ bs cap, encodeLine s.cfg s.model line = .stream bs → s.cfg.encBufCap = some cap →
        cap < s.encBuf.length + bs.length → t.encBuf = s.encBuf ∧ t.runState = .halt ∧ t.fcode = 0x21) ∧
      (∀ f i, encodeLine s.cfg s.model line = .fail f i →
        t.encBuf = s.encBuf ∧ t.encByte = i ∧ t.runState = .halt ∧ t.fcode = f.code ∧ t.finfo = some f)) ∧
  (∀ (m : Model) (w height t : Nat) (plane : List (List Byte)) (a : List Byte), m ≠ .m2 → plane[t]? = some a →
    a.length = w → totalLines m height = height ∧ logicalLine m w height plane t = some a) ∧
  ∀ (w height t : Nat) (plane : List (List Byte)) (a : List Byte), plane[2 * t]? = some a → a.length = w →
    totalLines .m2 height = (height + 1) / 2 ∧
    (∀ b, 2 * t + 1 < height → plane[2 * t + 1]? = some b → b.length = w →
      logicalLine .m2 w height plane t = some (interleave a b)) ∧
    (height ≤ 2 * t + 1 → logicalLine .m2 w height plane t = some (interleave a (List.replicate w 0)))
end

