-- ==== Sys2Proof/Laws/Decode.lean ====
section
/-! SUPPORT. The laws of the two bit-field helpers: what a scattered word holds, and what is gathered from a word. -/

namespace Sys2Proof

/-- A bit that no entry names is 0. -/
theorem scatterBits_getLsbD_of_not_mem {bs : List Nat} {k : Nat} (h : k ∉ bs) (v : Nat) :
    (scatterBits v bs).getLsbD k = false := by
  induction bs generalizing v with
  | nil => simp [scatterBits]
  | cons b bs ih =>
    simp only [List.mem_cons, not_or] at h
    rw [scatterBits, BitVec.getLsbD_or, ih h.2, Bool.or_false]
    split
    · rw [BitVec.getLsbD_twoPow]; simp [Ne.symm h.1]
    · simp

/-- The bit that entry i names is bit i of the value. -/
theorem scatterBits_getLsbD {bs : List Nat} (hlt : ∀ b ∈ bs, b < 16) (hnd : bs.Nodup) (v : Nat) {i : Nat}
    (hi : i < bs.length) : (scatterBits v bs).getLsbD bs[i] = v.testBit i := by
  induction bs generalizing v i with
  | nil => exact absurd hi (Nat.not_lt_zero _)
  | cons b bs ih =>
    obtain ⟨hb, hnd⟩ := List.nodup_cons.1 hnd
    rw [scatterBits, BitVec.getLsbD_or]
    cases i with
    | zero =>
      rw [List.getElem_cons_zero, scatterBits_getLsbD_of_not_mem hb, Bool.or_false]
      have := hlt b (List.mem_cons_self ..)
      rcases Nat.mod_two_eq_zero_or_one v with e | e
      · rw [if_neg (by omega)]; simp [Nat.testBit_zero, e]
      · rw [if_pos e, BitVec.getLsbD_twoPow]; simp [Nat.testBit_zero, e, this]
    | succ i =>
      have hi' : i < bs.length := Nat.lt_of_succ_lt_succ hi
      rw [List.getElem_cons_succ, ih (fun c hc => hlt c (List.mem_cons_of_mem _ hc)) hnd _ hi', Nat.testBit_succ]
      have hne : b ≠ bs[i] := fun e => hb (e ▸ List.getElem_mem hi')
      split
      · rw [BitVec.getLsbD_twoPow]; simp [hne]
      · simp

/-- Gathering the bits that hold a value gives the value. -/
theorem gatherBits_eq {h : BitVec 16} {bs : List Nat} {v : Nat} (hv : v < 2 ^ bs.length)
    (hb : ∀ i (hi : i < bs.length), h.getLsbD bs[i] = v.testBit i) : gatherBits h bs = v := by
  induction bs generalizing v with
  | nil => simp only [List.length_nil, Nat.pow_zero] at hv; simp [gatherBits]; omega
  | cons b bs ih =>
    have h0 := hb 0 (Nat.succ_pos _)
    rw [List.getElem_cons_zero, Nat.testBit_zero] at h0
    rw [List.length_cons, Nat.pow_succ] at hv
    have ht : gatherBits h bs = v / 2 := ih (by omega) fun i hi => by
      have := hb (i + 1) (Nat.succ_lt_succ hi)
      rwa [List.getElem_cons_succ, Nat.testBit_succ] at this
    rw [gatherBits, ht, h0]
    rcases Nat.mod_two_eq_zero_or_one v with e | e <;> simp [e] <;> omega

end Sys2Proof
end

