-- ==== Sys2Proof/Laws/Memory.lean ====
section
/-! SUPPORT. The laws of byte memories: a read after a write, the canonical form, and reading a range. -/

namespace Sys2Proof.Machine

open Sys2Proof

@[simp] theorem Memory.read_nil (x : Nat) : Memory.read [] x = none := rfl

theorem Memory.read_write_same (m : Memory) (a : Nat) (v : Byte) : (m.write a v).read a = some v := by
  induction m with
  | nil => simp [Memory.write, Memory.read]
  | cons c m ih =>
    obtain ⟨b, u⟩ := c
    simp only [Memory.write]
    split
    · simp [Memory.read]
    · split
      · simp [Memory.read]
      · next h => simp [Memory.read, h, ih]

theorem Memory.read_write_other (m : Memory) {a x : Nat} (v : Byte) (h : x ≠ a) :
    (m.write a v).read x = m.read x := by
  induction m with
  | nil => simp [Memory.write, Memory.read, Ne.symm h]
  | cons c m ih =>
    obtain ⟨b, u⟩ := c
    simp only [Memory.write]
    split
    · simp [Memory.read, Ne.symm h]
    · split
      · next e => subst e; simp [Memory.read, Ne.symm h]
      · simp [Memory.read, ih]

theorem Memory.read_write (m : Memory) (a x : Nat) (v : Byte) :
    (m.write a v).read x = if x = a then some v else m.read x := by
  by_cases h : x = a
  · subst h; simp [Memory.read_write_same]
  · simp [Memory.read_write_other, h]

/-- A cell of a memory after a write was there before or is the cell written. -/
theorem Memory.mem_write {m : Memory} {a : Nat} {v : Byte} {c : Host.Cell} (h : c ∈ m.write a v) :
    c ∈ m ∨ c = (a, v) := by
  induction m with
  | nil => simpa [Memory.write] using h
  | cons d m ih =>
    obtain ⟨b, u⟩ := d
    simp only [Memory.write] at h
    split at h
    · simp only [List.mem_cons] at h ⊢; tauto
    · split at h
      · simp only [List.mem_cons] at h ⊢; tauto
      · simp only [List.mem_cons] at h ⊢
        rcases h with h | h
        · exact .inl (.inl h)
        · exact (ih h).imp .inr id

theorem Memory.wf_nil : Memory.wf [] = true := by simp [Memory.wf]

theorem Memory.wf_cons {c : Host.Cell} {m : Memory} :
    Memory.wf (c :: m) = true ↔ (∀ d ∈ m, c.1 < d.1) ∧ Memory.wf m = true := by
  simp [Memory.wf]

/-- Every write keeps the canonical form. -/
theorem Memory.wf_write {m : Memory} (h : m.wf = true) (a : Nat) (v : Byte) : (m.write a v).wf = true := by
  induction m with
  | nil => simp [Memory.write, Memory.wf]
  | cons d m ih =>
    obtain ⟨b, u⟩ := d
    obtain ⟨hb, hm⟩ := Memory.wf_cons.1 h
    simp only [Memory.write]
    split
    · next hlt =>
      refine Memory.wf_cons.2 ⟨fun d hd => ?_, h⟩
      rcases List.mem_cons.1 hd with rfl | hd
      · exact hlt
      · exact lt_trans hlt (hb d hd)
    · split
      · next e => subst e; exact Memory.wf_cons.2 ⟨hb, hm⟩
      · next h1 h2 =>
        refine Memory.wf_cons.2 ⟨fun d hd => ?_, ih hm⟩
        rcases Memory.mem_write hd with hd | rfl
        · exact hb d hd
        · exact lt_of_le_of_ne (Nat.le_of_not_lt h1) h2

/-- An address holds a value when it is listed. -/
theorem Memory.read_isSome {m : Memory} {x : Nat} : (m.read x).isSome = true ↔ x ∈ m.map Prod.fst := by
  induction m with
  | nil => simp
  | cons c m ih =>
    obtain ⟨a, v⟩ := c
    by_cases h : a = x
    · simp [Memory.read, h]
    · simp [Memory.read, h, ih, Ne.symm h]

/-- In canonical form equal reads are equal memories. -/
theorem Memory.ext_of_wf {m n : Memory} (hm : m.wf = true) (hn : n.wf = true) (h : ∀ x, m.read x = n.read x) :
    m = n := by
  induction m generalizing n with
  | nil =>
    cases n with
    | nil => rfl
    | cons c n => have := h c.1; simp [Memory.read] at this
  | cons c m ih =>
    obtain ⟨a, v⟩ := c
    cases n with
    | nil => have := h a; simp [Memory.read] at this
    | cons d n =>
      obtain ⟨b, u⟩ := d
      obtain ⟨ha, hm'⟩ := Memory.wf_cons.1 hm
      obtain ⟨hb, hn'⟩ := Memory.wf_cons.1 hn
      have key : ∀ {l : Memory} {x y : Nat}, (∀ e ∈ l, y < e.1) → x ≤ y → l.read x = none := by
        intro l x y hl hxy
        rcases hr : l.read x with _ | w
        · rfl
        · have : (l.read x).isSome = true := by rw [hr]; rfl
          obtain ⟨e, he, rfl⟩ := List.mem_map.1 (Memory.read_isSome.1 this)
          exact absurd (hl e he) (by omega)
      have hab : a = b := by
        rcases Nat.lt_trichotomy a b with hlt | e | hlt
        · have := h a
          have h0 : b ≠ a := by omega
          simp [Memory.read, h0, key hb (Nat.le_of_lt hlt)] at this
        · exact e
        · have := h b
          have h0 : a ≠ b := by omega
          simp [Memory.read, h0, key ha (Nat.le_of_lt hlt)] at this
      subst hab
      have hv : v = u := by have := h a; simpa [Memory.read] using this
      subst hv
      congr 1
      refine ih hm' hn' fun x => ?_
      by_cases hx : a = x
      · subst hx; rw [key ha (Nat.le_refl _), key hb (Nat.le_refl _)]
      · have := h x; simpa [Memory.read, hx] using this

theorem Memory.readAll_length {m : Memory} {n a : Nat} {bs : List Byte} (h : m.readAll a n = some bs) :
    bs.length = n := by
  induction n generalizing a bs with
  | zero => simp only [Memory.readAll, Option.some.injEq] at h; subst h; rfl
  | succ n ih =>
    simp only [Memory.readAll] at h
    split at h
    · next h2 => simp only [Option.some.injEq] at h; subst h; simp [ih h2]
    · cases h

/-- A range is readable exactly when each of its addresses holds a value. -/
theorem Memory.readAll_isSome {m : Memory} {n a : Nat} :
    (m.readAll a n).isSome = true ↔ ∀ i < n, (m.read (a + i)).isSome = true := by
  induction n generalizing a with
  | zero => simp [Memory.readAll]
  | succ n ih =>
    have e := ih (a := a + 1)
    constructor
    · intro h i hi
      simp only [Memory.readAll] at h
      split at h
      · next h1 h2 =>
        cases i with
        | zero => simp [h1]
        | succ i =>
          have := e.1 (by simp [h2]) i (by omega)
          rwa [show a + (i + 1) = a + 1 + i by omega]
      · cases h
    · intro h
      have h0 := h 0 (by omega)
      have hr := e.2 fun i hi => by
        have := h (i + 1) (by omega)
        rwa [show a + (i + 1) = a + 1 + i by omega] at this
      obtain ⟨b, hb⟩ := Option.isSome_iff_exists.1 h0
      obtain ⟨bs, hbs⟩ := Option.isSome_iff_exists.1 hr
      simp only [Nat.add_zero] at hb
      simp [Memory.readAll, hb, hbs]

/-- What a readable range holds. -/
theorem Memory.readAll_get {m : Memory} {n a : Nat} {bs : List Byte} (h : m.readAll a n = some bs) :
    ∀ i < n, bs[i]? = m.read (a + i) := by
  induction n generalizing a bs with
  | zero => intro i hi; omega
  | succ n ih =>
    simp only [Memory.readAll] at h
    split at h
    · next h1 h2 =>
      simp only [Option.some.injEq] at h
      subst h
      intro i hi
      cases i with
      | zero => simp [h1]
      | succ i =>
        have := ih h2 i (by omega)
        rw [show a + (i + 1) = a + 1 + i by omega, ← this]
        simp
    · cases h

theorem Memory.readPadded_length (m : Memory) (n a : Nat) : (m.readPadded a n).length = n := by
  induction n generalizing a with
  | zero => rfl
  | succ n ih => simp [Memory.readPadded, ih]

end Sys2Proof.Machine
end

