-- ==== Sys2Proof/Laws/State.lean ====
section
/-! SUPPORT. What each named update of the state leaves in each field: one lemma per field per update. -/

namespace Sys2Proof.Machine

open Sys2Proof

/-! ### `State.warn` -/

@[simp] theorem State.warn_cfg (k : Warning) (s : State) : (s.warn k).cfg = s.cfg := rfl

@[simp] theorem State.warn_inp (k : Warning) (s : State) : (s.warn k).inp = s.inp := rfl

@[simp] theorem State.warn_job (k : Warning) (s : State) : (s.warn k).job = s.job := rfl

@[simp] theorem State.warn_runState (k : Warning) (s : State) : (s.warn k).runState = s.runState := rfl

@[simp] theorem State.warn_exit (k : Warning) (s : State) : (s.warn k).exit = s.exit := rfl

@[simp] theorem State.warn_fcode (k : Warning) (s : State) : (s.warn k).fcode = s.fcode := rfl

@[simp] theorem State.warn_finfo (k : Warning) (s : State) : (s.warn k).finfo = s.finfo := rfl

@[simp] theorem State.warn_fpos (k : Warning) (s : State) : (s.warn k).fpos = s.fpos := rfl

@[simp] theorem State.warn_fblk (k : Warning) (s : State) : (s.warn k).fblk = s.fblk := rfl

@[simp] theorem State.warn_nblk (k : Warning) (s : State) : (s.warn k).nblk = s.nblk := rfl

@[simp] theorem State.warn_nblkFatal (k : Warning) (s : State) : (s.warn k).nblkFatal = s.nblkFatal := rfl

@[simp] theorem State.warn_warns (k : Warning) (s : State) : (s.warn k).warns = s.warns.raise k := rfl

@[simp] theorem State.warn_model (k : Warning) (s : State) : (s.warn k).model = s.model := rfl

@[simp] theorem State.warn_w (k : Warning) (s : State) : (s.warn k).w = s.w := rfl

@[simp] theorem State.warn_height (k : Warning) (s : State) : (s.warn k).height = s.height := rfl

@[simp] theorem State.warn_colorMode (k : Warning) (s : State) : (s.warn k).colorMode = s.colorMode := rfl

@[simp] theorem State.warn_ip (k : Warning) (s : State) : (s.warn k).ip = s.ip := rfl

@[simp] theorem State.warn_ctx (k : Warning) (s : State) : (s.warn k).ctx = s.ctx := rfl

@[simp] theorem State.warn_d (k : Warning) (s : State) : (s.warn k).d = s.d := rfl

@[simp] theorem State.warn_cur (k : Warning) (s : State) : (s.warn k).cur = s.cur := rfl

@[simp] theorem State.warn_linesLeft (k : Warning) (s : State) : (s.warn k).linesLeft = s.linesLeft := rfl

@[simp] theorem State.warn_lstart (k : Warning) (s : State) : (s.warn k).lstart = s.lstart := rfl

@[simp] theorem State.warn_padRow (k : Warning) (s : State) : (s.warn k).padRow = s.padRow := rfl

@[simp] theorem State.warn_padLen (k : Warning) (s : State) : (s.warn k).padLen = s.padLen := rfl

@[simp] theorem State.warn_hdrTlen (k : Warning) (s : State) : (s.warn k).hdrTlen = s.hdrTlen := rfl

@[simp] theorem State.warn_tlen (k : Warning) (s : State) : (s.warn k).tlen = s.tlen := rfl

@[simp] theorem State.warn_tbl (k : Warning) (s : State) : (s.warn k).tbl = s.tbl := rfl

@[simp] theorem State.warn_produced (k : Warning) (s : State) : (s.warn k).produced = s.produced := rfl

@[simp] theorem State.warn_chan (k : Warning) (s : State) : (s.warn k).chan = s.chan := rfl

@[simp] theorem State.warn_acc (k : Warning) (s : State) : (s.warn k).acc = s.acc := rfl

@[simp] theorem State.warn_accPos (k : Warning) (s : State) : (s.warn k).accPos = s.accPos := rfl

@[simp] theorem State.warn_sink (k : Warning) (s : State) : (s.warn k).sink = s.sink := rfl

@[simp] theorem State.warn_seq (k : Warning) (s : State) : (s.warn k).seq = s.seq := rfl

@[simp] theorem State.warn_out (k : Warning) (s : State) : (s.warn k).out = s.out := rfl

@[simp] theorem State.warn_blkNum (k : Warning) (s : State) : (s.warn k).blkNum = s.blkNum := rfl

@[simp] theorem State.warn_upgraded (k : Warning) (s : State) : (s.warn k).upgraded = s.upgraded := rfl

@[simp] theorem State.warn_lineBuf (k : Warning) (s : State) : (s.warn k).lineBuf = s.lineBuf := rfl

@[simp] theorem State.warn_encBuf (k : Warning) (s : State) : (s.warn k).encBuf = s.encBuf := rfl

@[simp] theorem State.warn_phase (k : Warning) (s : State) : (s.warn k).phase = s.phase := rfl

@[simp] theorem State.warn_encPage (k : Warning) (s : State) : (s.warn k).encPage = s.encPage := rfl

@[simp] theorem State.warn_encChan (k : Warning) (s : State) : (s.warn k).encChan = s.encChan := rfl

@[simp] theorem State.warn_encLine (k : Warning) (s : State) : (s.warn k).encLine = s.encLine := rfl

@[simp] theorem State.warn_encByte (k : Warning) (s : State) : (s.warn k).encByte = s.encByte := rfl

/-! ### `State.warnIf` -/

@[simp] theorem State.warnIf_cfg (b : Bool) (k : Warning) (s : State) : (s.warnIf b k).cfg = s.cfg := by cases b <;> rfl

@[simp] theorem State.warnIf_inp (b : Bool) (k : Warning) (s : State) : (s.warnIf b k).inp = s.inp := by cases b <;> rfl

@[simp] theorem State.warnIf_job (b : Bool) (k : Warning) (s : State) : (s.warnIf b k).job = s.job := by cases b <;> rfl

@[simp] theorem State.warnIf_runState (b : Bool) (k : Warning) (s : State) : (s.warnIf b k).runState = s.runState := by cases b <;> rfl

@[simp] theorem State.warnIf_exit (b : Bool) (k : Warning) (s : State) : (s.warnIf b k).exit = s.exit := by cases b <;> rfl

@[simp] theorem State.warnIf_fcode (b : Bool) (k : Warning) (s : State) : (s.warnIf b k).fcode = s.fcode := by cases b <;> rfl

@[simp] theorem State.warnIf_finfo (b : Bool) (k : Warning) (s : State) : (s.warnIf b k).finfo = s.finfo := by cases b <;> rfl

@[simp] theorem State.warnIf_fpos (b : Bool) (k : Warning) (s : State) : (s.warnIf b k).fpos = s.fpos := by cases b <;> rfl

@[simp] theorem State.warnIf_fblk (b : Bool) (k : Warning) (s : State) : (s.warnIf b k).fblk = s.fblk := by cases b <;> rfl

@[simp] theorem State.warnIf_nblk (b : Bool) (k : Warning) (s : State) : (s.warnIf b k).nblk = s.nblk := by cases b <;> rfl

@[simp] theorem State.warnIf_nblkFatal (b : Bool) (k : Warning) (s : State) : (s.warnIf b k).nblkFatal = s.nblkFatal := by cases b <;> rfl

@[simp] theorem State.warnIf_warns (b : Bool) (k : Warning) (s : State) : (s.warnIf b k).warns = if b then s.warns.raise k else s.warns := by cases b <;> rfl

@[simp] theorem State.warnIf_model (b : Bool) (k : Warning) (s : State) : (s.warnIf b k).model = s.model := by cases b <;> rfl

@[simp] theorem State.warnIf_w (b : Bool) (k : Warning) (s : State) : (s.warnIf b k).w = s.w := by cases b <;> rfl

@[simp] theorem State.warnIf_height (b : Bool) (k : Warning) (s : State) : (s.warnIf b k).height = s.height := by cases b <;> rfl

@[simp] theorem State.warnIf_colorMode (b : Bool) (k : Warning) (s : State) : (s.warnIf b k).colorMode = s.colorMode := by cases b <;> rfl

@[simp] theorem State.warnIf_ip (b : Bool) (k : Warning) (s : State) : (s.warnIf b k).ip = s.ip := by cases b <;> rfl

@[simp] theorem State.warnIf_ctx (b : Bool) (k : Warning) (s : State) : (s.warnIf b k).ctx = s.ctx := by cases b <;> rfl

@[simp] theorem State.warnIf_d (b : Bool) (k : Warning) (s : State) : (s.warnIf b k).d = s.d := by cases b <;> rfl

@[simp] theorem State.warnIf_cur (b : Bool) (k : Warning) (s : State) : (s.warnIf b k).cur = s.cur := by cases b <;> rfl

@[simp] theorem State.warnIf_linesLeft (b : Bool) (k : Warning) (s : State) : (s.warnIf b k).linesLeft = s.linesLeft := by cases b <;> rfl

@[simp] theorem State.warnIf_lstart (b : Bool) (k : Warning) (s : State) : (s.warnIf b k).lstart = s.lstart := by cases b <;> rfl

@[simp] theorem State.warnIf_padRow (b : Bool) (k : Warning) (s : State) : (s.warnIf b k).padRow = s.padRow := by cases b <;> rfl

@[simp] theorem State.warnIf_padLen (b : Bool) (k : Warning) (s : State) : (s.warnIf b k).padLen = s.padLen := by cases b <;> rfl

@[simp] theorem State.warnIf_hdrTlen (b : Bool) (k : Warning) (s : State) : (s.warnIf b k).hdrTlen = s.hdrTlen := by cases b <;> rfl

@[simp] theorem State.warnIf_tlen (b : Bool) (k : Warning) (s : State) : (s.warnIf b k).tlen = s.tlen := by cases b <;> rfl

@[simp] theorem State.warnIf_tbl (b : Bool) (k : Warning) (s : State) : (s.warnIf b k).tbl = s.tbl := by cases b <;> rfl

@[simp] theorem State.warnIf_produced (b : Bool) (k : Warning) (s : State) : (s.warnIf b k).produced = s.produced := by cases b <;> rfl

@[simp] theorem State.warnIf_chan (b : Bool) (k : Warning) (s : State) : (s.warnIf b k).chan = s.chan := by cases b <;> rfl

@[simp] theorem State.warnIf_acc (b : Bool) (k : Warning) (s : State) : (s.warnIf b k).acc = s.acc := by cases b <;> rfl

@[simp] theorem State.warnIf_accPos (b : Bool) (k : Warning) (s : State) : (s.warnIf b k).accPos = s.accPos := by cases b <;> rfl

@[simp] theorem State.warnIf_sink (b : Bool) (k : Warning) (s : State) : (s.warnIf b k).sink = s.sink := by cases b <;> rfl

@[simp] theorem State.warnIf_seq (b : Bool) (k : Warning) (s : State) : (s.warnIf b k).seq = s.seq := by cases b <;> rfl

@[simp] theorem State.warnIf_out (b : Bool) (k : Warning) (s : State) : (s.warnIf b k).out = s.out := by cases b <;> rfl

@[simp] theorem State.warnIf_blkNum (b : Bool) (k : Warning) (s : State) : (s.warnIf b k).blkNum = s.blkNum := by cases b <;> rfl

@[simp] theorem State.warnIf_upgraded (b : Bool) (k : Warning) (s : State) : (s.warnIf b k).upgraded = s.upgraded := by cases b <;> rfl

@[simp] theorem State.warnIf_lineBuf (b : Bool) (k : Warning) (s : State) : (s.warnIf b k).lineBuf = s.lineBuf := by cases b <;> rfl

@[simp] theorem State.warnIf_encBuf (b : Bool) (k : Warning) (s : State) : (s.warnIf b k).encBuf = s.encBuf := by cases b <;> rfl

@[simp] theorem State.warnIf_phase (b : Bool) (k : Warning) (s : State) : (s.warnIf b k).phase = s.phase := by cases b <;> rfl

@[simp] theorem State.warnIf_encPage (b : Bool) (k : Warning) (s : State) : (s.warnIf b k).encPage = s.encPage := by cases b <;> rfl

@[simp] theorem State.warnIf_encChan (b : Bool) (k : Warning) (s : State) : (s.warnIf b k).encChan = s.encChan := by cases b <;> rfl

@[simp] theorem State.warnIf_encLine (b : Bool) (k : Warning) (s : State) : (s.warnIf b k).encLine = s.encLine := by cases b <;> rfl

@[simp] theorem State.warnIf_encByte (b : Bool) (k : Warning) (s : State) : (s.warnIf b k).encByte = s.encByte := by cases b <;> rfl

/-! ### `State.resumeLoop` -/

@[simp] theorem State.resumeLoop_cfg (s : State) : (s.resumeLoop).cfg = s.cfg := rfl

@[simp] theorem State.resumeLoop_inp (s : State) : (s.resumeLoop).inp = s.inp := rfl

@[simp] theorem State.resumeLoop_job (s : State) : (s.resumeLoop).job = s.job := rfl

@[simp] theorem State.resumeLoop_runState (s : State) : (s.resumeLoop).runState = s.runState := rfl

@[simp] theorem State.resumeLoop_exit (s : State) : (s.resumeLoop).exit = s.exit := rfl

@[simp] theorem State.resumeLoop_fcode (s : State) : (s.resumeLoop).fcode = s.fcode := rfl

@[simp] theorem State.resumeLoop_finfo (s : State) : (s.resumeLoop).finfo = s.finfo := rfl

@[simp] theorem State.resumeLoop_fpos (s : State) : (s.resumeLoop).fpos = s.fpos := rfl

@[simp] theorem State.resumeLoop_fblk (s : State) : (s.resumeLoop).fblk = s.fblk := rfl

@[simp] theorem State.resumeLoop_nblk (s : State) : (s.resumeLoop).nblk = s.nblk := rfl

@[simp] theorem State.resumeLoop_nblkFatal (s : State) : (s.resumeLoop).nblkFatal = s.nblkFatal := rfl

@[simp] theorem State.resumeLoop_warns (s : State) : (s.resumeLoop).warns = s.warns := rfl

@[simp] theorem State.resumeLoop_model (s : State) : (s.resumeLoop).model = s.model := rfl

@[simp] theorem State.resumeLoop_w (s : State) : (s.resumeLoop).w = s.w := rfl

@[simp] theorem State.resumeLoop_height (s : State) : (s.resumeLoop).height = s.height := rfl

@[simp] theorem State.resumeLoop_colorMode (s : State) : (s.resumeLoop).colorMode = s.colorMode := rfl

@[simp] theorem State.resumeLoop_ip (s : State) : (s.resumeLoop).ip = s.ip := rfl

@[simp] theorem State.resumeLoop_ctx (s : State) : (s.resumeLoop).ctx = .frame := rfl

@[simp] theorem State.resumeLoop_d (s : State) : (s.resumeLoop).d = s.d := rfl

@[simp] theorem State.resumeLoop_cur (s : State) : (s.resumeLoop).cur = s.cur := rfl

@[simp] theorem State.resumeLoop_linesLeft (s : State) : (s.resumeLoop).linesLeft = s.linesLeft := rfl

@[simp] theorem State.resumeLoop_lstart (s : State) : (s.resumeLoop).lstart = s.lstart := rfl

@[simp] theorem State.resumeLoop_padRow (s : State) : (s.resumeLoop).padRow = s.padRow := rfl

@[simp] theorem State.resumeLoop_padLen (s : State) : (s.resumeLoop).padLen = s.padLen := rfl

@[simp] theorem State.resumeLoop_hdrTlen (s : State) : (s.resumeLoop).hdrTlen = s.hdrTlen := rfl

@[simp] theorem State.resumeLoop_tlen (s : State) : (s.resumeLoop).tlen = s.tlen := rfl

@[simp] theorem State.resumeLoop_tbl (s : State) : (s.resumeLoop).tbl = s.tbl := rfl

@[simp] theorem State.resumeLoop_produced (s : State) : (s.resumeLoop).produced = s.produced := rfl

@[simp] theorem State.resumeLoop_chan (s : State) : (s.resumeLoop).chan = s.chan := rfl

@[simp] theorem State.resumeLoop_acc (s : State) : (s.resumeLoop).acc = s.acc := rfl

@[simp] theorem State.resumeLoop_accPos (s : State) : (s.resumeLoop).accPos = s.accPos := rfl

@[simp] theorem State.resumeLoop_sink (s : State) : (s.resumeLoop).sink = s.sink := rfl

@[simp] theorem State.resumeLoop_seq (s : State) : (s.resumeLoop).seq = s.seq := rfl

@[simp] theorem State.resumeLoop_out (s : State) : (s.resumeLoop).out = s.out := rfl

@[simp] theorem State.resumeLoop_blkNum (s : State) : (s.resumeLoop).blkNum = s.blkNum := rfl

@[simp] theorem State.resumeLoop_upgraded (s : State) : (s.resumeLoop).upgraded = s.upgraded := rfl

@[simp] theorem State.resumeLoop_lineBuf (s : State) : (s.resumeLoop).lineBuf = s.lineBuf := rfl

@[simp] theorem State.resumeLoop_encBuf (s : State) : (s.resumeLoop).encBuf = s.encBuf := rfl

@[simp] theorem State.resumeLoop_phase (s : State) : (s.resumeLoop).phase = s.phase := rfl

@[simp] theorem State.resumeLoop_encPage (s : State) : (s.resumeLoop).encPage = s.encPage := rfl

@[simp] theorem State.resumeLoop_encChan (s : State) : (s.resumeLoop).encChan = s.encChan := rfl

@[simp] theorem State.resumeLoop_encLine (s : State) : (s.resumeLoop).encLine = s.encLine := rfl

@[simp] theorem State.resumeLoop_encByte (s : State) : (s.resumeLoop).encByte = s.encByte := rfl

/-! ### `State.recordFault` -/

@[simp] theorem State.recordFault_cfg (t : Trap) (s : State) : (s.recordFault t).cfg = s.cfg := by unfold State.recordFault; split <;> rfl

@[simp] theorem State.recordFault_inp (t : Trap) (s : State) : (s.recordFault t).inp = s.inp := by unfold State.recordFault; split <;> rfl

@[simp] theorem State.recordFault_job (t : Trap) (s : State) : (s.recordFault t).job = s.job := by unfold State.recordFault; split <;> rfl

@[simp] theorem State.recordFault_runState (t : Trap) (s : State) : (s.recordFault t).runState = s.runState := by unfold State.recordFault; split <;> rfl

@[simp] theorem State.recordFault_exit (t : Trap) (s : State) : (s.recordFault t).exit = s.exit := by unfold State.recordFault; split <;> rfl

@[simp] theorem State.recordFault_nblk (t : Trap) (s : State) : (s.recordFault t).nblk = s.nblk := by unfold State.recordFault; split <;> rfl

@[simp] theorem State.recordFault_nblkFatal (t : Trap) (s : State) : (s.recordFault t).nblkFatal = s.nblkFatal := by unfold State.recordFault; split <;> rfl

@[simp] theorem State.recordFault_warns (t : Trap) (s : State) : (s.recordFault t).warns = s.warns := by unfold State.recordFault; split <;> rfl

@[simp] theorem State.recordFault_model (t : Trap) (s : State) : (s.recordFault t).model = s.model := by unfold State.recordFault; split <;> rfl

@[simp] theorem State.recordFault_w (t : Trap) (s : State) : (s.recordFault t).w = s.w := by unfold State.recordFault; split <;> rfl

@[simp] theorem State.recordFault_height (t : Trap) (s : State) : (s.recordFault t).height = s.height := by unfold State.recordFault; split <;> rfl

@[simp] theorem State.recordFault_colorMode (t : Trap) (s : State) : (s.recordFault t).colorMode = s.colorMode := by unfold State.recordFault; split <;> rfl

@[simp] theorem State.recordFault_ip (t : Trap) (s : State) : (s.recordFault t).ip = s.ip := by unfold State.recordFault; split <;> rfl

@[simp] theorem State.recordFault_ctx (t : Trap) (s : State) : (s.recordFault t).ctx = s.ctx := by unfold State.recordFault; split <;> rfl

@[simp] theorem State.recordFault_d (t : Trap) (s : State) : (s.recordFault t).d = s.d := by unfold State.recordFault; split <;> rfl

@[simp] theorem State.recordFault_cur (t : Trap) (s : State) : (s.recordFault t).cur = s.cur := by unfold State.recordFault; split <;> rfl

@[simp] theorem State.recordFault_linesLeft (t : Trap) (s : State) : (s.recordFault t).linesLeft = s.linesLeft := by unfold State.recordFault; split <;> rfl

@[simp] theorem State.recordFault_lstart (t : Trap) (s : State) : (s.recordFault t).lstart = s.lstart := by unfold State.recordFault; split <;> rfl

@[simp] theorem State.recordFault_padRow (t : Trap) (s : State) : (s.recordFault t).padRow = s.padRow := by unfold State.recordFault; split <;> rfl

@[simp] theorem State.recordFault_padLen (t : Trap) (s : State) : (s.recordFault t).padLen = s.padLen := by unfold State.recordFault; split <;> rfl

@[simp] theorem State.recordFault_hdrTlen (t : Trap) (s : State) : (s.recordFault t).hdrTlen = s.hdrTlen := by unfold State.recordFault; split <;> rfl

@[simp] theorem State.recordFault_tlen (t : Trap) (s : State) : (s.recordFault t).tlen = s.tlen := by unfold State.recordFault; split <;> rfl

@[simp] theorem State.recordFault_tbl (t : Trap) (s : State) : (s.recordFault t).tbl = s.tbl := by unfold State.recordFault; split <;> rfl

@[simp] theorem State.recordFault_produced (t : Trap) (s : State) : (s.recordFault t).produced = s.produced := by unfold State.recordFault; split <;> rfl

@[simp] theorem State.recordFault_chan (t : Trap) (s : State) : (s.recordFault t).chan = s.chan := by unfold State.recordFault; split <;> rfl

@[simp] theorem State.recordFault_acc (t : Trap) (s : State) : (s.recordFault t).acc = s.acc := by unfold State.recordFault; split <;> rfl

@[simp] theorem State.recordFault_accPos (t : Trap) (s : State) : (s.recordFault t).accPos = s.accPos := by unfold State.recordFault; split <;> rfl

@[simp] theorem State.recordFault_sink (t : Trap) (s : State) : (s.recordFault t).sink = s.sink := by unfold State.recordFault; split <;> rfl

@[simp] theorem State.recordFault_seq (t : Trap) (s : State) : (s.recordFault t).seq = s.seq := by unfold State.recordFault; split <;> rfl

@[simp] theorem State.recordFault_out (t : Trap) (s : State) : (s.recordFault t).out = s.out := by unfold State.recordFault; split <;> rfl

@[simp] theorem State.recordFault_blkNum (t : Trap) (s : State) : (s.recordFault t).blkNum = s.blkNum := by unfold State.recordFault; split <;> rfl

@[simp] theorem State.recordFault_upgraded (t : Trap) (s : State) : (s.recordFault t).upgraded = s.upgraded := by unfold State.recordFault; split <;> rfl

@[simp] theorem State.recordFault_lineBuf (t : Trap) (s : State) : (s.recordFault t).lineBuf = s.lineBuf := by unfold State.recordFault; split <;> rfl

@[simp] theorem State.recordFault_encBuf (t : Trap) (s : State) : (s.recordFault t).encBuf = s.encBuf := by unfold State.recordFault; split <;> rfl

@[simp] theorem State.recordFault_phase (t : Trap) (s : State) : (s.recordFault t).phase = s.phase := by unfold State.recordFault; split <;> rfl

@[simp] theorem State.recordFault_encPage (t : Trap) (s : State) : (s.recordFault t).encPage = s.encPage := by unfold State.recordFault; split <;> rfl

@[simp] theorem State.recordFault_encChan (t : Trap) (s : State) : (s.recordFault t).encChan = s.encChan := by unfold State.recordFault; split <;> rfl

@[simp] theorem State.recordFault_encLine (t : Trap) (s : State) : (s.recordFault t).encLine = s.encLine := by unfold State.recordFault; split <;> rfl

@[simp] theorem State.recordFault_encByte (t : Trap) (s : State) : (s.recordFault t).encByte = s.encByte := by unfold State.recordFault; split <;> rfl

/-! ### `State.raise` -/

@[simp] theorem State.raise_cfg (t : Trap) (s : State) : (s.raise t).cfg = s.cfg := by unfold State.raise; cases t.runFatal <;> simp

@[simp] theorem State.raise_inp (t : Trap) (s : State) : (s.raise t).inp = s.inp := by unfold State.raise; cases t.runFatal <;> simp

@[simp] theorem State.raise_job (t : Trap) (s : State) : (s.raise t).job = s.job := by unfold State.raise; cases t.runFatal <;> simp

@[simp] theorem State.raise_runState (t : Trap) (s : State) : (s.raise t).runState = if t.runFatal then .halt else s.runState := by unfold State.raise; cases t.runFatal <;> simp

@[simp] theorem State.raise_exit (t : Trap) (s : State) : (s.raise t).exit = if t.runFatal then .nonzero else s.exit := by unfold State.raise; cases t.runFatal <;> simp

@[simp] theorem State.raise_fcode (t : Trap) (s : State) : (s.raise t).fcode = (s.recordFault t).fcode := by unfold State.raise; cases t.runFatal <;> simp

@[simp] theorem State.raise_finfo (t : Trap) (s : State) : (s.raise t).finfo = (s.recordFault t).finfo := by unfold State.raise; cases t.runFatal <;> simp

@[simp] theorem State.raise_fpos (t : Trap) (s : State) : (s.raise t).fpos = (s.recordFault t).fpos := by unfold State.raise; cases t.runFatal <;> simp

@[simp] theorem State.raise_fblk (t : Trap) (s : State) : (s.raise t).fblk = (s.recordFault t).fblk := by unfold State.raise; cases t.runFatal <;> simp

@[simp] theorem State.raise_nblk (t : Trap) (s : State) : (s.raise t).nblk = s.nblk := by unfold State.raise; cases t.runFatal <;> simp

@[simp] theorem State.raise_nblkFatal (t : Trap) (s : State) : (s.raise t).nblkFatal = if t.runFatal then s.nblkFatal else s.nblkFatal + 1 := by unfold State.raise; cases t.runFatal <;> simp

@[simp] theorem State.raise_warns (t : Trap) (s : State) : (s.raise t).warns = s.warns := by unfold State.raise; cases t.runFatal <;> simp

@[simp] theorem State.raise_model (t : Trap) (s : State) : (s.raise t).model = s.model := by unfold State.raise; cases t.runFatal <;> simp

@[simp] theorem State.raise_w (t : Trap) (s : State) : (s.raise t).w = s.w := by unfold State.raise; cases t.runFatal <;> simp

@[simp] theorem State.raise_height (t : Trap) (s : State) : (s.raise t).height = s.height := by unfold State.raise; cases t.runFatal <;> simp

@[simp] theorem State.raise_colorMode (t : Trap) (s : State) : (s.raise t).colorMode = s.colorMode := by unfold State.raise; cases t.runFatal <;> simp

@[simp] theorem State.raise_ip (t : Trap) (s : State) : (s.raise t).ip = s.ip := by unfold State.raise; cases t.runFatal <;> simp

@[simp] theorem State.raise_ctx (t : Trap) (s : State) : (s.raise t).ctx = if t.runFatal then s.ctx else .frame := by unfold State.raise; cases t.runFatal <;> simp

@[simp] theorem State.raise_d (t : Trap) (s : State) : (s.raise t).d = s.d := by unfold State.raise; cases t.runFatal <;> simp

@[simp] theorem State.raise_cur (t : Trap) (s : State) : (s.raise t).cur = s.cur := by unfold State.raise; cases t.runFatal <;> simp

@[simp] theorem State.raise_linesLeft (t : Trap) (s : State) : (s.raise t).linesLeft = s.linesLeft := by unfold State.raise; cases t.runFatal <;> simp

@[simp] theorem State.raise_lstart (t : Trap) (s : State) : (s.raise t).lstart = s.lstart := by unfold State.raise; cases t.runFatal <;> simp

@[simp] theorem State.raise_padRow (t : Trap) (s : State) : (s.raise t).padRow = s.padRow := by unfold State.raise; cases t.runFatal <;> simp

@[simp] theorem State.raise_padLen (t : Trap) (s : State) : (s.raise t).padLen = s.padLen := by unfold State.raise; cases t.runFatal <;> simp

@[simp] theorem State.raise_hdrTlen (t : Trap) (s : State) : (s.raise t).hdrTlen = s.hdrTlen := by unfold State.raise; cases t.runFatal <;> simp

@[simp] theorem State.raise_tlen (t : Trap) (s : State) : (s.raise t).tlen = s.tlen := by unfold State.raise; cases t.runFatal <;> simp

@[simp] theorem State.raise_tbl (t : Trap) (s : State) : (s.raise t).tbl = s.tbl := by unfold State.raise; cases t.runFatal <;> simp

@[simp] theorem State.raise_produced (t : Trap) (s : State) : (s.raise t).produced = s.produced := by unfold State.raise; cases t.runFatal <;> simp

@[simp] theorem State.raise_chan (t : Trap) (s : State) : (s.raise t).chan = s.chan := by unfold State.raise; cases t.runFatal <;> simp

@[simp] theorem State.raise_acc (t : Trap) (s : State) : (s.raise t).acc = s.acc := by unfold State.raise; cases t.runFatal <;> simp

@[simp] theorem State.raise_accPos (t : Trap) (s : State) : (s.raise t).accPos = s.accPos := by unfold State.raise; cases t.runFatal <;> simp

@[simp] theorem State.raise_sink (t : Trap) (s : State) : (s.raise t).sink = s.sink := by unfold State.raise; cases t.runFatal <;> simp

@[simp] theorem State.raise_seq (t : Trap) (s : State) : (s.raise t).seq = s.seq := by unfold State.raise; cases t.runFatal <;> simp

@[simp] theorem State.raise_out (t : Trap) (s : State) : (s.raise t).out = s.out := by unfold State.raise; cases t.runFatal <;> simp

@[simp] theorem State.raise_blkNum (t : Trap) (s : State) : (s.raise t).blkNum = s.blkNum := by unfold State.raise; cases t.runFatal <;> simp

@[simp] theorem State.raise_upgraded (t : Trap) (s : State) : (s.raise t).upgraded = s.upgraded := by unfold State.raise; cases t.runFatal <;> simp

@[simp] theorem State.raise_lineBuf (t : Trap) (s : State) : (s.raise t).lineBuf = s.lineBuf := by unfold State.raise; cases t.runFatal <;> simp

@[simp] theorem State.raise_encBuf (t : Trap) (s : State) : (s.raise t).encBuf = s.encBuf := by unfold State.raise; cases t.runFatal <;> simp

@[simp] theorem State.raise_phase (t : Trap) (s : State) : (s.raise t).phase = s.phase := by unfold State.raise; cases t.runFatal <;> simp

@[simp] theorem State.raise_encPage (t : Trap) (s : State) : (s.raise t).encPage = s.encPage := by unfold State.raise; cases t.runFatal <;> simp

@[simp] theorem State.raise_encChan (t : Trap) (s : State) : (s.raise t).encChan = s.encChan := by unfold State.raise; cases t.runFatal <;> simp

@[simp] theorem State.raise_encLine (t : Trap) (s : State) : (s.raise t).encLine = s.encLine := by unfold State.raise; cases t.runFatal <;> simp

@[simp] theorem State.raise_encByte (t : Trap) (s : State) : (s.raise t).encByte = s.encByte := by unfold State.raise; cases t.runFatal <;> simp

/-! ### `residue` -/

@[simp] theorem State.residue_cfg (s : State) : (residue s).cfg = s.cfg := by by_cases h : s.accPos = 0 <;> cases hc : s.cfg.residualFlush <;> simp [residue, h, hc]

@[simp] theorem State.residue_inp (s : State) : (residue s).inp = s.inp := by by_cases h : s.accPos = 0 <;> cases hc : s.cfg.residualFlush <;> simp [residue, h, hc]

@[simp] theorem State.residue_job (s : State) : (residue s).job = s.job := by by_cases h : s.accPos = 0 <;> cases hc : s.cfg.residualFlush <;> simp [residue, h, hc]

@[simp] theorem State.residue_runState (s : State) : (residue s).runState = s.runState := by by_cases h : s.accPos = 0 <;> cases hc : s.cfg.residualFlush <;> simp [residue, h, hc]

@[simp] theorem State.residue_exit (s : State) : (residue s).exit = s.exit := by by_cases h : s.accPos = 0 <;> cases hc : s.cfg.residualFlush <;> simp [residue, h, hc]

@[simp] theorem State.residue_fcode (s : State) : (residue s).fcode = s.fcode := by by_cases h : s.accPos = 0 <;> cases hc : s.cfg.residualFlush <;> simp [residue, h, hc]

@[simp] theorem State.residue_finfo (s : State) : (residue s).finfo = s.finfo := by by_cases h : s.accPos = 0 <;> cases hc : s.cfg.residualFlush <;> simp [residue, h, hc]

@[simp] theorem State.residue_fpos (s : State) : (residue s).fpos = s.fpos := by by_cases h : s.accPos = 0 <;> cases hc : s.cfg.residualFlush <;> simp [residue, h, hc]

@[simp] theorem State.residue_fblk (s : State) : (residue s).fblk = s.fblk := by by_cases h : s.accPos = 0 <;> cases hc : s.cfg.residualFlush <;> simp [residue, h, hc]

@[simp] theorem State.residue_nblk (s : State) : (residue s).nblk = s.nblk := by by_cases h : s.accPos = 0 <;> cases hc : s.cfg.residualFlush <;> simp [residue, h, hc]

@[simp] theorem State.residue_nblkFatal (s : State) : (residue s).nblkFatal = s.nblkFatal := by by_cases h : s.accPos = 0 <;> cases hc : s.cfg.residualFlush <;> simp [residue, h, hc]

@[simp] theorem State.residue_warns (s : State) : (residue s).warns = if s.accPos = 0 then s.warns else s.warns.raise .residual := by by_cases h : s.accPos = 0 <;> cases hc : s.cfg.residualFlush <;> simp [residue, h, hc]

@[simp] theorem State.residue_model (s : State) : (residue s).model = s.model := by by_cases h : s.accPos = 0 <;> cases hc : s.cfg.residualFlush <;> simp [residue, h, hc]

@[simp] theorem State.residue_w (s : State) : (residue s).w = s.w := by by_cases h : s.accPos = 0 <;> cases hc : s.cfg.residualFlush <;> simp [residue, h, hc]

@[simp] theorem State.residue_height (s : State) : (residue s).height = s.height := by by_cases h : s.accPos = 0 <;> cases hc : s.cfg.residualFlush <;> simp [residue, h, hc]

@[simp] theorem State.residue_colorMode (s : State) : (residue s).colorMode = s.colorMode := by by_cases h : s.accPos = 0 <;> cases hc : s.cfg.residualFlush <;> simp [residue, h, hc]

@[simp] theorem State.residue_ip (s : State) : (residue s).ip = s.ip := by by_cases h : s.accPos = 0 <;> cases hc : s.cfg.residualFlush <;> simp [residue, h, hc]

@[simp] theorem State.residue_ctx (s : State) : (residue s).ctx = s.ctx := by by_cases h : s.accPos = 0 <;> cases hc : s.cfg.residualFlush <;> simp [residue, h, hc]

@[simp] theorem State.residue_d (s : State) : (residue s).d = s.d := by by_cases h : s.accPos = 0 <;> cases hc : s.cfg.residualFlush <;> simp [residue, h, hc]

@[simp] theorem State.residue_cur (s : State) : (residue s).cur = s.cur := by by_cases h : s.accPos = 0 <;> cases hc : s.cfg.residualFlush <;> simp [residue, h, hc]

@[simp] theorem State.residue_linesLeft (s : State) : (residue s).linesLeft = s.linesLeft := by by_cases h : s.accPos = 0 <;> cases hc : s.cfg.residualFlush <;> simp [residue, h, hc]

@[simp] theorem State.residue_lstart (s : State) : (residue s).lstart = s.lstart := by by_cases h : s.accPos = 0 <;> cases hc : s.cfg.residualFlush <;> simp [residue, h, hc]

@[simp] theorem State.residue_padRow (s : State) : (residue s).padRow = s.padRow := by by_cases h : s.accPos = 0 <;> cases hc : s.cfg.residualFlush <;> simp [residue, h, hc]

@[simp] theorem State.residue_padLen (s : State) : (residue s).padLen = s.padLen := by by_cases h : s.accPos = 0 <;> cases hc : s.cfg.residualFlush <;> simp [residue, h, hc]

@[simp] theorem State.residue_hdrTlen (s : State) : (residue s).hdrTlen = s.hdrTlen := by by_cases h : s.accPos = 0 <;> cases hc : s.cfg.residualFlush <;> simp [residue, h, hc]

@[simp] theorem State.residue_tlen (s : State) : (residue s).tlen = s.tlen := by by_cases h : s.accPos = 0 <;> cases hc : s.cfg.residualFlush <;> simp [residue, h, hc]

@[simp] theorem State.residue_tbl (s : State) : (residue s).tbl = s.tbl := by by_cases h : s.accPos = 0 <;> cases hc : s.cfg.residualFlush <;> simp [residue, h, hc]

@[simp] theorem State.residue_produced (s : State) : (residue s).produced = s.produced := by by_cases h : s.accPos = 0 <;> cases hc : s.cfg.residualFlush <;> simp [residue, h, hc]

@[simp] theorem State.residue_chan (s : State) : (residue s).chan = s.chan := by by_cases h : s.accPos = 0 <;> cases hc : s.cfg.residualFlush <;> simp [residue, h, hc]

@[simp] theorem State.residue_acc (s : State) : (residue s).acc = s.acc := by by_cases h : s.accPos = 0 <;> cases hc : s.cfg.residualFlush <;> simp [residue, h, hc]

@[simp] theorem State.residue_accPos (s : State) : (residue s).accPos = s.accPos := by by_cases h : s.accPos = 0 <;> cases hc : s.cfg.residualFlush <;> simp [residue, h, hc]

@[simp] theorem State.residue_seq (s : State) : (residue s).seq = s.seq := by by_cases h : s.accPos = 0 <;> cases hc : s.cfg.residualFlush <;> simp [residue, h, hc]

@[simp] theorem State.residue_out (s : State) : (residue s).out = s.out := by by_cases h : s.accPos = 0 <;> cases hc : s.cfg.residualFlush <;> simp [residue, h, hc]

@[simp] theorem State.residue_blkNum (s : State) : (residue s).blkNum = s.blkNum := by by_cases h : s.accPos = 0 <;> cases hc : s.cfg.residualFlush <;> simp [residue, h, hc]

@[simp] theorem State.residue_upgraded (s : State) : (residue s).upgraded = s.upgraded := by by_cases h : s.accPos = 0 <;> cases hc : s.cfg.residualFlush <;> simp [residue, h, hc]

@[simp] theorem State.residue_lineBuf (s : State) : (residue s).lineBuf = s.lineBuf := by by_cases h : s.accPos = 0 <;> cases hc : s.cfg.residualFlush <;> simp [residue, h, hc]

@[simp] theorem State.residue_encBuf (s : State) : (residue s).encBuf = s.encBuf := by by_cases h : s.accPos = 0 <;> cases hc : s.cfg.residualFlush <;> simp [residue, h, hc]

@[simp] theorem State.residue_phase (s : State) : (residue s).phase = s.phase := by by_cases h : s.accPos = 0 <;> cases hc : s.cfg.residualFlush <;> simp [residue, h, hc]

@[simp] theorem State.residue_encPage (s : State) : (residue s).encPage = s.encPage := by by_cases h : s.accPos = 0 <;> cases hc : s.cfg.residualFlush <;> simp [residue, h, hc]

@[simp] theorem State.residue_encChan (s : State) : (residue s).encChan = s.encChan := by by_cases h : s.accPos = 0 <;> cases hc : s.cfg.residualFlush <;> simp [residue, h, hc]

@[simp] theorem State.residue_encLine (s : State) : (residue s).encLine = s.encLine := by by_cases h : s.accPos = 0 <;> cases hc : s.cfg.residualFlush <;> simp [residue, h, hc]

@[simp] theorem State.residue_encByte (s : State) : (residue s).encByte = s.encByte := by by_cases h : s.accPos = 0 <;> cases hc : s.cfg.residualFlush <;> simp [residue, h, hc]

/-! ### `emit` -/

@[simp] theorem State.emit_cfg (bs : List Byte) (s : State) : (emit bs s).cfg = s.cfg := rfl

@[simp] theorem State.emit_inp (bs : List Byte) (s : State) : (emit bs s).inp = s.inp := rfl

@[simp] theorem State.emit_job (bs : List Byte) (s : State) : (emit bs s).job = s.job := rfl

@[simp] theorem State.emit_runState (bs : List Byte) (s : State) : (emit bs s).runState = s.runState := rfl

@[simp] theorem State.emit_exit (bs : List Byte) (s : State) : (emit bs s).exit = s.exit := rfl

@[simp] theorem State.emit_fcode (bs : List Byte) (s : State) : (emit bs s).fcode = s.fcode := rfl

@[simp] theorem State.emit_finfo (bs : List Byte) (s : State) : (emit bs s).finfo = s.finfo := rfl

@[simp] theorem State.emit_fpos (bs : List Byte) (s : State) : (emit bs s).fpos = s.fpos := rfl

@[simp] theorem State.emit_fblk (bs : List Byte) (s : State) : (emit bs s).fblk = s.fblk := rfl

@[simp] theorem State.emit_nblk (bs : List Byte) (s : State) : (emit bs s).nblk = s.nblk := rfl

@[simp] theorem State.emit_nblkFatal (bs : List Byte) (s : State) : (emit bs s).nblkFatal = s.nblkFatal := rfl

@[simp] theorem State.emit_warns (bs : List Byte) (s : State) : (emit bs s).warns = s.warns := rfl

@[simp] theorem State.emit_model (bs : List Byte) (s : State) : (emit bs s).model = s.model := rfl

@[simp] theorem State.emit_w (bs : List Byte) (s : State) : (emit bs s).w = s.w := rfl

@[simp] theorem State.emit_height (bs : List Byte) (s : State) : (emit bs s).height = s.height := rfl

@[simp] theorem State.emit_colorMode (bs : List Byte) (s : State) : (emit bs s).colorMode = s.colorMode := rfl

@[simp] theorem State.emit_ip (bs : List Byte) (s : State) : (emit bs s).ip = s.ip := rfl

@[simp] theorem State.emit_ctx (bs : List Byte) (s : State) : (emit bs s).ctx = s.ctx := rfl

@[simp] theorem State.emit_d (bs : List Byte) (s : State) : (emit bs s).d = s.d := rfl

@[simp] theorem State.emit_cur (bs : List Byte) (s : State) : (emit bs s).cur = s.cur := rfl

@[simp] theorem State.emit_linesLeft (bs : List Byte) (s : State) : (emit bs s).linesLeft = s.linesLeft := rfl

@[simp] theorem State.emit_lstart (bs : List Byte) (s : State) : (emit bs s).lstart = s.lstart := rfl

@[simp] theorem State.emit_padRow (bs : List Byte) (s : State) : (emit bs s).padRow = s.padRow := rfl

@[simp] theorem State.emit_padLen (bs : List Byte) (s : State) : (emit bs s).padLen = s.padLen := rfl

@[simp] theorem State.emit_hdrTlen (bs : List Byte) (s : State) : (emit bs s).hdrTlen = s.hdrTlen := rfl

@[simp] theorem State.emit_tlen (bs : List Byte) (s : State) : (emit bs s).tlen = s.tlen := rfl

@[simp] theorem State.emit_tbl (bs : List Byte) (s : State) : (emit bs s).tbl = s.tbl := rfl

@[simp] theorem State.emit_produced (bs : List Byte) (s : State) : (emit bs s).produced = s.produced := rfl

@[simp] theorem State.emit_chan (bs : List Byte) (s : State) : (emit bs s).chan = s.chan := rfl

@[simp] theorem State.emit_acc (bs : List Byte) (s : State) : (emit bs s).acc = s.acc := rfl

@[simp] theorem State.emit_accPos (bs : List Byte) (s : State) : (emit bs s).accPos = s.accPos := rfl

@[simp] theorem State.emit_sink (bs : List Byte) (s : State) : (emit bs s).sink = s.sink := rfl

@[simp] theorem State.emit_seq (bs : List Byte) (s : State) : (emit bs s).seq = s.seq := rfl

@[simp] theorem State.emit_out (bs : List Byte) (s : State) : (emit bs s).out = s.out ++ bs := rfl

@[simp] theorem State.emit_blkNum (bs : List Byte) (s : State) : (emit bs s).blkNum = s.blkNum := rfl

@[simp] theorem State.emit_upgraded (bs : List Byte) (s : State) : (emit bs s).upgraded = s.upgraded := rfl

@[simp] theorem State.emit_lineBuf (bs : List Byte) (s : State) : (emit bs s).lineBuf = s.lineBuf := rfl

@[simp] theorem State.emit_encBuf (bs : List Byte) (s : State) : (emit bs s).encBuf = s.encBuf := rfl

@[simp] theorem State.emit_phase (bs : List Byte) (s : State) : (emit bs s).phase = s.phase := rfl

@[simp] theorem State.emit_encPage (bs : List Byte) (s : State) : (emit bs s).encPage = s.encPage := rfl

@[simp] theorem State.emit_encChan (bs : List Byte) (s : State) : (emit bs s).encChan = s.encChan := rfl

@[simp] theorem State.emit_encLine (bs : List Byte) (s : State) : (emit bs s).encLine = s.encLine := rfl

@[simp] theorem State.emit_encByte (bs : List Byte) (s : State) : (emit bs s).encByte = s.encByte := rfl

/-! ### `State.setCur` -/

@[simp] theorem State.setCur_cfg (n : Nat) (s : State) : (s.setCur n).cfg = s.cfg := rfl

@[simp] theorem State.setCur_inp (n : Nat) (s : State) : (s.setCur n).inp = s.inp := rfl

@[simp] theorem State.setCur_job (n : Nat) (s : State) : (s.setCur n).job = s.job := rfl

@[simp] theorem State.setCur_runState (n : Nat) (s : State) : (s.setCur n).runState = s.runState := rfl

@[simp] theorem State.setCur_exit (n : Nat) (s : State) : (s.setCur n).exit = s.exit := rfl

@[simp] theorem State.setCur_fcode (n : Nat) (s : State) : (s.setCur n).fcode = s.fcode := rfl

@[simp] theorem State.setCur_finfo (n : Nat) (s : State) : (s.setCur n).finfo = s.finfo := rfl

@[simp] theorem State.setCur_fpos (n : Nat) (s : State) : (s.setCur n).fpos = s.fpos := rfl

@[simp] theorem State.setCur_fblk (n : Nat) (s : State) : (s.setCur n).fblk = s.fblk := rfl

@[simp] theorem State.setCur_nblk (n : Nat) (s : State) : (s.setCur n).nblk = s.nblk := rfl

@[simp] theorem State.setCur_nblkFatal (n : Nat) (s : State) : (s.setCur n).nblkFatal = s.nblkFatal := rfl

@[simp] theorem State.setCur_warns (n : Nat) (s : State) : (s.setCur n).warns = s.warns := rfl

@[simp] theorem State.setCur_model (n : Nat) (s : State) : (s.setCur n).model = s.model := rfl

@[simp] theorem State.setCur_w (n : Nat) (s : State) : (s.setCur n).w = s.w := rfl

@[simp] theorem State.setCur_height (n : Nat) (s : State) : (s.setCur n).height = s.height := rfl

@[simp] theorem State.setCur_colorMode (n : Nat) (s : State) : (s.setCur n).colorMode = s.colorMode := rfl

@[simp] theorem State.setCur_ip (n : Nat) (s : State) : (s.setCur n).ip = s.ip := rfl

@[simp] theorem State.setCur_ctx (n : Nat) (s : State) : (s.setCur n).ctx = s.ctx := rfl

@[simp] theorem State.setCur_d (n : Nat) (s : State) : (s.setCur n).d = s.d := rfl

@[simp] theorem State.setCur_cur (n : Nat) (s : State) : (s.setCur n).cur = n := rfl

@[simp] theorem State.setCur_linesLeft (n : Nat) (s : State) : (s.setCur n).linesLeft = s.linesLeft := rfl

@[simp] theorem State.setCur_lstart (n : Nat) (s : State) : (s.setCur n).lstart = s.lstart := rfl

@[simp] theorem State.setCur_padRow (n : Nat) (s : State) : (s.setCur n).padRow = s.padRow := rfl

@[simp] theorem State.setCur_padLen (n : Nat) (s : State) : (s.setCur n).padLen = s.padLen := rfl

@[simp] theorem State.setCur_hdrTlen (n : Nat) (s : State) : (s.setCur n).hdrTlen = s.hdrTlen := rfl

@[simp] theorem State.setCur_tlen (n : Nat) (s : State) : (s.setCur n).tlen = s.tlen := rfl

@[simp] theorem State.setCur_tbl (n : Nat) (s : State) : (s.setCur n).tbl = s.tbl := rfl

@[simp] theorem State.setCur_produced (n : Nat) (s : State) : (s.setCur n).produced = s.produced := rfl

@[simp] theorem State.setCur_chan (n : Nat) (s : State) : (s.setCur n).chan = s.chan := rfl

@[simp] theorem State.setCur_acc (n : Nat) (s : State) : (s.setCur n).acc = s.acc := rfl

@[simp] theorem State.setCur_accPos (n : Nat) (s : State) : (s.setCur n).accPos = s.accPos := rfl

@[simp] theorem State.setCur_sink (n : Nat) (s : State) : (s.setCur n).sink = s.sink := rfl

@[simp] theorem State.setCur_seq (n : Nat) (s : State) : (s.setCur n).seq = s.seq := rfl

@[simp] theorem State.setCur_out (n : Nat) (s : State) : (s.setCur n).out = s.out := rfl

@[simp] theorem State.setCur_blkNum (n : Nat) (s : State) : (s.setCur n).blkNum = s.blkNum := rfl

@[simp] theorem State.setCur_upgraded (n : Nat) (s : State) : (s.setCur n).upgraded = s.upgraded := rfl

@[simp] theorem State.setCur_lineBuf (n : Nat) (s : State) : (s.setCur n).lineBuf = s.lineBuf := rfl

@[simp] theorem State.setCur_encBuf (n : Nat) (s : State) : (s.setCur n).encBuf = s.encBuf := rfl

@[simp] theorem State.setCur_phase (n : Nat) (s : State) : (s.setCur n).phase = s.phase := rfl

@[simp] theorem State.setCur_encPage (n : Nat) (s : State) : (s.setCur n).encPage = s.encPage := rfl

@[simp] theorem State.setCur_encChan (n : Nat) (s : State) : (s.setCur n).encChan = s.encChan := rfl

@[simp] theorem State.setCur_encLine (n : Nat) (s : State) : (s.setCur n).encLine = s.encLine := rfl

@[simp] theorem State.setCur_encByte (n : Nat) (s : State) : (s.setCur n).encByte = s.encByte := rfl

/-! ### `State.withPut` -/

@[simp] theorem State.withPut_cfg (m : Memory) (p : Nat) (u : List FlushUnit) (s : State) : (s.withPut m p u).cfg = s.cfg := rfl

@[simp] theorem State.withPut_inp (m : Memory) (p : Nat) (u : List FlushUnit) (s : State) : (s.withPut m p u).inp = s.inp := rfl

@[simp] theorem State.withPut_job (m : Memory) (p : Nat) (u : List FlushUnit) (s : State) : (s.withPut m p u).job = s.job := rfl

@[simp] theorem State.withPut_runState (m : Memory) (p : Nat) (u : List FlushUnit) (s : State) : (s.withPut m p u).runState = s.runState := rfl

@[simp] theorem State.withPut_exit (m : Memory) (p : Nat) (u : List FlushUnit) (s : State) : (s.withPut m p u).exit = s.exit := rfl

@[simp] theorem State.withPut_fcode (m : Memory) (p : Nat) (u : List FlushUnit) (s : State) : (s.withPut m p u).fcode = s.fcode := rfl

@[simp] theorem State.withPut_finfo (m : Memory) (p : Nat) (u : List FlushUnit) (s : State) : (s.withPut m p u).finfo = s.finfo := rfl

@[simp] theorem State.withPut_fpos (m : Memory) (p : Nat) (u : List FlushUnit) (s : State) : (s.withPut m p u).fpos = s.fpos := rfl

@[simp] theorem State.withPut_fblk (m : Memory) (p : Nat) (u : List FlushUnit) (s : State) : (s.withPut m p u).fblk = s.fblk := rfl

@[simp] theorem State.withPut_nblk (m : Memory) (p : Nat) (u : List FlushUnit) (s : State) : (s.withPut m p u).nblk = s.nblk := rfl

@[simp] theorem State.withPut_nblkFatal (m : Memory) (p : Nat) (u : List FlushUnit) (s : State) : (s.withPut m p u).nblkFatal = s.nblkFatal := rfl

@[simp] theorem State.withPut_warns (m : Memory) (p : Nat) (u : List FlushUnit) (s : State) : (s.withPut m p u).warns = s.warns := rfl

@[simp] theorem State.withPut_model (m : Memory) (p : Nat) (u : List FlushUnit) (s : State) : (s.withPut m p u).model = s.model := rfl

@[simp] theorem State.withPut_w (m : Memory) (p : Nat) (u : List FlushUnit) (s : State) : (s.withPut m p u).w = s.w := rfl

@[simp] theorem State.withPut_height (m : Memory) (p : Nat) (u : List FlushUnit) (s : State) : (s.withPut m p u).height = s.height := rfl

@[simp] theorem State.withPut_colorMode (m : Memory) (p : Nat) (u : List FlushUnit) (s : State) : (s.withPut m p u).colorMode = s.colorMode := rfl

@[simp] theorem State.withPut_ip (m : Memory) (p : Nat) (u : List FlushUnit) (s : State) : (s.withPut m p u).ip = s.ip := rfl

@[simp] theorem State.withPut_ctx (m : Memory) (p : Nat) (u : List FlushUnit) (s : State) : (s.withPut m p u).ctx = s.ctx := rfl

@[simp] theorem State.withPut_d (m : Memory) (p : Nat) (u : List FlushUnit) (s : State) : (s.withPut m p u).d = s.d := rfl

@[simp] theorem State.withPut_cur (m : Memory) (p : Nat) (u : List FlushUnit) (s : State) : (s.withPut m p u).cur = s.cur := rfl

@[simp] theorem State.withPut_linesLeft (m : Memory) (p : Nat) (u : List FlushUnit) (s : State) : (s.withPut m p u).linesLeft = s.linesLeft := rfl

@[simp] theorem State.withPut_lstart (m : Memory) (p : Nat) (u : List FlushUnit) (s : State) : (s.withPut m p u).lstart = s.lstart := rfl

@[simp] theorem State.withPut_padRow (m : Memory) (p : Nat) (u : List FlushUnit) (s : State) : (s.withPut m p u).padRow = s.padRow := rfl

@[simp] theorem State.withPut_padLen (m : Memory) (p : Nat) (u : List FlushUnit) (s : State) : (s.withPut m p u).padLen = s.padLen := rfl

@[simp] theorem State.withPut_hdrTlen (m : Memory) (p : Nat) (u : List FlushUnit) (s : State) : (s.withPut m p u).hdrTlen = s.hdrTlen := rfl

@[simp] theorem State.withPut_tlen (m : Memory) (p : Nat) (u : List FlushUnit) (s : State) : (s.withPut m p u).tlen = s.tlen := rfl

@[simp] theorem State.withPut_tbl (m : Memory) (p : Nat) (u : List FlushUnit) (s : State) : (s.withPut m p u).tbl = s.tbl := rfl

@[simp] theorem State.withPut_produced (m : Memory) (p : Nat) (u : List FlushUnit) (s : State) : (s.withPut m p u).produced = s.produced := rfl

@[simp] theorem State.withPut_chan (m : Memory) (p : Nat) (u : List FlushUnit) (s : State) : (s.withPut m p u).chan = s.chan := rfl

@[simp] theorem State.withPut_acc (m : Memory) (p : Nat) (u : List FlushUnit) (s : State) : (s.withPut m p u).acc = m := rfl

@[simp] theorem State.withPut_accPos (m : Memory) (p : Nat) (u : List FlushUnit) (s : State) : (s.withPut m p u).accPos = p := rfl

@[simp] theorem State.withPut_sink (m : Memory) (p : Nat) (u : List FlushUnit) (s : State) : (s.withPut m p u).sink = u := rfl

@[simp] theorem State.withPut_seq (m : Memory) (p : Nat) (u : List FlushUnit) (s : State) : (s.withPut m p u).seq = s.seq := rfl

@[simp] theorem State.withPut_out (m : Memory) (p : Nat) (u : List FlushUnit) (s : State) : (s.withPut m p u).out = s.out := rfl

@[simp] theorem State.withPut_blkNum (m : Memory) (p : Nat) (u : List FlushUnit) (s : State) : (s.withPut m p u).blkNum = s.blkNum := rfl

@[simp] theorem State.withPut_upgraded (m : Memory) (p : Nat) (u : List FlushUnit) (s : State) : (s.withPut m p u).upgraded = s.upgraded := rfl

@[simp] theorem State.withPut_lineBuf (m : Memory) (p : Nat) (u : List FlushUnit) (s : State) : (s.withPut m p u).lineBuf = s.lineBuf := rfl

@[simp] theorem State.withPut_encBuf (m : Memory) (p : Nat) (u : List FlushUnit) (s : State) : (s.withPut m p u).encBuf = s.encBuf := rfl

@[simp] theorem State.withPut_phase (m : Memory) (p : Nat) (u : List FlushUnit) (s : State) : (s.withPut m p u).phase = s.phase := rfl

@[simp] theorem State.withPut_encPage (m : Memory) (p : Nat) (u : List FlushUnit) (s : State) : (s.withPut m p u).encPage = s.encPage := rfl

@[simp] theorem State.withPut_encChan (m : Memory) (p : Nat) (u : List FlushUnit) (s : State) : (s.withPut m p u).encChan = s.encChan := rfl

@[simp] theorem State.withPut_encLine (m : Memory) (p : Nat) (u : List FlushUnit) (s : State) : (s.withPut m p u).encLine = s.encLine := rfl

@[simp] theorem State.withPut_encByte (m : Memory) (p : Nat) (u : List FlushUnit) (s : State) : (s.withPut m p u).encByte = s.encByte := rfl

end Sys2Proof.Machine
end

