-- ==== Sys2Proof/Laws/Ops.lean ====
section
/-! SUPPORT. For each shared operation, what it can do: cited instead of unfolding it. -/

namespace Sys2Proof.Machine

open Sys2Proof

/-! ### Flow -/

@[simp] theorem Flow.bind_ok {α β : Type} (a : α) (s : State) (k : α → State → Flow β) :
    (Flow.ok a s).bind k = k a s := rfl

@[simp] theorem Flow.bind_raised {α β : Type} (s : State) (k : α → State → Flow β) :
    (Flow.raised s : Flow α).bind k = .raised s := rfl

@[simp] theorem Flow.bind_fault {α β : Type} (f : Fault) (k : α → State → Flow β) :
    (Flow.fault f : Flow α).bind k = .fault f := rfl

@[simp] theorem Flow.bind_refused {α β : Type} (r : Refusal) (k : α → State → Flow β) :
    (Flow.refused r : Flow α).bind k = .refused r := rfl

@[simp] theorem Flow.outcome_ok (s : State) : Flow.outcome (.ok () s) = .next s := rfl

@[simp] theorem Flow.outcome_raised (s : State) : Flow.outcome (.raised s) = .next s := rfl

@[simp] theorem Flow.outcome_fault (f : Fault) : Flow.outcome (.fault f) = .fault f := rfl

@[simp] theorem Flow.outcome_refused (r : Refusal) : Flow.outcome (.refused r) = .refused r := rfl

theorem Flow.bind_assoc {α β γ : Type} (x : Flow α) (k : α → State → Flow β) (l : β → State → Flow γ) :
    (x.bind k).bind l = x.bind fun a s => (k a s).bind l := by cases x <;> rfl

theorem Flow.bind_eq_ok {α β : Type} {x : Flow α} {k : α → State → Flow β} {b : β} {t : State} :
    x.bind k = .ok b t ↔ ∃ a s, x = .ok a s ∧ k a s = .ok b t := by cases x <;> simp

theorem Flow.bind_eq_raised {α β : Type} {x : Flow α} {k : α → State → Flow β} {t : State} :
    x.bind k = .raised t ↔ x = .raised t ∨ ∃ a s, x = .ok a s ∧ k a s = .raised t := by cases x <;> simp

/-- An outcome is a next state when the pseudocode ended well or in a fault that was taken. -/
theorem Flow.outcome_eq_next {x : Flow Unit} {t : State} :
    x.outcome = .next t ↔ x = .ok () t ∨ x = .raised t := by cases x <;> simp [Flow.outcome]

/-- What holds when a piece of pseudocode ends: `P` where it goes on, `Q` where it took a fault. -/
def Flow.Post {α : Type} (x : Flow α) (P : α → State → Prop) (Q : State → Prop) : Prop :=
  match x with
  | .ok a s => P a s
  | .raised s => Q s
  | .fault _ => True
  | .refused _ => True

/-- `Flow.Post`, and the model does not stop. -/
def Flow.Good {α : Type} (x : Flow α) (P : α → State → Prop) (Q : State → Prop) : Prop :=
  match x with
  | .ok a s => P a s
  | .raised s => Q s
  | .fault _ => False
  | .refused _ => False

theorem Flow.post_bind {α β : Type} {x : Flow α} {k : α → State → Flow β} {P : α → State → Prop}
    {R : β → State → Prop} {Q : State → Prop} (hx : x.Post P Q) (hk : ∀ a s, P a s → (k a s).Post R Q) :
    (x.bind k).Post R Q := by cases x <;> simp_all [Flow.Post, Flow.bind]

theorem Flow.good_bind {α β : Type} {x : Flow α} {k : α → State → Flow β} {P : α → State → Prop}
    {R : β → State → Prop} {Q : State → Prop} (hx : x.Good P Q) (hk : ∀ a s, P a s → (k a s).Good R Q) :
    (x.bind k).Good R Q := by cases x <;> simp_all [Flow.Good, Flow.bind]

theorem Flow.post_mono {α : Type} {x : Flow α} {P P' : α → State → Prop} {Q Q' : State → Prop} (h : x.Post P Q)
    (hp : ∀ a s, P a s → P' a s) (hq : ∀ s, Q s → Q' s) : x.Post P' Q' := by cases x <;> simp_all [Flow.Post]

theorem Flow.good_mono {α : Type} {x : Flow α} {P P' : α → State → Prop} {Q Q' : State → Prop} (h : x.Good P Q)
    (hp : ∀ a s, P a s → P' a s) (hq : ∀ s, Q s → Q' s) : x.Good P' Q' := by cases x <;> simp_all [Flow.Good]

theorem Flow.post_next {x : Flow Unit} {P : State → Prop} (hx : x.Post (fun _ s => P s) P) {t : State}
    (h : x.outcome = .next t) : P t := by cases x <;> simp_all [Flow.Post, Flow.outcome]

theorem Flow.good_next {x : Flow Unit} {P : State → Prop} (hx : x.Good (fun _ s => P s) P) :
    ∃ t, x.outcome = .next t ∧ P t := by
  cases x with
  | ok a s => exact ⟨s, rfl, hx⟩
  | raised s => exact ⟨s, rfl, hx⟩
  | fault f => exact absurd hx id
  | refused r => exact absurd hx id

/-! ### Warnings -/

theorem Warnings.raise_get (ws : Warnings) (k j : Warning) :
    (ws.raise k).get j = if j = k then (ws.get j).raised else ws.get j := by cases k <;> cases j <;> rfl

/-! ### Taking a fault (R283 to R285) -/

theorem State.recordFault_of_halt {s : State} (h : s.runState = .halt) (t : Trap) : s.recordFault t = s := by
  simp [State.recordFault, h]

theorem State.recordFault_fcode {s : State} (h : s.runState ≠ .halt) (t : Trap) : (s.recordFault t).fcode = t.code := by
  simp [State.recordFault, h]

theorem State.recordFault_finfo {s : State} (h : s.runState ≠ .halt) (t : Trap) : (s.recordFault t).finfo = some t := by
  simp [State.recordFault, h]

theorem State.recordFault_fpos {s : State} (h : s.runState ≠ .halt) (t : Trap) :
    (s.recordFault t).fpos = s.faultPos := by
  simp [State.recordFault, h]

theorem State.recordFault_fblk_decode {s : State} (h : s.runState ≠ .halt) (hd : s.cfg.dir = .decode) (t : Trap) :
    (s.recordFault t).fblk = s.nblk - 1 := by
  simp [State.recordFault, h, hd]

@[simp] theorem Flow.trap_eq {α : Type} (t : Trap) (s : State) : (Flow.trap t s : Flow α) = .raised (s.raise t) := rfl

/-! ### Reads of D and T -/

theorem nextByte_of_lt {s : State} (h : s.cur < s.d.length) :
    nextByte s = .ok s.d[s.cur] (s.setCur (s.cur + 1)) := by
  simp [nextByte, List.getElem?_eq_getElem h]

theorem nextByte_of_ge {s : State} (h : s.d.length ≤ s.cur) :
    nextByte s = .raised (s.raise (.lineTrunc s.cur)) := by
  simp [nextByte, List.getElem?_eq_none h]

/-- What `NextByte` can do. -/
theorem nextByte_cases (s : State) :
    (∃ b, s.d[s.cur]? = some b ∧ nextByte s = .ok b (s.setCur (s.cur + 1))) ∨
    (s.d.length ≤ s.cur ∧ nextByte s = .raised (s.raise (.lineTrunc s.cur))) := by
  rcases Nat.lt_or_ge s.cur s.d.length with h | h
  · exact .inl ⟨_, List.getElem?_eq_getElem h, nextByte_of_lt h⟩
  · exact .inr ⟨h, nextByte_of_ge h⟩

/-- What `TRead` can do. -/
theorem tRead_cases (i : Nat) (s : State) :
    (∃ b, i < s.tlen ∧ s.tbl.read i = some b ∧ tRead i s = .ok b s) ∨
    ((s.tlen ≤ i ∨ s.tbl.read i = none) ∧ tRead i s = .raised (s.raise (.tableIndex i))) := by
  unfold tRead
  rcases Nat.lt_or_ge i s.tlen with h | h
  · rcases hr : s.tbl.read i with _ | b
    · exact .inr ⟨.inr rfl, by simp [h]⟩
    · exact .inl ⟨b, h, rfl, by simp [h]⟩
  · exact .inr ⟨.inl h, by simp [Nat.not_lt.2 h]⟩

/-- What the table load can do when it ends: `cur` past the bytes, T written, nothing else. -/
theorem loadTable_ok {i n : Nat} {s t : State} {u : Unit} (h : loadTable i n s = .ok u t) :
    ∃ m, t = { s.setCur (s.cur + n) with tbl := m } := by
  induction n generalizing i s with
  | zero => simp only [loadTable, Flow.ok.injEq] at h; exact ⟨s.tbl, by rw [← h.2]; rfl⟩
  | succ n ih =>
    obtain ⟨b, s1, h1, h2⟩ := Flow.bind_eq_ok.1 h
    rcases nextByte_cases s with ⟨b', -, e⟩ | ⟨-, e⟩ <;> rw [e] at h1
    · cases h1
      obtain ⟨m, rfl⟩ := ih h2
      exact ⟨m, by simp [State.setCur, Nat.add_assoc, Nat.add_comm 1 n]⟩
    · cases h1

/-! ### The byte put -/

theorem State.withPut_self (s : State) : s.withPut s.acc s.accPos s.sink = s := rfl

@[simp] theorem State.withPut_withPut (s : State) (m m' : Memory) (p p' : Nat) (u u' : List FlushUnit) :
    (s.withPut m p u).withPut m' p' u' = s.withPut m' p' u' := rfl

@[simp] theorem State.setCur_setCur (s : State) (a b : Nat) : (s.setCur a).setCur b = s.setCur b := rfl

theorem State.setCur_self (s : State) : s.setCur s.cur = s := rfl

theorem State.setCur_withPut (s : State) (c : Nat) (m : Memory) (p : Nat) (u : List FlushUnit) :
    (s.setCur c).withPut m p u = (s.withPut m p u).setCur c := rfl

/-- What the flush can do. -/
theorem flushAcc_cases (s : State) :
    (∃ u, s.acc.readAll 0 (2 * s.w) = some u ∧
      flushAcc s = .ok () (s.withPut [] 0 (s.sink ++ [{ chan := s.chan, bytes := u }]))) ∨
    (s.acc.readAll 0 (2 * s.w) = none ∧ flushAcc s = .refused .flushNoValue) := by
  unfold flushAcc
  rcases h : s.acc.readAll 0 (2 * s.w) with _ | u
  · exact .inr ⟨rfl, rfl⟩
  · exact .inl ⟨u, rfl, rfl⟩

/-- What a byte put can do: put the byte; put it and flush; be refused a flush of an unwritten byte; or find its
address outside ACC. -/
theorem putByte_cases (v : Byte) (s : State) :
    (accAddr s.model s.w s.accPos < 2 * s.w ∧ s.accPos + 1 ≠ 2 * s.w ∧
      putByte v s = .ok () (s.withPut (s.acc.write (accAddr s.model s.w s.accPos) v) (s.accPos + 1) s.sink)) ∨
    (∃ u, accAddr s.model s.w s.accPos < 2 * s.w ∧ s.accPos + 1 = 2 * s.w ∧
      (s.acc.write (accAddr s.model s.w s.accPos) v).readAll 0 (2 * s.w) = some u ∧
      putByte v s = .ok () (s.withPut [] 0 (s.sink ++ [{ chan := s.chan, bytes := u }]))) ∨
    (accAddr s.model s.w s.accPos < 2 * s.w ∧ s.accPos + 1 = 2 * s.w ∧
      (s.acc.write (accAddr s.model s.w s.accPos) v).readAll 0 (2 * s.w) = none ∧
      putByte v s = .refused .flushNoValue) ∨
    (2 * s.w ≤ accAddr s.model s.w s.accPos ∧ putByte v s = .fault .accAddress) := by
  rcases Nat.lt_or_ge (accAddr s.model s.w s.accPos) (2 * s.w) with ha | ha
  · by_cases hp : s.accPos + 1 = 2 * s.w
    · rcases hu : (s.acc.write (accAddr s.model s.w s.accPos) v).readAll 0 (2 * s.w) with _ | u
      · exact .inr (.inr (.inl ⟨ha, hp, rfl, by simp [putByte, ha, hp, flushAcc, hu]⟩))
      · exact .inr (.inl ⟨u, ha, hp, rfl, by simp [putByte, ha, hp, flushAcc, hu]⟩)
    · exact .inl ⟨ha, hp, by simp [putByte, ha, hp]⟩
  · exact .inr (.inr (.inr ⟨ha, by simp [putByte, Nat.not_lt.2 ha]⟩))

/-- A put that ends writes ACC, ACCPOS and SINK only, and only appends to SINK. -/
theorem putByte_ok {v : Byte} {s t : State} {x : Unit} (h : putByte v s = .ok x t) :
    ∃ m p u, t = s.withPut m p (s.sink ++ u) := by
  rcases putByte_cases v s with ⟨-, -, e⟩ | ⟨u, -, -, -, e⟩ | ⟨-, -, -, e⟩ | ⟨-, e⟩ <;> rw [e] at h
  · cases h; exact ⟨_, _, [], by rw [List.append_nil]⟩
  · cases h; exact ⟨_, _, _, rfl⟩
  · cases h
  · cases h

theorem putByte_not_raised (v : Byte) (s t : State) : putByte v s ≠ .raised t := by
  rcases putByte_cases v s with ⟨-, -, e⟩ | ⟨u, -, -, -, e⟩ | ⟨-, -, -, e⟩ | ⟨-, e⟩ <;> simp [e]

theorem putAll_nil (s : State) : putAll [] s = .ok () s := rfl

theorem putAll_cons (b : Byte) (bs : List Byte) (s : State) :
    putAll (b :: bs) s = (putByte b s).bind fun _ s1 => putAll bs s1 := rfl

theorem putAll_append (as bs : List Byte) (s : State) :
    putAll (as ++ bs) s = (putAll as s).bind fun _ s1 => putAll bs s1 := by
  induction as generalizing s with
  | nil => rfl
  | cons a as ih =>
    simp only [List.cons_append, putAll_cons, Flow.bind_assoc, ih]

theorem putAll_ok {bs : List Byte} {s t : State} {x : Unit} (h : putAll bs s = .ok x t) :
    ∃ m p u, t = s.withPut m p (s.sink ++ u) := by
  induction bs generalizing s with
  | nil => cases h; exact ⟨_, _, [], by rw [List.append_nil]; rfl⟩
  | cons b bs ih =>
    obtain ⟨_, s1, h1, h2⟩ := Flow.bind_eq_ok.1 h
    obtain ⟨m, p, u, rfl⟩ := putByte_ok h1
    obtain ⟨m', p', u', rfl⟩ := ih h2
    exact ⟨m', p', u ++ u', by simp⟩

theorem putAll_not_raised (bs : List Byte) (s t : State) : putAll bs s ≠ .raised t := by
  induction bs generalizing s with
  | nil => simp [putAll_nil]
  | cons b bs ih =>
    intro h
    rcases Flow.bind_eq_raised.1 h with h | ⟨_, s1, -, h⟩
    · exact putByte_not_raised _ _ _ h
    · exact ih _ h

/-- REP and LREP put a byte n times. -/
theorem putCopies_eq (n : Nat) (v : Byte) (s : State) : putCopies n v s = putAll (List.replicate n v) s := by
  induction n generalizing s with
  | zero => rfl
  | succ n ih => simp only [putCopies, List.replicate_succ, putAll_cons, ih]

/-- A byte put commutes with a move of `cur`. -/
theorem putByte_setCur (v : Byte) (s : State) (c : Nat) :
    putByte v (s.setCur c) = (putByte v s).bind fun _ t => .ok () (t.setCur c) := by
  rcases putByte_cases v s with ⟨h1, h2, e⟩ | ⟨u, h1, h2, h3, e⟩ | ⟨h1, h2, h3, e⟩ | ⟨h1, e⟩
  · rw [e]; simp [putByte, h1, h2, State.setCur_withPut]
  · rw [e]; simp [putByte, h1, h2, flushAcc, h3, State.setCur_withPut]
  · rw [e]; simp [putByte, h1, h2, flushAcc, h3]
  · rw [e]; simp [putByte, Nat.not_lt.2 h1]

/-- The puts of a sequence commute with a move of `cur`. -/
theorem putAll_setCur (bs : List Byte) (s : State) (c : Nat) :
    putAll bs (s.setCur c) = (putAll bs s).bind fun _ t => .ok () (t.setCur c) := by
  induction bs generalizing s with
  | nil => rfl
  | cons b bs ih => simp only [putAll_cons, putByte_setCur, Flow.bind_assoc, Flow.bind_ok, ih]

/-- RAW puts the bytes that follow it, when D has them. -/
theorem putLiterals_eq {n : Nat} {s : State} (h : s.cur + n ≤ s.d.length) :
    putLiterals n s = (putAll ((s.d.drop s.cur).take n) s).bind fun _ t => .ok () (t.setCur (s.cur + n)) := by
  induction n generalizing s with
  | zero => simp [putLiterals, putAll, State.setCur]
  | succ n ih =>
    have hlt : s.cur < s.d.length := by omega
    rw [putLiterals, nextByte_of_lt hlt, List.drop_eq_getElem_cons hlt, List.take_succ_cons, putAll_cons,
      Flow.bind_assoc, Flow.bind_ok, putByte_setCur, Flow.bind_assoc]
    rcases hp : putByte s.d[s.cur] s with ⟨_, t⟩ | t | f | r
    · obtain ⟨m, p, u, rfl⟩ := putByte_ok hp
      simp only [Flow.bind_ok]
      rw [ih (by simp; omega), putAll_setCur, Flow.bind_assoc]
      simp [Nat.add_assoc, Nat.add_comm 1 n]
    · rfl
    · rfl
    · rfl

/-! ### The canonical form of the memories -/

/-- The flush keeps it: an empty buffer. -/
theorem flushAcc_wf {s t : State} {x : Unit} (h : flushAcc s = .ok x t) : t.acc.wf = true ∧ t.tbl = s.tbl := by
  rcases flushAcc_cases s with ⟨u, -, e⟩ | ⟨-, e⟩ <;> rw [e] at h
  · cases h; exact ⟨Memory.wf_nil, rfl⟩
  · cases h

/-- The byte put keeps it. -/
theorem putByte_wf {v : Byte} {s t : State} {x : Unit} (hs : s.acc.wf = true) (h : putByte v s = .ok x t) :
    t.acc.wf = true ∧ t.tbl = s.tbl := by
  rcases putByte_cases v s with ⟨-, -, e⟩ | ⟨u, -, -, -, e⟩ | ⟨-, -, -, e⟩ | ⟨-, e⟩ <;> rw [e] at h
  · cases h; exact ⟨Memory.wf_write hs _ _, rfl⟩
  · cases h; exact ⟨Memory.wf_nil, rfl⟩
  · cases h
  · cases h

/-- The table load keeps it. -/
theorem loadTable_wf {i n : Nat} {s t : State} {x : Unit} (hs : s.tbl.wf = true) (h : loadTable i n s = .ok x t) :
    t.tbl.wf = true ∧ t.acc = s.acc := by
  induction n generalizing i s with
  | zero => cases h; exact ⟨hs, rfl⟩
  | succ n ih =>
    obtain ⟨b, s1, h1, h2⟩ := Flow.bind_eq_ok.1 h
    rcases nextByte_cases s with ⟨b', -, e⟩ | ⟨-, e⟩ <;> rw [e] at h1
    · cases h1
      have hw : ({ s.setCur (s.cur + 1) with tbl := s.tbl.write i b } : State).tbl.wf = true := Memory.wf_write hs _ _
      have hr := ih hw h2
      exact hr
    · cases h1

/-- After reset both memories have it. -/
theorem State.resetFor_wf (c : Cfg) (input : List Byte) (job : Job) :
    (State.resetFor c input job).acc.wf = true ∧ (State.resetFor c input job).tbl.wf = true :=
  ⟨Memory.wf_nil, Memory.wf_nil⟩

/-! ### write_block and the frame checks -/

/-- What `write_block` can do (R131, R133). -/
theorem writeBlock_cases (ty : Byte) (payload : List Byte) (s : State) :
    (payload.length ≤ 65535 ∧ writeBlock ty payload s =
      .ok () { s with
        out := s.out ++ frameBytes ty (goodFrame ty s.carriedSeq payload)
        seq := s.seq + 1 }) ∨
    (65535 < payload.length ∧ writeBlock ty payload s = .raised (s.raise (.encPayload payload.length))) := by
  rcases Nat.lt_or_ge 65535 payload.length with h | h
  · exact .inr ⟨h, by simp [writeBlock, h]⟩
  · exact .inl ⟨h, by simp [writeBlock, Nat.not_lt.2 h, emit]⟩

end Sys2Proof.Machine
end

