-- ==== Sys2Proof/Laws/Frame.lean ====
section
/-! SUPPORT. What `read_block` can do with a frame, and what the line loop's test and the end of a line can do. -/

namespace Sys2Proof.Machine

open Sys2Proof

/-- A check that does not end the step. -/
theorem frameCheck_ok {k : FrameCheck} {good : Bool} {s : State} (h : s.cfg.strict = false ∨ good = true) :
    frameCheck k good s = .ok () { s with warns := warnUnless good k.warning s.warns } := by
  cases good <;> simp_all [frameCheck, warnUnless, State.warn]

/-- A check that ends the step. -/
theorem frameCheck_strict {k : FrameCheck} {s : State} (h : s.cfg.strict = true) :
    frameCheck k false s = .raised ((s.warn k.warning).raise (.strict k)) := by
  simp [frameCheck, h]

/-- A frame that is read and passes to its handler. -/
theorem acceptFrame_ok {ty : Byte} {f : Frame} {s : State} (h : Frame.dispatched s.cfg ty f) :
    acceptFrame ty f s = .ok () (s.afterFrame ty f) := by
  have h1 : s.cfg.strict = false ∨ Frame.magicOk f = true := by
    rcases h with h | h
    · exact .inl h
    · simp only [Frame.good, Bool.and_eq_true] at h; exact .inr h.1.1
  have h2 : s.cfg.strict = false ∨ Frame.typeInvOk ty f = true := by
    rcases h with h | h
    · exact .inl h
    · simp only [Frame.good, Bool.and_eq_true] at h; exact .inr h.1.2
  have h3 : s.cfg.strict = false ∨ Frame.checksumOk ty f = true := by
    rcases h with h | h
    · exact .inl h
    · simp only [Frame.good, Bool.and_eq_true] at h; exact .inr h.2
  unfold acceptFrame validate
  rw [frameCheck_ok (by exact h1), Flow.bind_ok, frameCheck_ok (by exact h2), Flow.bind_ok, frameCheck_ok (by exact h3)]
  rfl

/-- A dispatched frame's step is its handler, after the frame's own bookkeeping. -/
theorem runFrame_of_dispatched {t : BlockType} {handler : List Byte → State → Flow Unit} {f : Frame} {s : State}
    (h : Frame.dispatched s.cfg t.code f) :
    runFrame t handler f s = Flow.outcome (handler f.payload (s.afterFrame t.code f)) := by
  rw [runFrame, acceptFrame_ok h, Flow.bind_ok]

/-- The line loop's test: the next line, or the end of the block. -/
theorem linesLoop_cases (s : State) :
    (s.linesLeft = 0 ∧ linesLoop s = endData s) ∨ (s.linesLeft ≠ 0 ∧ linesLoop s = { s with ctx := .lhdr }) := by
  unfold linesLoop
  split
  · next h => exact .inl ⟨h, rfl⟩
  · next h => exact .inr ⟨h, rfl⟩

/-- The opcode loop's test: the next opcode, or the end of the line. -/
theorem opLoop_cases (s : State) :
    (s.produced < s.leff ∧ opLoop s = .ok () { s with ctx := .op }) ∨ (s.leff ≤ s.produced ∧ opLoop s = endLine s) := by
  unfold opLoop
  split
  · next h => exact .inl ⟨h, rfl⟩
  · next h => exact .inr ⟨Nat.le_of_not_lt h, rfl⟩

/-- What the table-length test and what follows it can do. -/
theorem startOps_cases (n : Nat) (s : State) :
    (16 < n ∧ startOps n s = .raised (s.raise (.tableLen n))) ∨
    (n ≤ 16 ∧ startOps n s =
      (loadTable 0 n { s with tlen := n, tbl := [] }).bind fun _ s1 => opLoop { s1 with produced := 0 }) := by
  unfold startOps
  split
  · next h => exact .inl ⟨h, rfl⟩
  · next h => exact .inr ⟨Nat.le_of_not_lt h, rfl⟩

/-- The context an instruction was decoded in is its own. -/
theorem decode_context {c : Cfg} {ctx : Context} {bytes rest : List Byte} {i : Instr}
    (h : decode c ctx bytes = .ok i rest) : i.context = ctx := by
  unfold decode at h
  split at h
  · unfold decodeFrame at h
    split at h
    · cases h
    · split at h
      · cases h
      · split at h
        · next t _ => cases h; cases t <;> rfl
        · cases h
    · cases h
  · cases h; rfl
  · cases h; rfl
  · cases h; unfold decodeOp; simp only; split_ifs <;> rfl
  · cases h
  · cases h

end Sys2Proof.Machine
end

