-- ==== Sys2Proof/Laws/Payload.lean ====
section
/-! SUPPORT. The laws of payload layouts: a payload built from fields that fit and share no byte holds each of them, so
that such a layout obeys R13, `parse(serialise(x)) = x`. -/

namespace Sys2Proof.Machine

open Sys2Proof

/-! ### One field of a payload -/

@[simp] theorem blankPayload_length (n : Nat) : (blankPayload n).length = n := List.length_replicate

/-- A payload keeps its length when a field inside it is set. -/
theorem setField_length {o : Nat} {bs p : List Byte} (h : o + bs.length ≤ p.length) :
    (setField o bs p).length = p.length := by
  simp [setField]; omega

/-- A byte of a payload after a field was set: the field's inside it, the payload's elsewhere. -/
theorem fieldU8_setField {o : Nat} {bs p : List Byte} (h : o + bs.length ≤ p.length) (i : Nat) :
    fieldU8 (setField o bs p) i = if o ≤ i ∧ i < o + bs.length then bs.getD (i - o) 0 else fieldU8 p i := by
  simp only [fieldU8, setField, List.getD_eq_getElem?_getD, List.getElem?_append, List.length_append, List.length_take,
    List.getElem?_take, List.getElem?_drop]
  have e : min o p.length = o := by omega
  rw [e]
  split_ifs <;> first | rfl | omega | skip
  · congr 2; omega

/-- Bytes of a payload stay when more bytes follow it. -/
theorem fieldU8_append {p q : List Byte} {i : Nat} (h : i < p.length) : fieldU8 (p ++ q) i = fieldU8 p i := by
  simp [fieldU8, List.getElem?_append_left h]

theorem apart_iff {x y : Nat × Nat} : apart x y = true ↔ x.1 + x.2 ≤ y.1 ∨ y.1 + y.2 ≤ x.1 := by simp [apart]

/-- A payload holds the bytes of a field at its offset. -/
def HoldsField (p : List Byte) (f : Nat × List Byte) : Prop := ∀ j < f.2.length, fieldU8 p (f.1 + j) = f.2.getD j 0

theorem holdsField_setField {f : Nat × List Byte} {p : List Byte} (h : f.1 + f.2.length ≤ p.length) :
    HoldsField (setField f.1 f.2 p) f := by
  intro j hj
  rw [fieldU8_setField h, if_pos (by omega), Nat.add_sub_cancel_left]

/-- A field stays when one that shares no byte with it is set. -/
theorem HoldsField.keep {p : List Byte} {f g : Nat × List Byte} (hf : HoldsField p f)
    (ha : apart (f.1, f.2.length) (g.1, g.2.length) = true) (h : g.1 + g.2.length ≤ p.length) :
    HoldsField (setField g.1 g.2 p) f := by
  intro j hj
  rw [apart_iff] at ha
  rw [fieldU8_setField h, if_neg (by simp only at ha; omega), hf j hj]

theorem HoldsField.append {p q : List Byte} {f : Nat × List Byte} (hf : HoldsField p f)
    (h : f.1 + f.2.length ≤ p.length) : HoldsField (p ++ q) f := by
  intro j hj
  rw [fieldU8_append (by omega), hf j hj]

/-! ### What a held field reads as -/

theorem fieldU8_of_holds {p : List Byte} {o : Nat} {b : Byte} (h : HoldsField p (o, [b])) : fieldU8 p o = b :=
  h 0 Nat.one_pos

theorem fieldU16_of_holds {p : List Byte} {o : Nat} {v : BitVec 16} (h : HoldsField p (o, le16 v.toNat)) :
    fieldU16 p o = v := by
  have h0 : fieldU8 p o = BitVec.ofNat 8 v.toNat := h 0 (by simp [le16])
  have h1 : fieldU8 p (o + 1) = BitVec.ofNat 8 (v.toNat / 256) := h 1 (by simp [le16])
  rw [fieldU16, h0, h1]
  apply BitVec.eq_of_toNat_eq
  have := v.isLt
  rw [BitVec.toNat_append]
  simp only [BitVec.toNat_ofNat]
  rw [← Nat.shiftLeft_add_eq_or_of_lt (by omega)]
  simp only [Nat.shiftLeft_eq]
  omega

theorem fieldU32_of_holds {p : List Byte} {o v : Nat} (h : HoldsField p (o, le32 v)) (hv : v < 4294967296) :
    fieldU32 p o = v := by
  have h0 : fieldU8 p o = BitVec.ofNat 8 v := h 0 (by simp [le32])
  have h1 : fieldU8 p (o + 1) = BitVec.ofNat 8 (v / 256) := h 1 (by simp [le32])
  have h2 : fieldU8 p (o + 2) = BitVec.ofNat 8 (v / 65536) := h 2 (by simp [le32])
  have h3 : fieldU8 p (o + 3) = BitVec.ofNat 8 (v / 16777216) := h 3 (by simp [le32])
  rw [fieldU32, h0, h1, h2, h3]
  simp only [BitVec.toNat_ofNat]
  omega

/-! ### A payload of fields that fit and are apart -/

theorem foldl_setField_holds {len : Nat} (fs : List (Nat × List Byte)) {p : List Byte} (hp : p.length = len)
    (hfit : ∀ f ∈ fs, f.1 + f.2.length ≤ len)
    (hap : fs.Pairwise fun x y => apart (x.1, x.2.length) (y.1, y.2.length) = true) :
    (fs.foldl (fun p f => setField f.1 f.2 p) p).length = len ∧
    (∀ f ∈ fs, HoldsField (fs.foldl (fun p f => setField f.1 f.2 p) p) f) ∧
    ∀ g, HoldsField p g → (∀ f ∈ fs, apart (g.1, g.2.length) (f.1, f.2.length) = true) →
      HoldsField (fs.foldl (fun p f => setField f.1 f.2 p) p) g := by
  induction fs generalizing p with
  | nil => exact ⟨hp, by simp, fun g hg _ => hg⟩
  | cons f fs ih =>
    have hf : f.1 + f.2.length ≤ p.length := hp ▸ hfit f (List.mem_cons_self ..)
    obtain ⟨hhd, htl⟩ := List.pairwise_cons.1 hap
    obtain ⟨hl, hin, hkeep⟩ := ih (p := setField f.1 f.2 p) (by rw [setField_length hf, hp])
      (fun g hg => hfit g (List.mem_cons_of_mem _ hg)) htl
    refine ⟨hl, ?_, fun g hg ha => hkeep g (hg.keep (ha f (List.mem_cons_self ..)) hf)
      fun h hm => ha h (List.mem_cons_of_mem _ hm)⟩
    intro g hg
    rcases List.mem_cons.1 hg with rfl | hg
    · exact hkeep _ (holdsField_setField hf) hhd
    · exact hin g hg

/-- A payload built from fields that pass the check has its length and holds each of them. -/
theorem buildPayload_spec {len : Nat} {fs : List (Nat × List Byte)}
    (h : fieldsFit len (fs.map fun f => (f.1, f.2.length)) = true) :
    (buildPayload len fs).length = len ∧ ∀ f ∈ fs, HoldsField (buildPayload len fs) f := by
  simp only [fieldsFit, Bool.and_eq_true, List.all_map, List.all_eq_true, Function.comp_apply, decide_eq_true_eq,
    List.pairwise_map] at h
  obtain ⟨hl, hin, -⟩ := foldl_setField_holds fs (blankPayload_length len) h.1 h.2
  exact ⟨hl, hin⟩

theorem parseFields_of_le {α : Type} {len : Nat} {p : List Byte} (h : len ≤ p.length) (x : α) :
    parseFields len p x = some x := if_neg (Nat.not_lt.2 h)

/-! ### `parse(serialise(x)) = x` -/

theorem parse_serialise_begin {l : Layouts} {x : BeginLayout} (e : l.begin = .fields x) (h : x.fits = true)
    (code : Byte) : Layouts.parseBegin l (Layouts.serialiseBegin l code) = some code := by
  obtain ⟨hl, hin⟩ := buildPayload_spec (fs := [(x.model, [code])]) h
  simp only [Layouts.parseBegin, Layouts.serialiseBegin, e]
  rw [parseFields_of_le hl.ge, fieldU8_of_holds (hin _ (List.mem_singleton_self _))]

theorem parse_serialise_params {l : Layouts} {x : ParamsLayout} (e : l.params = .fields x) (h : x.fits = true)
    (r : BitVec 16) : Layouts.parseParams l (Layouts.serialiseParams l r) = some r := by
  obtain ⟨hl, hin⟩ := buildPayload_spec (fs := [(x.resolution, le16 r.toNat)]) h
  simp only [Layouts.parseParams, Layouts.serialiseParams, e]
  rw [parseFields_of_le hl.ge, fieldU16_of_holds (hin _ (List.mem_singleton_self _))]

theorem parse_serialise_endPart {l : Layouts} {x : EndPartLayout} (e : l.endPart = .fields x) (h : x.fits = true)
    (r : Byte) : Layouts.parseEndPart l (Layouts.serialiseEndPart l r) = some r := by
  obtain ⟨hl, hin⟩ := buildPayload_spec (fs := [(x.reason, [r])]) h
  simp only [Layouts.parseEndPart, Layouts.serialiseEndPart, e]
  rw [parseFields_of_le hl.ge, fieldU8_of_holds (hin _ (List.mem_singleton_self _))]

theorem parse_serialise_page {l : Layouts} {x : PageLayout} (e : l.page = .fields x) (h : x.fits = true)
    (f : PageFields) : Layouts.parsePage l (Layouts.serialisePage l f) = some f := by
  obtain ⟨hl, hin⟩ := buildPayload_spec (fs :=
    [(x.pixelWidth, le16 f.pixelWidth.toNat), (x.height, le16 f.height.toNat), (x.colorMode, [f.colorMode]),
      (x.paperSize, [f.paperSize]), (x.tray, [f.tray]), (x.copies, [f.copies]), (x.duplex, [f.duplex])]) h
  simp only [List.mem_cons, List.not_mem_nil, or_false, forall_eq_or_imp, forall_eq] at hin
  obtain ⟨h1, h2, h3, h4, h5, h6, h7⟩ := hin
  simp only [Layouts.parsePage, Layouts.serialisePage, e]
  rw [parseFields_of_le hl.ge, fieldU16_of_holds h1, fieldU16_of_holds h2, fieldU8_of_holds h3, fieldU8_of_holds h4,
    fieldU8_of_holds h5, fieldU8_of_holds h6, fieldU8_of_holds h7]

theorem parse_serialise_data {l : Layouts} {x : DataLayout} (e : l.data = .fields x) (h : x.fits = true)
    (f : DataFields) (body : List Byte) (hc : f.compressedLen < 4294967296) :
    Layouts.parseData l (Layouts.serialiseData l f ++ body) = some (f, (Layouts.serialiseData l f).length) := by
  obtain ⟨hl, hin⟩ := buildPayload_spec (fs :=
    [(x.channel, [f.channel]), (x.blockNumber, [f.blockNumber]), (x.compressedLen, le32 f.compressedLen),
      (x.lineCount, le16 f.lineCount.toNat)]) h
  have hfit : ∀ g ∈ [(x.channel, 1), (x.blockNumber, 1), (x.compressedLen, 4), (x.lineCount, 2)], g.1 + g.2 ≤ x.len := by
    simp only [DataLayout.fits, fieldsFit, Bool.and_eq_true, List.all_eq_true, decide_eq_true_eq] at h
    exact h.1
  simp only [List.mem_cons, List.not_mem_nil, or_false, forall_eq_or_imp, forall_eq] at hin hfit
  obtain ⟨h1, h2, h3, h4⟩ := hin
  simp only [Layouts.parseData, Layouts.serialiseData, e]
  rw [parseFields_of_le (by rw [List.length_append, hl]; omega), fieldU8_of_holds (h1.append (by rw [hl]; exact hfit.1)),
    fieldU8_of_holds (h2.append (by rw [hl]; exact hfit.2.1)),
    fieldU32_of_holds (h3.append (by rw [hl]; exact hfit.2.2.1)) hc,
    fieldU16_of_holds (h4.append (by rw [hl]; exact hfit.2.2.2)), hl]

/-- Layouts of fields that fit and are apart obey R13. -/
theorem Layouts.lawful_of_fields {l : Layouts} {b : BeginLayout} {p : ParamsLayout} {g : PageLayout} {d : DataLayout}
    {r : EndPartLayout} (eb : l.begin = .fields b) (ep : l.params = .fields p) (eg : l.page = .fields g)
    (ed : l.data = .fields d) (er : l.endPart = .fields r) (h : l.wf = true) : Layouts.Lawful l := by
  simp only [Layouts.wf, Layout.wf, Bool.and_eq_true, eb, ep, eg, ed, er] at h
  exact ⟨parse_serialise_begin eb h.1.1.1.1, parse_serialise_params ep h.1.1.1.2, parse_serialise_page eg h.1.1.2,
    parse_serialise_data ed h.1.2, parse_serialise_endPart er h.2⟩

/-- The reference layouts of R254 to R258 obey R13. -/
theorem Layouts.reference_lawful : Layouts.Lawful Layouts.reference :=
  Layouts.lawful_of_fields rfl rfl rfl rfl rfl (by decide)

end Sys2Proof.Machine
end

