-- ==== Sys2Proof/Laws/PerInstr.lean ====
section
/-! SUPPORT. Statements made per instruction: how many bytes its encoding takes (30_encoding.md rules R70, R108). -/

namespace Sys2Proof.Laws.EncodedLength

open Sys2Proof

/-- The bytes the decoder takes for an instruction, its operand bytes not counted: 7 + len for a frame, 2 for a
PADHDR, 1 for an LHDR or an opcode. -/
def size : Instr → Nat
  | .blkBegin f => 7 + f.payload.length
  | .blkEnd f => 7 + f.payload.length
  | .blkParams f => 7 + f.payload.length
  | .blkPage f => 7 + f.payload.length
  | .blkData f => 7 + f.payload.length
  | .blkEndPart f => 7 + f.payload.length
  | .lhdr _ _ _ => 1
  | .padhdr _ _ => 2
  | .raw _ => 1
  | .tbl _ => 1
  | .rep _ => 1
  | .lrep _ => 1

/-- An instruction's encoding has its size, under every configuration. -/
def Statement (i : Instr) : Prop := ∀ c : Cfg, (encode c i).length = size i

theorem frameBytes_length (ty : Byte) (f : Frame) : (frameBytes ty f).length = 7 + f.payload.length := by
  simp [frameBytes, frameHeader, le16]; omega

theorem blkBegin (f : Frame) : Statement (.blkBegin f) := fun _ => frameBytes_length _ f
theorem blkEnd (f : Frame) : Statement (.blkEnd f) := fun _ => frameBytes_length _ f
theorem blkParams (f : Frame) : Statement (.blkParams f) := fun _ => frameBytes_length _ f
theorem blkPage (f : Frame) : Statement (.blkPage f) := fun _ => frameBytes_length _ f
theorem blkData (f : Frame) : Statement (.blkData f) := fun _ => frameBytes_length _ f
theorem blkEndPart (f : Frame) : Statement (.blkEndPart f) := fun _ => frameBytes_length _ f
theorem lhdr (present padp : Bool) (tlen : BitVec 7) : Statement (.lhdr present padp tlen) := fun _ => rfl
theorem padhdr (padLen : BitVec 2) (rowLen : BitVec 14) : Statement (.padhdr padLen rowLen) := fun _ => rfl
theorem raw (fld : BitVec 6) : Statement (.raw fld) := fun _ => rfl
theorem tbl (fld : BitVec 6) : Statement (.tbl fld) := fun _ => rfl
theorem rep (fld : BitVec 6) : Statement (.rep fld) := fun _ => rfl
theorem lrep (fld : BitVec 6) : Statement (.lrep fld) := fun _ => rfl

end Sys2Proof.Laws.EncodedLength
end

