-- ==== Sys2Proof/Laws/Step.lean ====
section
/-! SUPPORT. What one step can do: which direction it runs, and when a step holds two instructions. -/

namespace Sys2Proof.Machine

open Sys2Proof

theorem step_of_decode {s : State} (hr : s.runState = .run) (hd : s.cfg.dir = .decode) : step s = decodeStep s := by
  simp [step, hr, hd]

theorem step_of_encode {s : State} (hr : s.runState = .run) (hd : s.cfg.dir = .encode) :
    step s = Flow.outcome (encodeStep s) := by
  simp [step, hr, hd]

/-- A step that answers a next state was taken from RUN. -/
theorem runState_of_step {s t : State} (h : step s = .next t) : s.runState = .run := by
  unfold step at h
  split at h
  · cases h
  · cases h
  · assumption

/-- What stands at the cursor decides one instruction's work. -/
theorem decodeOne_of_ok {s : State} {i : Instr} {rest : List Byte} (h : decode s.cfg s.ctx s.window = .ok i rest) :
    decodeOne s = exec i s := by
  simp [decodeOne, fetch, h]

/-- A step is one instruction, but for an LHDR with padding: its PADHDR is run in the same step. -/
theorem decodeStep_cases (s : State) :
    decodeStep s = decodeOne s ∨
    ∃ t, s.ctx = .lhdr ∧ decodeOne s = .next t ∧ t.ctx = .padhdr ∧ decodeStep s = decodeOne t := by
  unfold decodeStep
  split
  · next t h =>
    split
    · next hc => exact .inr ⟨t, hc.1, h, hc.2, rfl⟩
    · exact .inl h.symm
  · next h => exact .inl h.symm
  · next h => exact .inl h.symm

theorem decodeStep_of_ctx_ne {s : State} (h : s.ctx ≠ .lhdr) : decodeStep s = decodeOne s := by
  rcases decodeStep_cases s with e | ⟨t, hc, -⟩
  · exact e
  · exact absurd hc h

theorem decodeStep_of_next {s t : State} (h : decodeOne s = .next t) (hc : t.ctx ≠ .padhdr) :
    decodeStep s = .next t := by
  rcases decodeStep_cases s with e | ⟨u, -, e, hu, -⟩
  · rw [e, h]
  · rw [h] at e; cases e; exact absurd hu hc

/-- A property that one instruction keeps, a step of the decode direction keeps. -/
theorem decodeStep_keeps {P : State → Prop} (h : ∀ s t, P s → decodeOne s = .next t → P t) {s t : State} (hp : P s)
    (ht : decodeStep s = .next t) : P t := by
  rcases decodeStep_cases s with e | ⟨u, -, e, -, e'⟩
  · exact h s t hp (e ▸ ht)
  · exact h u t (h s u hp e) (e' ▸ ht)

end Sys2Proof.Machine
end

