-- ==== Sys2Proof/Tests/Slice0.lean ====
section
/-! SUPPORT. The model's own tests. Expected values are those of 95_test_vectors.md (the vector's name stands in the
comment) or are worked out by hand from the rule named. -/

namespace Sys2Proof.Tests

open Sys2Proof Sys2Proof.Machine

/-! ### Small states -/

/-- What a property says of the next state, if there is one. -/
def after (o : Host.Outcome State Fault Refusal) (p : State → Bool) : Bool :=
  match o with
  | .next s => p s
  | .fault _ => false
  | .refused _ => false

/-- A state inside a Data block of one line. -/
def inLine (ctx : Context) (m : Model) (w cur : Nat) (d : List Byte) : State :=
  { State.reset with ctx := ctx, model := m, w := w, cur := cur, d := d, linesLeft := 1, nblk := 1 }

/-- A state that is about to read a frame. -/
def atFrame (m : Model) (w : Nat) (input : List Byte) : State := { State.reset with model := m, w := w, inp := input }

/-- The table of vectors D4 and D5. -/
def twoEntries (s : State) : State := { s with tlen := 2, tbl := [(0, 0x10), (1, 0x20)] }

def strictCfg : Cfg := { Cfg.decided with strict := true }

/-- The state of vector X6 at the end of its stream: W = 2, two bytes put. -/
def residueX6 : State :=
  { atFrame .m1 2 [] with
    cfg := { Cfg.decided with residualFlush := true }, acc := [(0, 0x12), (1, 0x34)], accPos := 2 }

def encodeCfg : Cfg := { Cfg.decided with dir := .encode }

/-- The page of program P1. -/
def pageP1 : Page where
  pixelWidth := 8
  height := 2
  isColor := false
  paperSize := 0
  tray := 0
  copies := 1
  duplex := 0
  planeK := [[0], [0]]
  planeC := []
  planeM := []
  planeY := []

/-- The job of program P1, at a phase of its encoding. -/
def encP1 (ph : EncPhase) : State :=
  { State.resetFor encodeCfg [] { model := .m2, resolution := 600, pages := [pageP1] } with
    phase := ph, w := 1, height := 2, blkNum := 1 }

/-! ### Well-formedness: each check refuses an ill-formed term -/

theorem test_wf_frame_too_long :
    (Instr.blkData { magic := 0x1B, seq := 0, typeInv := 0xAD, payload := List.replicate 65536 0, checksum := 0 }).wf
      Cfg.decided = false := by
  simp only [Instr.wf, Frame.wf, List.length_replicate]; decide

theorem test_wf_lhdr_flag_bit : (Instr.lhdr true true 0x40).wf Cfg.decided = false := by decide

theorem test_wf_lhdr_flag_bit5 :
    (Instr.lhdr true true 0x20).wf { Cfg.decided with padpBit := .bit5 } = false := by decide

theorem test_wf_pad_layout_bit_twice :
    PadLayout.wf (.bits [14, 13] (List.range 14)) = false := by decide

theorem test_wf_pad_layout_bit_out_of_word :
    PadLayout.wf (.bits [14, 16] (List.range 14)) = false := by decide

theorem test_wf_pad_layout_short : PadLayout.wf (.bits [14] (List.range 14)) = false := by decide

theorem test_wf_layout_overlap :
    Layouts.wf { Layouts.reference with params := .fields { len := 2, resolution := 1 } } = false := by decide

theorem test_wf_layout_shared_byte :
    Layouts.wf { Layouts.reference with data := .fields ⟨8, 0, 1, 2, 5⟩ } = false := by decide

theorem test_wf_codes_not_injective :
    Cfg.codesInjective { Cfg.decided with modelCode := { m1 := 1, m2 := 1, m3 := 3 } } = false := by decide

theorem test_wf_decided : Cfg.decided.wf = true := by decide

/-! ### Decoding: words written out from the encodings -/

/-- 30_encoding.md R91, R92: 1B 40 seq=00 len=01 00 inv=BF payload 02 csum 1D (vector F6). -/
theorem test_decode_begin : decode Cfg.decided .frame [0x1B, 0x40, 0x00, 0x01, 0x00, 0xBF, 0x02, 0x1D, 0x77] =
    .ok (.blkBegin { magic := 0x1B, seq := 0, typeInv := 0xBF, payload := [2], checksum := 0x1D }) [0x77] := by decide

/-- R259's example. -/
theorem test_decode_end : decode Cfg.decided .frame [0x1B, 0x41, 0x05, 0x00, 0x00, 0xBE, 0x1F] =
    .ok (.blkEnd { magic := 0x1B, seq := 5, typeInv := 0xBE, payload := [], checksum := 0x1F }) [] := by decide

/-- R253's example. -/
theorem test_decode_params : decode Cfg.decided .frame [0x1B, 0x50, 0x01, 0x02, 0x00, 0xAF, 0x58, 0x02, 0x77] =
    .ok (.blkParams { magic := 0x1B, seq := 1, typeInv := 0xAF, payload := [0x58, 2], checksum := 0x77 }) [] := by decide

/-- Vector B4. -/
theorem test_decode_page :
    decode Cfg.decided .frame [0x1B, 0x51, 1, 9, 0, 0xAE, 0x20, 0, 4, 0, 0, 0, 0, 1, 0, 0x49] =
    .ok (.blkPage
      { magic := 0x1B, seq := 1, typeInv := 0xAE, payload := [0x20, 0, 4, 0, 0, 0, 0, 1, 0], checksum := 0x49 }) [] := by decide

/-- R257's example. -/
theorem test_decode_data :
    decode Cfg.decided .frame [0x1B, 0x52, 3, 12, 0, 0xAD, 0, 1, 4, 0, 0, 0, 1, 0, 0x80, 1, 0, 0, 0xB0] =
    .ok (.blkData { magic := 0x1B, seq := 3, typeInv := 0xAD, checksum := 0xB0
                    payload := [0, 1, 4, 0, 0, 0, 1, 0, 0x80, 1, 0, 0] }) [] := by decide

/-- R258's example. -/
theorem test_decode_endPart : decode Cfg.decided .frame [0x1B, 0x55, 4, 1, 0, 0xAA, 0, 0x1F] =
    .ok (.blkEndPart { magic := 0x1B, seq := 4, typeInv := 0xAA, payload := [0], checksum := 0x1F }) [] := by decide

/-- Vector F10: type 42 selects no block. -/
theorem test_decode_unknown : decode Cfg.decided .frame [0x1B, 0x42, 0, 0, 0, 0xBD, 0x1A] =
    .unknownType 0x42 { magic := 0x1B, seq := 0, typeInv := 0xBD, payload := [], checksum := 0x1A } [] := by decide

/-- R106: D1 = 1101 0001 is PRESENT, PADP, TLEN 17 (vector D26). -/
theorem test_decode_lhdr : decode Cfg.decided .lhdr [0xD1, 8] = .ok (.lhdr true true 17) [8] := by decide

/-- R106: 0C 80 is h = 0x800C, pad_len 2, row_len 12. -/
theorem test_decode_padhdr : decode Cfg.decided .padhdr [0x0C, 0x80] = .ok (.padhdr 2 12) [] := by decide

theorem test_decode_raw : decode Cfg.decided .op [0x03, 1] = .ok (.raw 3) [1] := by decide

theorem test_decode_tbl : decode Cfg.decided .op [0x41] = .ok (.tbl 1) [] := by decide

theorem test_decode_rep : decode Cfg.decided .op [0xBF] = .ok (.rep 63) [] := by decide

theorem test_decode_lrep : decode Cfg.decided .op [0xE0] = .ok (.lrep 32) [] := by decide

/-! ### One step per instruction -/

/-- Vector B1. -/
theorem test_begin : after (step (atFrame .unknown 0 [0x1B, 0x40, 0, 1, 0, 0xBF, 3, 0x1E]))
    (fun t => decide (t.model = .m3 ∧ t.ip = 8 ∧ t.nblk = 1 ∧ t.warns = Warnings.reset)) = true := by decide

/-- Vector B2. -/
theorem test_begin_unknown_model : after (step (atFrame .m2 0 [0x1B, 0x40, 0, 1, 0, 0xBF, 0x7E, 0x99]))
    (fun t => decide (t.model = .unknown ∧ t.warns.model = { bit := true, count := 1 } ∧ t.runState = .run)) = true := by
  decide

/-- Vector B10. -/
theorem test_end : after (step (atFrame .m1 4 [0x1B, 0x41, 5, 0, 0, 0xBE, 0x1F]))
    (fun t => decide (t = { atFrame .m1 4 t.inp with ip := 7, nblk := 1 })) = true := by decide

/-- R253's example: 9 bytes. -/
theorem test_params : after (step (atFrame .m1 4 [0x1B, 0x50, 1, 2, 0, 0xAF, 0x58, 2, 0x77]))
    (fun t => decide (t = { atFrame .m1 4 t.inp with ip := 9, nblk := 1 })) = true := by decide

/-- Vector B4. -/
theorem test_page : after (step (atFrame .m1 0 [0x1B, 0x51, 1, 9, 0, 0xAE, 0x20, 0, 4, 0, 0, 0, 0, 1, 0, 0x49]))
    (fun t => decide (t.w = 4 ∧ t.height = 4 ∧ t.colorMode = .mono ∧ t.acc = [] ∧ t.accPos = 0)) = true := by decide

/-- Vector B5. -/
theorem test_page_residue :
    after (step { atFrame .m1 4 [0x1B, 0x51, 1, 9, 0, 0xAE, 0x20, 0, 4, 0, 0, 0, 0, 1, 0, 0x49] with
      accPos := 2, acc := [(0, 1), (1, 2)] })
    (fun t => decide (t.warns.residual.count = 1 ∧ t.accPos = 0 ∧ t.sink = [])) = true := by decide

/-- Vector B7. -/
theorem test_data : after (step (atFrame .m1 1
      [0x1B, 0x52, 0, 0x0B, 0, 0xAD, 0, 1, 3, 0, 0, 0, 1, 0, 0x80, 0, 0xFF, 0xA9]))
    (fun t => decide (t.chan = .known .k ∧ t.d = [0x80, 0, 0xFF] ∧ t.cur = 0 ∧ t.linesLeft = 1 ∧ t.ctx = .lhdr)) = true := by
  decide

/-- Vector B6. -/
theorem test_data_no_geometry : after (step (atFrame .m1 0
      [0x1B, 0x52, 0, 0x0B, 0, 0xAD, 0, 1, 3, 0, 0, 0, 1, 0, 0x80, 0, 0xFF, 0xA9]))
    (fun t => decide (t.fcode = 0x14 ∧ t.nblkFatal = 1 ∧ t.fblk = 0 ∧ t.runState = .run ∧ t.ctx = .frame)) = true := by
  decide

/-- Vector B10. -/
theorem test_endPart : after (step (atFrame .m1 4 [0x1B, 0x55, 4, 1, 0, 0xAA, 0, 0x1F]))
    (fun t => decide (t = { atFrame .m1 4 t.inp with ip := 8, nblk := 1 })) = true := by decide

/-- Vector B3: a short payload. -/
theorem test_short_payload : after (step (atFrame .m2 4 [0x1B, 0x40, 0, 0, 0, 0xBF, 0x1A]))
    (fun t => decide (t.fcode = 0x15 ∧ t.finfo = some (.desc 0x40) ∧ t.nblkFatal = 1 ∧ t.model = .m2)) = true := by decide

/-- Vector F10. -/
theorem test_unknown_type : after (step (atFrame .m2 4 [0x1B, 0x42, 0, 0, 0, 0xBD, 0x1A]))
    (fun t => decide (t.runState = .halt ∧ t.exit = .nonzero ∧ t.fcode = 0x20 ∧ t.ip = 7)) = true := by decide

/-- Vector B8: compressed_len 9, three bytes present. -/
theorem test_data_too_short : after (step (atFrame .m1 1
      (frameBytes 0x52 (goodFrame 0x52 0 [0, 1, 9, 0, 0, 0, 1, 0, 0x80, 0, 0xFF]))))
    (fun t => decide (t.fcode = 0x15 ∧ t.finfo = some (.desc 0x52) ∧ t.chan = .known .k ∧ t.ip = 18)) = true := by decide

/-- Vector X6: RESIDUAL_FLUSH at the end of the stream. -/
theorem test_residual_flush : after (step residueX6)
    (fun t => decide (t.runState = .done ∧ t.warns.residual.count = 1 ∧
      t.sink = [{ chan := .known .k, bytes := [0x12, 0x34, 0, 0] }])) = true := by decide

/-- Vector F14. -/
theorem test_strict : after (step { atFrame .m1 4 [0x1A, 0x40, 0, 1, 0, 0xBF, 2, 0x1D] with cfg := strictCfg })
    (fun t => decide (t.runState = .halt ∧ t.fcode = 0x25 ∧ t.warns.magic.count = 1 ∧ t.warns.csum.count = 0)) = true := by
  decide

/-- Vector F12. -/
theorem test_truncated_frame : after (step (atFrame .m1 4 [0x1B, 0x40, 0, 5, 0, 0xBF, 2, 0x1D]))
    (fun t => decide (t.runState = .done ∧ t.warns.trunc.count = 1 ∧ t.nblk = 0 ∧ t.ip = 8)) = true := by decide

/-- Vector D4: the table load. -/
theorem test_lhdr : after (step (inLine .lhdr .m1 4 0 [0x82, 0x10, 0x20, 0x41, 1, 0x10]))
    (fun t => decide (t.tlen = 2 ∧ t.tbl = [(0, 0x10), (1, 0x20)] ∧ t.cur = 3 ∧ t.ctx = .op)) = true := by decide

/-- Vector D15. -/
theorem test_lhdr_table_len : after (step (inLine .lhdr .m1 4 0 [0xBF, 0, 1]))
    (fun t => decide (t.fcode = 0x10 ∧ t.finfo = some (.tableLen 63) ∧ t.cur = 1 ∧ t.ctx = .frame)) = true := by decide

/-- Vector D24: one bad filler byte. The line header and its pad header are one step (R192). -/
theorem test_padhdr : after (step (inLine .lhdr .m3 4 0 [0xC0, 8, 0xC0, 0xFE, 0xFF, 0xFF, 0x84, 0x5A]))
    (fun t => decide (t.padRow = some 8 ∧ t.cur = 6 ∧ t.warns.pad.count = 1 ∧ t.ctx = .op)) = true := by decide

/-- Vector D26: the pad header is read before the table length is tested. -/
theorem test_padhdr_table_len :
    after (step (inLine .lhdr .m1 4 0 [0xD1, 8, 0]))
    (fun t => decide (t.fcode = 0x10 ∧ t.cur = 3 ∧ t.padRow = some 8)) = true := by decide

/-- Vector D1. -/
theorem test_raw : after (step (inLine .op .m1 4 1 [0x80, 3, 1, 2, 3, 4]))
    (fun t => decide (t.acc = [(0, 1), (1, 2), (2, 3), (3, 4)] ∧ t.accPos = 4 ∧ t.cur = 6 ∧ t.sink = [])) = true := by
  decide

/-- Vector D18: M2, one flush. -/
theorem test_raw_interleaved : after (step (inLine .op .m2 3 1 [0x80, 5, 0x11, 0xAA, 0x22, 0xBB, 0x33, 0xCC]))
    (fun t => decide (t.sink = [{ chan := .known .k, bytes := [0x11, 0x22, 0x33, 0xAA, 0xBB, 0xCC] }] ∧
      t.accPos = 0)) = true := by decide

/-- Vector D4. -/
theorem test_tbl : after (step (twoEntries (inLine .op .m1 4 3 [0x82, 0x10, 0x20, 0x41, 1, 0x10])))
    (fun t => decide (t.acc = [(0, 0x10), (1, 0x20), (2, 0x20), (3, 0x10)] ∧ t.cur = 6)) = true := by decide

/-- Vector D5. -/
theorem test_tbl_index : after (step (twoEntries (inLine .op .m1 4 3 [0x82, 0x10, 0x20, 0x41, 1, 0x12])))
    (fun t => decide (t.accPos = 3 ∧ t.fcode = 0x13 ∧ t.finfo = some (.tableIndex 2))) = true := by decide

/-- Vector D10: the overshoot runs whole. -/
theorem test_rep : after (step (inLine .op .m1 4 1 [0x80, 0x85, 0x33]))
    (fun t => decide (t.accPos = 5 ∧ t.fcode = 0x11 ∧ t.finfo = some (.lineLen 5 4) ∧ t.ctx = .frame)) = true := by decide

/-- Vector D8: REP with field 0. -/
theorem test_rep_zero : after (step (inLine .op .m1 4 1 [0x80, 0x80, 0x77]))
    (fun t => decide (t = { inLine .op .m1 4 1 t.d with cur := 3 })) = true := by decide

/-- Vector D14. -/
theorem test_lrep : after (step (inLine .op .m1 64 1 [0x80, 0xC1, 0x99]))
    (fun t => decide (t.accPos = 64 ∧ t.produced = 64 ∧ t.cur = 3 ∧ t.sink = [])) = true := by decide +kernel

/-- Vector D8: LREP with field 0. -/
theorem test_lrep_zero : after (step (inLine .op .m1 4 1 [0x80, 0xC0, 0x77]))
    (fun t => decide (t = { inLine .op .m1 4 1 t.d with cur := 3 })) = true := by decide

/-- Vector D16: no value byte. -/
theorem test_rep_truncated : after (step (inLine .op .m2 1 1 [0x80, 0x81]))
    (fun t => decide (t.fcode = 0x12 ∧ t.accPos = 0 ∧ t.ctx = .frame)) = true := by decide

/-- R192, R286: LSTART and PADROW are written before the header byte is found missing. -/
theorem test_lhdr_truncated : after (step { inLine .lhdr .m1 4 1 [0x80] with padRow := some 8 })
    (fun t => decide (t.fcode = 0x12 ∧ t.lstart = 1 ∧ t.padRow = none ∧ t.fpos = .decode 0 (some 1))) = true := by decide

/-- R331: a put that completes the buffer over a byte that holds no value. -/
theorem test_flush_refused : putByte 7 { inLine .op .m2 1 0 [] with accPos := 1 } = .refused .flushNoValue := by decide

/-! ### The encode direction -/

/-- Vector E19. -/
theorem test_encode_line : encodeLine Cfg.decided .m1 [1, 2, 3, 3, 3, 4] =
    .stream [0x80, 0x01, 1, 2, 0x83, 3, 0x00, 4] := by decide

/-- Vector E34. -/
theorem test_encode_padded : encodeLine Cfg.decided .m3 [1, 2, 3, 3, 3, 4] =
    .stream [0xC0, 0x0C, 0x80, 0xFF, 0xFF, 0x01, 1, 2, 0x83, 3, 0x00, 4] := by decide

/-- R166's examples 65 and 8191, and R167. -/
theorem test_repeat : repeatOps 65 0xAA = some [0xC1, 0xAA, 0x81, 0xAA] ∧
    repeatOps 8191 0xAA = some [0xE0, 0xAA, 0xE0, 0xAA, 0xFF, 0xAA, 0xBF, 0xAA] ∧ repeatOps 8192 0xAA = none := by decide

/-- Vectors E38 and E42. -/
theorem test_interleave : interleave [0x11, 0x22, 0x33] [0xAA, 0xBB, 0xCC] = [0x11, 0xAA, 0x22, 0xBB, 0x33, 0xCC] ∧
    logicalLine .m2 2 1 [[0x12, 0x34]] 0 = some [0x12, 0, 0x34, 0] := by decide

/-- GROUPS: 9 and 7016 lines. -/
theorem test_groups : groupCount 9 = 5 ∧ groupEnd 9 4 = 8 ∧ groupCount 7016 = 8 ∧ linesPerBlock 7016 = 877 := by decide

/-- Vector X1: SEQ_PRE = false. -/
theorem test_seq_pre : after (step { encP1 .begin with cfg := { encodeCfg with seqPre := false } })
    (fun t => decide (t.out = [0x1B, 0x40, 1, 1, 0, 0xBF, 2, 0x1E] ∧ t.seq = 1)) = true := by decide

/-- Vector X7: DATA_PLACEMENT = TRAILING. -/
theorem test_encode_data_trailing :
    after (step { encP1 .data with
      cfg := { encodeCfg with placement := .trailing }, seq := 3, encBuf := [0x80, 1, 0, 0], encLine := 1 })
    (fun t => decide (t.out = [0x1B, 0x52, 3, 8, 0, 0xAD, 0, 1, 4, 0, 0, 0, 1, 0, 0x2B, 0x80, 1, 0, 0])) = true := by
  decide

/-- R261: after the last group of plane Y comes plane M. -/
theorem test_plane_order : after (step { encP1 .data with encChan := .y, encBuf := [0x80, 1, 0, 0], encLine := 1 })
    (fun t => decide (t.phase = .line ∧ t.encChan = .m ∧ t.blkNum = 1 ∧ t.encLine = 0)) = true := by decide

/-- Program P1: the Begin, Page and Data frames. -/
theorem test_encode_begin : after (step (encP1 .begin))
    (fun t => decide (t.out = [0x1B, 0x40, 0, 1, 0, 0xBF, 2, 0x1D] ∧ t.seq = 1)) = true := by decide

theorem test_encode_page : after (step { encP1 .page with seq := 2 })
    (fun t => decide (t.out = [0x1B, 0x51, 2, 9, 0, 0xAE, 8, 0, 2, 0, 0, 0, 0, 1, 0, 0x30] ∧ t.seq = 3)) = true := by
  decide

theorem test_encode_data : after (step { encP1 .data with seq := 3, encBuf := [0x80, 1, 0, 0], encLine := 1 })
    (fun t => decide (t.out = [0x1B, 0x52, 3, 12, 0, 0xAD, 0, 1, 4, 0, 0, 0, 1, 0, 0x80, 1, 0, 0, 0xB0] ∧
      t.phase = .endPart)) = true := by decide

/-- Vector F2. -/
theorem test_encode_end : after (step { encP1 .end_ with seq := 0xFF })
    (fun t => decide (t.out = [0x1B, 0x41, 0xFF, 0, 0, 0xBE, 0x19] ∧ t.seq = 0 ∧ t.runState = .done)) = true := by decide

/-! ### Table words -/

/-- A word of the opcode table is what the next step runs: 0x84 (REP 4) on the reset state. -/
theorem test_fetch_word : decodeTableWord 8 0x84 = some (.rep 4) ∧
    after (step (State.reset.withFetchWord 8 0x84)) (fun t => decide (t.accPos = 4 ∧ t.produced = 4)) = true := by
  decide +kernel

/-- 0x40 in context FRAME is a Begin frame around that type byte. -/
theorem test_fetch_word_frame : decodeTableWord 8 0x40 = some (.blkBegin (goodFrame 0x40 0 [0])) ∧
    after (step (State.reset.withFetchWord 8 0x40)) (fun t => decide (t.ip = 8 ∧ t.nblk = 1)) = true := by decide

/-- 16 bits are a PADHDR. -/
theorem test_fetch_word_padhdr : decodeTableWord 16 0x800C = some (.padhdr 2 12) ∧
    after (step (State.reset.withFetchWord 16 0x800C)) (fun t => decide (t.padRow = some 12)) = true := by decide +kernel

/-! ### Witnesses: a state and operands that meet the hypotheses of each statement, clause by clause -/

/-- The frame of vector F6. -/
def frameF6 : Frame := { magic := 0x1B, seq := 0, typeInv := 0xBF, payload := [2], checksum := 0x1D }

/-- A byte put that is ready: W = 1, an empty buffer. -/
theorem test_hyp_put_ready : (inLine .op .m1 1 1 [0x80, 0x00, 0x07]).PutReady :=
  ⟨by decide, by decide, by unfold State.accFilled; decide⟩

/-- The same with one of two bytes put, so that the next put flushes. -/
theorem test_hyp_put_ready_last :
    ({ inLine .op .m1 1 1 [0x80, 0x00, 0x07] with accPos := 1, acc := [(0, 9)] } : State).PutReady :=
  ⟨by decide, by decide, by unfold State.accFilled; decide⟩

/-- Ready inside a line of 4 bytes with a table of two entries. -/
theorem test_hyp_put_ready_tbl : (twoEntries (inLine .op .m1 4 3 [0x82, 0x10, 0x20, 0x41, 1, 0x10])).PutReady ∧
    (twoEntries (inLine .op .m1 4 3 [0x82, 0x10, 0x20, 0x41, 1, 0x10])).tableLoaded :=
  ⟨⟨by decide, by decide, by unfold State.accFilled; decide⟩, by unfold State.tableLoaded; decide⟩

theorem test_hyp_DecodeEncodeRoundTrip : PadLayout.wf PadLayout.reference = true ∧
    PadLayout.reference = .bits [14, 15] (List.range 14) ∧
    (Instr.lhdr true true 16).wf Cfg.decided = true ∧ (Instr.padhdr 3 16383).wf Cfg.decided = true := by decide

/-- The decided pad-header layout obeys R13. -/
theorem test_hyp_lawful : PadLayout.Lawful Cfg.decided.padLayout := by
  intro p r
  have hp : ∀ i (hi : i < [14, 15].length), (scatterBits p.toNat [14, 15] ||| scatterBits r.toNat (List.range 14)).getLsbD
      [14, 15][i] = p.toNat.testBit i := fun i hi => by
    rw [BitVec.getLsbD_or, scatterBits_getLsbD (by decide) (by decide) _ hi, scatterBits_getLsbD_of_not_mem, Bool.or_false]
    rcases i with _ | _ | i <;> simp at hi ⊢
  have hr : ∀ i (hi : i < (List.range 14).length), (scatterBits p.toNat [14, 15] ||| scatterBits r.toNat
      (List.range 14)).getLsbD (List.range 14)[i] = r.toNat.testBit i := fun i hi => by
    rw [BitVec.getLsbD_or, scatterBits_getLsbD (by decide) (by decide) _ hi, scatterBits_getLsbD_of_not_mem, Bool.false_or]
    simp at hi ⊢; omega
  exact Prod.ext
    ((congrArg (BitVec.ofNat 2) (gatherBits_eq (by simpa using p.isLt) hp)).trans (by simp))
    ((congrArg (BitVec.ofNat 14) (gatherBits_eq (by simpa using r.isLt) hr)).trans (by simp))

theorem test_hyp_DecodeAcceptsOnlyEncodings :
    decode Cfg.decided .padhdr [0xFF, 0xFF, 7] = .ok (.padhdr 3 16383) [7] := by decide

/-- An opcode, and the LHDR of vector E33's line, whose PADHDR is run in the same step. -/
theorem test_hyp_StepRunsTheDecodedInstruction : State.reset.runState = .run ∧ State.reset.cfg.dir = .decode ∧
    (Instr.rep 63).wf State.reset.cfg = true ∧
    decode Cfg.decided .op (inLine .op .m1 4 1 [0x80, 0xBF, 0]).window = .ok (.rep 63) [0] ∧
    decode Cfg.decided .lhdr (inLine .lhdr .m3 3 0 [0xC0, 0x08, 0xC0, 0xFF, 0xFF, 0xFF, 0x83, 0x55]).window =
      .ok (.lhdr true true 0) [0x08, 0xC0, 0xFF, 0xFF, 0xFF, 0x83, 0x55] ∧
    decode Cfg.decided .padhdr [0x08, 0xC0, 0xFF, 0xFF, 0xFF, 0x83, 0x55] =
      .ok (.padhdr 3 8) [0xFF, 0xFF, 0xFF, 0x83, 0x55] := by decide

theorem test_hyp_WriteBlockEmitsTheFrame : (List.replicate 65535 (0 : Byte)).length ≤ 65535 ∧
    (5 : Byte) = (if State.reset.cfg.seqPre then 5 else 5 + 1) ∧
    (6 : Byte) = (if ({ Cfg.decided with seqPre := false } : Cfg).seqPre then 5 else 5 + 1) ∧
    65535 < (List.replicate 65536 (0 : Byte)).length ∧ State.reset.runState = .run := by
  simp only [List.length_replicate]; decide

theorem test_hyp_StrictCheckHaltsTheRun : strictCfg.strict = true ∧
    Frame.good BlockType.begin.code { frameF6 with magic := 0x1A } = false ∧
    Frame.good BlockType.begin.code { frameF6 with typeInv := 0xBE } = false ∧
    Frame.good BlockType.begin.code { frameF6 with checksum := 0 } = false := by decide

/-- Tolerant; strict with a good frame; strict with a bad magic byte. -/
theorem test_hyp_UnknownTypeHaltsTheRun :
    let s := atFrame .m1 4 [0x1B, 0x42, 0, 0, 0, 0xBD, 0x1A, 0x55]
    let f : Frame := { magic := 0x1B, seq := 0, typeInv := 0xBD, payload := [], checksum := 0x1A }
    s.runState = .run ∧ s.cfg.dir = .decode ∧ s.cfg.strict = false ∧ s.ctx = .frame ∧ f.wf = true ∧
      s.window = frameBytes 0x42 f ++ [0x55] ∧ (0x42 : Byte) ∉ ([0x40, 0x41, 0x50, 0x51, 0x52, 0x55] : List Byte) ∧
      strictCfg.strict = true ∧ Frame.good 0x42 f = true ∧ Frame.good 0x42 { f with magic := 0x1A } = false := by
  decide

/-- No byte left; five bytes; a frame that lacks its checksum byte; and vector X6's residue, with and without its flush. -/
theorem test_hyp_EndOfStreamIsDone : State.reset.ctx = .frame ∧
    (atFrame .m1 4 []).inp.length ≤ 0 ∧ 5 - 0 < 6 ∧
    (let s := atFrame .m1 4 [0x1B, 0x40, 0, 1, 0, 0xBF, 2]
     s.ip < s.inp.length ∧ s.inp.length - s.ip < 7 + leVal (s.inp.getD (s.ip + 3) 0) (s.inp.getD (s.ip + 4) 0)) ∧
    residueX6.accPos ≠ 0 ∧ residueX6.cfg.residualFlush = true ∧ State.reset.cfg.residualFlush = false := by
  decide

theorem test_hyp_BeginSetsTheModel : Frame.dispatched strictCfg 0x40 frameF6 ∧ Cfg.decided.codesInjective = true ∧
    Layouts.parseBegin Cfg.decided.layouts frameF6.payload = some 2 ∧
    modelByte Cfg.decided.modelCode .m2 = some 2 :=
  ⟨.inr (by decide), by decide, by decide, by decide⟩

theorem test_hyp_BeginSetsTheModel_unknown : ∀ m, modelByte Cfg.decided.modelCode m ≠ some 0x7E := by
  intro m; cases m <;> decide

theorem test_hyp_ParamsEndPartEndChangeNothing :
    Frame.dispatched Cfg.decided 0x50 (goodFrame 0x50 1 [0x58, 2]) ∧
    (Layouts.parseParams Cfg.decided.layouts (goodFrame 0x50 1 [0x58, 2]).payload).isSome = true ∧
    Frame.dispatched strictCfg 0x55 (goodFrame 0x55 1 [0]) ∧
    (Layouts.parseEndPart Cfg.decided.layouts (goodFrame 0x55 1 [0]).payload).isSome = true ∧
    Frame.dispatched strictCfg 0x41 (goodFrame 0x41 1 []) :=
  ⟨.inl rfl, by decide, .inr (by decide), by decide, .inr (by decide)⟩

theorem test_hyp_PageSetsTheGeometry : Frame.dispatched strictCfg 0x51 (goodFrame 0x51 1 [0x20, 0, 4, 0, 0, 0, 0, 1, 0]) ∧
    (Layouts.parsePage Cfg.decided.layouts [0x20, 0, 4, 0, 0, 0, 0, 1, 0]).isSome = true ∧
    Layouts.reference.page = .fields ⟨9, 0, 2, 4, 5, 6, 7, 8⟩ :=
  ⟨.inr (by decide), by decide, by decide⟩

/-- One line with data to spare, and no line. -/
theorem test_hyp_DataInsideStartsItsLines :
    let p : List Byte := [0, 1, 3, 0, 0, 0, 1, 0, 0x80, 0, 0xFF, 0x55]
    let q : List Byte := [0, 1, 3, 0, 0, 0, 0, 0, 0x80, 0, 0xFF]
    Frame.dispatched strictCfg 0x52 (goodFrame 0x52 1 p) ∧ Frame.dispatched strictCfg 0x52 (goodFrame 0x52 1 q) ∧
    strictCfg.placement = .inside ∧ (atFrame .m1 1 []).w ≠ 0 ∧ 3 ≤ (p.drop 8).length ∧ 3 ≤ (q.drop 8).length ∧
    Layouts.parseData strictCfg.layouts p = some (⟨0, 1, 3, 1⟩, 8) ∧
    Layouts.parseData strictCfg.layouts q = some (⟨0, 1, 3, 0⟩, 8) :=
  ⟨.inr (by decide), .inr (by decide), by decide, by decide, by decide, by decide, by decide, by decide⟩

/-- As many bytes follow the frame as the descriptor says, and one fewer; one line, and none. -/
theorem test_hyp_DataTrailingStartsItsLines :
    let c : Cfg := { Cfg.decided with placement := .trailing }
    let f := goodFrame 0x52 1 [0, 1, 3, 0, 0, 0, 1, 0]
    Frame.dispatched c 0x52 f ∧ c.placement = .trailing ∧
    Layouts.parseData c.layouts f.payload = some (⟨0, 1, 3, 1⟩, 8) ∧
    Layouts.parseData c.layouts [0, 1, 3, 0, 0, 0, 0, 0] = some (⟨0, 1, 3, 0⟩, 8) ∧
    3 = (frameBytes 0x52 f ++ [0x80, 0, 0xFF]).length - (0 + (7 + f.payload.length)) ∧
    2 = (frameBytes 0x52 f ++ [0x80, 0]).length - (0 + (7 + f.payload.length)) :=
  ⟨.inl rfl, by decide, by decide, by decide, by decide, by decide⟩

/-- A Page payload one byte short, and vector B8's descriptor. -/
theorem test_hyp_ShortPayloadIsSkipped : Frame.dispatched strictCfg 0x51 (goodFrame 0x51 1 [1, 2, 3, 4, 5, 6, 7, 8]) ∧
    State.reset.runState = .run ∧ State.reset.cfg.dir = .decode ∧ State.reset.ctx = .frame ∧
    BlockType.parses strictCfg.layouts .page [1, 2, 3, 4, 5, 6, 7, 8] = false ∧ strictCfg.placement = .inside ∧
    Frame.dispatched strictCfg 0x52 (goodFrame 0x52 1 [0, 1, 9, 0, 0, 0, 1, 0, 0x80, 0, 0xFF]) ∧
    Layouts.parseData strictCfg.layouts [0, 1, 9, 0, 0, 0, 1, 0, 0x80, 0, 0xFF] = some (⟨0, 1, 9, 1⟩, 8) ∧
    (([0, 1, 9, 0, 0, 0, 1, 0, 0x80, 0, 0xFF] : List Byte).drop 8).length < 9 :=
  ⟨.inr (by decide), by decide, by decide, by decide, by decide, by decide, .inr (by decide), by decide, by decide⟩

/-- The data is all of the payload, and less than it; under TRAILING it is all there, and not. -/
theorem test_hyp_DataWithoutGeometryIsSkipped :
    let p : List Byte := [0, 1, 3, 0, 0, 0, 1, 0, 0x80, 0, 0xFF]
    Frame.dispatched strictCfg 0x52 (goodFrame 0x52 1 p) ∧ State.reset.cfg.placement = .inside ∧ State.reset.w = 0 ∧
    Layouts.parseData Cfg.decided.layouts p = some (⟨0, 1, 3, 1⟩, 8) ∧ 3 ≤ (p.drop 8).length ∧
    3 < ((p ++ [0x55]).drop 8).length ∧ ({ Cfg.decided with placement := .trailing } : Cfg).placement = .trailing ∧
    (15 + 2) - (0 + (7 + 8)) < 3 :=
  ⟨.inr (by decide), by decide, by decide, by decide, by decide, by decide, by decide, by decide⟩

theorem test_hyp_ChannelCodeOrRawByte : ∀ ch, channelByte Cfg.decided.channelCode ch ≠ 4 := by
  intro ch; cases ch <;> decide

/-- The longest table, and the first that is too long. -/
theorem test_hyp_LhdrStartsTheLine : (16#7).toNat ≤ 16 ∧ 16 < (17#7).toNat ∧
    (let s := inLine .lhdr .m1 1 0 (List.replicate 17 0x90)
     s.cur + 1 + (16#7).toNat ≤ s.d.length ∧ 0 < s.leff ∧ s.ctx = .lhdr ∧ s.cfg.dir = .decode) := by decide

theorem test_hyp_PadHeaderReadsItsFiller :
    let s := { inLine .padhdr .m3 1 1 (List.replicate 22 0xFF) with hdrTlen := 16 }
    s.hdrTlen ≤ 16 ∧ s.cur + 2 + (3#2).toNat + s.hdrTlen ≤ s.d.length ∧ 0 < s.leff := by decide

/-- The first table length that is too long, without filler and with three filler bytes. -/
theorem test_hyp_TableLengthAboveSixteenEndsTheBlock : 16 < (17#7).toNat ∧
    (let s := { inLine .padhdr .m3 1 1 [0xD1, 0x08, 0xC0, 0xFF, 0xFE, 0xFF] with hdrTlen := 17 }
     16 < s.hdrTlen ∧ s.runState = .run ∧ s.cfg.dir = .decode ∧ s.ctx = .padhdr ∧
     s.cur + 2 + (3#2).toNat ≤ s.d.length) := by decide

/-- RAW 1 on W = 1 ends its line exactly; on W = 2 more is to come; RAW 2 on W = 1 overshoots. -/
theorem test_hyp_RawPutsItsLiterals :
    let s := inLine .op .m1 1 1 [0x80, 0x00, 0x07, 0x08]
    s.cur + 1 + 2 ≤ s.d.length ∧ s.produced + 1 = s.leff ∧ s.leff < s.produced + 2 ∧
    s.produced + 1 < (inLine .op .m1 2 1 [0x80, 0x00, 0x07, 0x08]).leff := by decide

/-- Two index bytes end a line of 4; one leaves 2 to come; three overshoot. -/
theorem test_hyp_TblPutsItsLookups :
    let s := twoEntries (inLine .op .m1 4 3 [0x82, 0x10, 0x20, 0x42, 1, 0x10, 0x11])
    s.cur + 1 + 3 ≤ s.d.length ∧ (2#6).toNat + s.cfg.tblBias.val = 3 ∧
    s.indexed ((s.d.drop (s.cur + 1)).take 3) ∧
    s.produced + 2 * 1 < s.leff ∧ s.produced + 2 * 2 = s.leff ∧ s.leff < s.produced + 2 * 3 := by
  unfold State.indexed; decide

theorem test_hyp_RepeatsPutTheirByte :
    let s := inLine .op .m1 1 1 [0x80, 0x81, 0x07]
    s.d[s.cur + 1]? = some 7 ∧ s.produced + (0#6).toNat < s.leff ∧ s.produced + (1#6).toNat = s.leff ∧
    s.leff < s.produced + 64 * (1#6).toNat := by decide

/-- A line without a pad header; and vector X3's, of 8 bytes with 3 of filler and row_len 3, under UNPADDED. -/
theorem test_hyp_LineEndCountsDown :
    let s := { inLine .op .m1 1 3 [0x80, 0x00, 0x07] with produced := 1 }
    let c : Cfg := { Cfg.decided with rowLenMode := .unpadded }
    s.produced = s.leff ∧ 3 = (if s.cfg.rowLenMode = .total then s.cur - s.lstart else s.cur - s.lstart - 2 - s.padLen) ∧
    3 = (if c.rowLenMode = .total then 8 - 0 else 8 - 0 - 2 - 3) ∧
    (inLine .op .m1 1 3 []).produced ≠ (inLine .op .m1 1 3 []).leff := by
  decide

/-- Two entries; a good index byte, then 20 or 12: either nibble order finds the bad one first or second. -/
theorem test_hyp_TableIndexOutOfRangeFaults :
    let s := twoEntries (inLine .op .m1 4 3 [0x82, 0x10, 0x20, 0x41, 0x01, 0x20])
    1 < (1#6).toNat + s.cfg.tblBias.val ∧ s.d[s.cur + 1 + 1]? = some 0x20 ∧
    s.indexed ((s.d.drop (s.cur + 1)).take 1) ∧ s.cfg.tblHighFirst = true ∧
    s.tlen ≤ (0x20#8).toNat / 16 ∧ (0x20#8).toNat % 16 < s.tlen ∧
    (0x12#8).toNat / 16 < s.tlen ∧ s.tlen ≤ (0x12#8).toNat % 16 := by
  unfold State.indexed; decide

/-- RAW 2 with one literal left; TBL 2 with one index byte left; an opcode with nothing after it. -/
theorem test_hyp_TruncatedOpcodeEndsTheBlock :
    let s := inLine .op .m1 1 1 [0x80, 0x01, 0x07]
    let x := twoEntries (inLine .op .m1 4 3 [0x82, 0x10, 0x20, 0x41, 0x01])
    s.cur < s.d.length ∧ s.d.length < s.cur + 1 + ((1#6).toNat + 1) ∧
    x.cur < x.d.length ∧ x.d.length < x.cur + 1 + ((1#6).toNat + x.cfg.tblBias.val) ∧
    x.indexed (x.d.drop (x.cur + 1)) ∧
    (inLine .op .m1 1 1 [0x80, 0x81]).d.length = (inLine .op .m1 1 1 [0x80, 0x81]).cur + 1 ∧
    (inLine .lhdr .m1 1 1 [0x80]).d.length ≤ 1 ∧ (inLine .op .m1 1 1 [0x80]).ctx = .op := by
  unfold State.indexed; decide

/-- A table byte short; one byte of a pad header; one of three filler bytes; a pad header whose line lacks a table byte. -/
theorem test_hyp_TruncatedOpcodeEndsTheBlock_header :
    let s := inLine .lhdr .m1 1 0 [0x82, 0x10]
    let p := inLine .lhdr .m1 1 0 [0xC2, 0x08]
    let f := inLine .padhdr .m1 1 1 [0xC2, 0x08, 0xC0, 0xFF]
    let t := { inLine .padhdr .m1 1 1 [0xC2, 0x08, 0x00, 0x10] with hdrTlen := 2 }
    (2#7).toNat ≤ 16 ∧ s.cur < s.d.length ∧ s.d.length < s.cur + 1 + (2#7).toNat ∧
    decode p.cfg .lhdr p.window = .ok (.lhdr true true 2) [0x08] ∧ p.ctx = .lhdr ∧ ([0x08] : List Byte).length < 2 ∧
    f.cur + 2 ≤ f.d.length ∧ f.d.length < f.cur + 2 + (3#2).toNat ∧
    t.hdrTlen ≤ 16 ∧ t.cur + 2 + (0#2).toNat ≤ t.d.length ∧ t.d.length < t.cur + 2 + (0#2).toNat + t.hdrTlen := by
  decide

/-- The two clauses of a put, on the two ready states above. -/
theorem test_hyp_PutByteWritesOneByte : (inLine .op .m1 1 1 []).accPos + 1 < 2 * (inLine .op .m1 1 1 []).w ∧
    ({ inLine .op .m1 1 1 [] with accPos := 1 } : State).accPos + 1 = 2 * (inLine .op .m1 1 1 []).w := by decide

theorem test_hyp_FullBufferIsOneFlushUnit : (inLine .op .m1 1 1 []).accPos = 0 ∧
    ([1, 2] : List Byte).length = 2 * (inLine .op .m1 1 1 []).w := by decide

theorem test_hyp_FlushOfUnwrittenByteIsRefused :
    let s := { inLine .op .m2 1 0 [] with accPos := 1 }
    s.accPos + 1 = 2 * s.w ∧ 0 < 2 * s.w ∧ s.acc.read 0 = none ∧ 0 ≠ accAddr s.model s.w s.accPos ∧
    accAddr s.model s.w s.accPos < 2 * s.w := by decide

theorem test_hyp_FaultEntryBySeverity : Trap.noGeometry.runFatal = false ∧ Trap.encOverflow.runFatal = true ∧
    ({ State.reset with runState := .halt } : State).runState = .halt := by decide

/-- A step of either direction. -/
theorem test_hyp_step : (∃ t, step State.reset = .next t) ∧ (∃ t, step (encP1 .begin) = .next t) :=
  ⟨⟨_, rfl⟩, ⟨_, rfl⟩⟩

theorem test_hyp_InputsAreNeverWritten : ∃ t, step State.reset = .next t := ⟨_, rfl⟩

theorem test_hyp_InputCursorOnlyMovesForward : (∃ t, step State.reset = .next t) ∧ State.reset.ip ≤ State.reset.inp.length :=
  ⟨⟨_, rfl⟩, by decide⟩

theorem test_hyp_OutputsOnlyGrow : ∃ t, step (encP1 .begin) = .next t := ⟨_, rfl⟩

theorem test_hyp_DirectionsAreApart : State.reset.cfg.dir = .decode ∧ (encP1 .begin).cfg.dir = .encode := by decide

theorem test_hyp_EveryDecodeRunEnds : State.reset.cfg.dir = .decode := by decide

theorem test_hyp_EveryEncodeRunEnds : (encP1 .begin).cfg.dir = .encode := by decide

theorem test_hyp_EmittedFrameReadsBack : ([] : List Byte).length ≤ 65535 := by decide

theorem test_hyp_TolerantChecksOnlyWarn : State.reset.cfg.strict = false := by decide

theorem test_hyp_AccAddressMap : (0 : Nat) < 1 ∧ (1 : Nat) < 2 * 1 ∧ Model.m3 ≠ .m2 := by decide

theorem test_hyp_LineStreamSizeBound : encodeLine Cfg.decided .m3 [] = .stream [0xC0, 0x04, 0x40, 0xFF] := by decide

theorem test_hyp_InterleaveUndoesTheAddressMap : ([0x11, 0x22] : List Byte).length = 2 ∧ (1 : Nat) < 2 := by decide

theorem test_hyp_OnlyResetClears : ({ State.reset with runState := .done } : State).runState ≠ .run := by decide

theorem test_hyp_SeqCountsTheFrames : (∃ t, step (encP1 .begin) = .next t) ∧ (encP1 .begin).cfg.placement = .inside :=
  ⟨⟨_, rfl⟩, rfl⟩

theorem test_hyp_ResetIsLegal : State.reset.Started := ⟨_, _, _, rfl⟩

/-- A legal state inside a line, with an opcode to run, whose buffer is filled by its puts. -/
theorem test_hyp_LegalIsKeptByEveryStep :
    (inLine .op .m1 1 1 [0x80, 0x00, 0x07]).Legal where
  accWf := by decide
  tblWf := by decide
  accRange := by decide
  tblRange := by decide
  tlen := by decide
  accPos := by decide
  linesLeft := by decide
  padRow := by decide
  w := by decide
  height := by decide
  blkNum := by decide
  inBlock := by decide
  inLine := by unfold State.tableLoaded; decide
  faults := by decide
  encoder := by decide
  exit := by decide
  record := by decide
  severity := ⟨(by intro h; cases h), (by rintro ⟨_, h, _⟩; cases h)⟩

/-- That state steps; its buffer is empty; and M1 to M3 is no change to or from M2. -/
theorem test_hyp_AccStaysFilledByItsPuts :
    (inLine .op .m1 1 1 [0x80, 0x00, 0x07]).accFilled ∧ (inLine .op .m1 1 1 [0x80, 0x00, 0x07]).accPos = 0 ∧
    (Model.m1 = .m2 ↔ Model.m3 = .m2) ∧ ∃ t, step (inLine .op .m1 1 1 [0x80, 0x00, 0x07]) = .next t :=
  ⟨test_hyp_put_ready.filled, by decide, by decide, _, rfl⟩

theorem test_hyp_DecodeAlwaysHasANextStep : (inLine .op .m1 1 1 [0x80, 0x00, 0x07]).Legal ∧
    (inLine .op .m1 1 1 [0x80, 0x00, 0x07]).accFilled ∧ (inLine .op .m1 1 1 [0x80, 0x00, 0x07]).runState = .run ∧
    (inLine .op .m1 1 1 [0x80, 0x00, 0x07]).cfg.dir = .decode :=
  ⟨test_hyp_LegalIsKeptByEveryStep, test_hyp_put_ready.filled, by decide, by decide⟩

theorem test_hyp_RawChunksAreFullButTheLast : 64 * 1 < (List.replicate 65 (0 : Byte)).length := by decide

theorem test_hyp_RepeatDecomposition : 3 ≤ 63 ∧ 63 < 64 ∧ 64 ≤ 4095 ∧ 4095 < 4096 ∧ 4096 ≤ 8191 ∧ 8191 < 8192 := by decide

/-- Short runs of 2 and 1; then the shortest repeat, with and without bytes on either side of it; and R170's first body,
whose row length is 8, or 3 under UNPADDED. -/
theorem test_hyp_RepeatDecomposition_composed :
    (∀ r ∈ runsOf [1, 1, 2], r.2 < 3) ∧ ([1, 1, 2] : List Byte).getLast? ≠ some 3 ∧ ([4] : List Byte).head? ≠ some 3 ∧
    repeatOps 3 3 = some [0x83, 3] ∧ encodeLine Cfg.decided .m1 [4] = .stream [0x80, 0x00, 4] ∧
    encodeLine Cfg.decided .m1 [] = .stream [0x80] ∧ ([] : List Byte).getLast? ≠ some 3 ∧
    encodeLine Cfg.decided .m1 [0x55, 0x55, 0x55] = .stream [0x80, 0x83, 0x55] ∧
    8 = (if Cfg.decided.rowLenMode = .total then 2 + 3 + padLenFor (2 + 1) else 2 + 1) ∧
    3 = (if ({ Cfg.decided with rowLenMode := .unpadded } : Cfg).rowLenMode = .total then 2 + 3 + padLenFor (2 + 1)
      else 2 + 1) := by decide

/-- The first run that is too long, after a run of 2, and the longest that is not. -/
theorem test_hyp_LongRunsHaveNoEncoding : 8192 ≤ 8192 ∧ (∀ r ∈ runsOf [1, 1], r.2 < 8192) ∧ 8191 < 8192 ∧
    ([1, 1] : List Byte).getLast? ≠ some 3 ∧ ([] : List Byte).head? ≠ some 3 ∧
    encodeLine Cfg.decided .m1 [1, 1] = .stream [0x80, 0x01, 1, 1] ∧
    8 = (if Cfg.decided.rowLenMode = .total then 4 + 2 + padLenFor 4 else 4) ∧ ([1, 1] : List Byte).length ≤ 8192 := by
  decide

/-- A line without runs: k times the bytes 0, 1. -/
def zigzag : Nat → List Byte
  | 0 => []
  | k + 1 => 0 :: 1 :: zigzag k

theorem zigzag_runs (k : Nat) : runsOf (zigzag k) = (zigzag k).map fun b => (b, 1) := by
  induction k with
  | zero => rfl
  | succ k ih => cases k <;> simp_all [zigzag, runsOf]

theorem zigzag_codes (l lit : List Byte) (i : Nat) :
    codeRuns (l.map fun b => (b, 1)) lit i = .stream (rawChunks (lit ++ l)) := by
  induction l generalizing lit i with
  | nil => simp [codeRuns]
  | cons b l ih => simp [codeRuns, ih]

theorem zigzag_chunks (k : Nat) (l : List Byte) (h : l.length ≤ k) : l.length ≤ (rawChunksUpTo k l).length := by
  induction k generalizing l with
  | zero => omega
  | succ k ih =>
    cases l with
    | nil => simp
    | cons b l =>
      have := ih ((b :: l).drop (min 64 (b :: l).length)) (by simp at h ⊢; omega)
      simp [rawChunksUpTo] at this ⊢
      omega

theorem zigzag_length (k : Nat) : (zigzag k).length = 2 * k := by
  induction k with
  | zero => rfl
  | succ k ih => simp [zigzag, ih]; omega

theorem zigzag_row (k : Nat) (hk : 8192 ≤ k) : (∀ r ∈ runsOf (zigzag k), r.2 < 8192) ∧
    ∃ body, encodeLine Cfg.decided .m1 (zigzag k) = .stream body ∧
      16383 < (if Cfg.decided.rowLenMode = .total then body.length + 2 + padLenFor body.length else body.length) := by
  refine ⟨by simp [zigzag_runs], 0x80 :: rawChunks (zigzag k), ?_, ?_⟩
  · simp [encodeLine, zigzag_runs, zigzag_codes]
  · have h := zigzag_chunks (zigzag k).length (zigzag k) (Nat.le_refl _)
    rw [zigzag_length] at h
    simp only [rawChunks, zigzag_length, List.length_cons] at h ⊢
    split <;> omega

/-- 16384 bytes without runs: no run is too long, and the row length exceeds 16383. -/
theorem test_hyp_LongRunsHaveNoEncoding_row : (∀ r ∈ runsOf (zigzag 8192), r.2 < 8192) ∧
    ∃ body, encodeLine Cfg.decided .m1 (zigzag 8192) = .stream body ∧
      16383 < (if Cfg.decided.rowLenMode = .total then body.length + 2 + padLenFor body.length else body.length) :=
  zigzag_row 8192 (Nat.le_refl _)

theorem test_hyp_PaddedStreamIsAMultipleOfFour : encodeLine Cfg.decided .m3 [0x55, 0x55, 0x55] =
    .stream [0xC0, 0x08, 0xC0, 0xFF, 0xFF, 0xFF, 0x83, 0x55] := by decide

/-- A padded line on M3, W = 3, whose stream is all of D. -/
theorem test_hyp_LineRoundTrip :
    let s := inLine .lhdr .m3 3 0 [0xC0, 0x08, 0xC0, 0xFF, 0xFF, 0xFF, 0x83, 0x55]
    s.cfg.padLayout = Cfg.decided.padLayout ∧ s.cfg.dir = .decode ∧
    s.runState = .run ∧ s.ctx = .lhdr ∧ s.linesLeft = 1 ∧ ([0x55, 0x55, 0x55] : List Byte).length = s.leff ∧
    encodeLine s.cfg s.model [0x55, 0x55, 0x55] = .stream s.d ∧ s.cur + s.d.length = s.d.length ∧
    s.d.drop s.cur = s.d := by decide

theorem test_hyp_LineRoundTrip_ready :
    (inLine .lhdr .m3 3 0 [0xC0, 0x08, 0xC0, 0xFF, 0xFF, 0xFF, 0x83, 0x55]).PutReady :=
  ⟨by decide, by decide, by unfold State.accFilled; decide⟩

theorem test_hyp_GroupsCoverThePlane : 1 ≤ 5 ∧ 5 ≤ groupCount 9 := by decide

theorem test_hyp_EncodeStream : encodeCfg.dir = .encode ∧ encodeCfg.layouts = Layouts.reference ∧
    modelByte encodeCfg.modelCode .m2 = some 2 ∧ (encP1 .end_).runState = .run ∧ (encP1 .end_).cfg.dir = .encode ∧
    (encP1 .params).phase = .params ∧ (encP1 .endPart).phase = .endPart ∧ (encP1 .end_).phase = .end_ ∧
    Model.unknown ∉ [Model.m1, .m2, .m3] := by decide

theorem test_hyp_PageBlockCarriesTheFinalColorMode : (encP1 .page).job.pages[(encP1 .page).encPage]? = some pageP1 ∧
    pageP1.shaped = true ∧ pageP1.height ≠ 0 ∧ pageP1.isColor = false := by decide

/-- A scanline of program P1's page that is one byte too long, a plane with a scanline too few, and a colour page without
its other planes. -/
theorem test_hyp_PageBlockCarriesTheFinalColorMode_shape :
    ({ pageP1 with planeK := [[0], [0, 0]] } : Page).shaped = false ∧ ({ pageP1 with planeK := [[0]] } : Page).shaped = false ∧
    ({ pageP1 with isColor := true } : Page).shaped = false := by decide

/-- A group that is not the plane's last and one that is, in plane K and in plane Y. -/
theorem test_hyp_DataBlockCarriesItsGroup : (encP1 .data).encBuf.length ≤ 65527 ∧ (encP1 .data).phase = .data ∧
    (encP1 .data).cfg.placement = .inside ∧ (encP1 .data).cfg.layouts = Layouts.reference ∧
    (let s : State := { encP1 .data with height := 3, encChan := .y }
     s.blkNum < groupCount s.totalLines ∧ ({ s with blkNum := 2 } : State).encChan = .y ∧
     groupCount s.totalLines ≤ 2 ∧ s.totalLines ≠ 0) ∧
    ({ Cfg.decided with placement := .trailing } : Cfg).placement = .trailing := by
  decide

theorem test_hyp_DataBlockCarriesItsGroup_long : 65527 < (List.replicate 65528 (0 : Byte)).length := by
  rw [List.length_replicate]; decide

/-- The line of program P1: it fits an unbounded and a 4-byte buffer, and not a 3-byte one. Its page's lines as the last
clauses want them: two lines, and the odd one of vector E42. -/
theorem test_hyp_LineStepAppendsItsStream :
    let s := encP1 .line
    s.job.pages[s.encPage]? = some pageP1 ∧
    logicalLine s.model s.w s.height (pageP1.plane s.encChan) s.encLine = some [0, 0] ∧
    encodeLine s.cfg s.model [0, 0] = .stream [0x80, 1, 0, 0] ∧ s.encBuf.length + 4 ≤ 4 ∧ 3 < s.encBuf.length + 4 ∧
    pageP1.planeK[2 * 0]? = some [0] ∧ ([0] : List Byte).length = s.w ∧ 2 * 0 + 1 < s.height ∧
    pageP1.planeK[2 * 0 + 1]? = some [0] ∧ 1 ≤ 2 * 0 + 1 ∧ Model.m3 ≠ .m2 := by
  decide

/-- R167's fault, from the run of 8192 that has no encoding. -/
theorem test_hyp_LineStepAppendsItsStream_fail (i : Nat) :
    codeRuns [(0, 8192)] [] i = .fail (.encRun 8192) i := rfl

end Sys2Proof.Tests
end

namespace Sys2Proof.Machine

/-! PROOFS. Decode accepts encodings only: what each context's decoder reads, the encoder writes again (R13, R90 to
R107). -/

/-- `le16` writes what `leVal` reads. -/
theorem le16_leVal (lo hi : Byte) : le16 (leVal lo hi) = [lo, hi] := by
  have hl := lo.isLt
  have hh := hi.isLt
  simp only [le16, leVal, List.cons.injEq, and_true]
  constructor <;> apply BitVec.eq_of_toNat_eq <;> simp only [BitVec.toNat_ofNat] <;> omega

theorem leVal_le (lo hi : Byte) : leVal lo hi ≤ 65535 := by
  have hl := lo.isLt
  have hh := hi.isLt
  unfold leVal
  omega

theorem code_of_blockTypeOf {ty : Byte} {t : BlockType} (h : blockTypeOf ty = some t) : t.code = ty := by
  unfold blockTypeOf at h
  split_ifs at h with h1 h2 h3 h4 h5 h6 <;> cases h <;> exact Eq.symm ‹_›

theorem BlockType.instr_wf (c : Cfg) (t : BlockType) (f : Frame) : (t.instr f).wf c = f.wf := by cases t <;> rfl

theorem BlockType.encode_instr (c : Cfg) (t : BlockType) (f : Frame) :
    encode c (t.instr f) = frameBytes t.code f := by cases t <;> rfl

/-- A decoded frame is well-formed, and its bytes stood before the rest. -/
theorem decodeFrame_sound {bytes rest : List Byte} {i : Instr} (c : Cfg) (h : decodeFrame bytes = .ok i rest) :
    i.wf c = true ∧ encode c i ++ rest = bytes := by
  unfold decodeFrame at h
  split at h
  · cases h
  · next magic ty seq lo hi inv body =>
    split at h
    · cases h
    · next b _ hdrop =>
      split at h
      · next t ht =>
        cases h
        have hlen : (body.take (leVal lo hi)).length = leVal lo hi := by
          have := congrArg List.length hdrop
          simp only [List.length_drop, List.length_cons] at this
          rw [List.length_take]; omega
        have hbody : body.take (leVal lo hi) ++ b :: rest = body := hdrop ▸ List.take_append_drop ..
        rw [BlockType.instr_wf, BlockType.encode_instr, code_of_blockTypeOf ht]
        refine ⟨by simp only [Frame.wf, hlen, leVal_le, decide_true], ?_⟩
        simp [frameBytes, frameHeader, hlen, le16_leVal, hbody]
      · cases h
  · cases h

/-- A header byte is its two flags and its table length: checked for each of the 256 bytes. -/
theorem encodeLhdr_decoded (b : PadpBit) (f : Byte) :
    encodeLhdr b (f.getLsbD 7) (f.getLsbD b.index) (lhdrTlen b f) = f := by
  revert f; cases b <;> decide

theorem lhdrTlen_masked (b : PadpBit) (f : Byte) : lhdrTlen b f &&& b.tlenMask = lhdrTlen b f := by
  cases b <;> simp [lhdrTlen, PadpBit.tlenMask, BitVec.and_assoc]

/-- A word is its high and its low bits. -/
theorem extractLsb'_append_extractLsb'_self {m n : Nat} (h : BitVec (m + n)) :
    h.extractLsb' n m ++ h.extractLsb' 0 n = h :=
  (BitVec.extractLsb'_append_extractLsb'_eq_extractLsb' (Nat.zero_add n).symm).trans BitVec.extractLsb'_eq_self

theorem decodeOp_sound (c : Cfg) (op : Byte) : (decodeOp op).wf c = true ∧ encode c (decodeOp op) = [op] := by
  have h : op.extractLsb' 6 2 ++ op.setWidth 6 = op := by
    rw [BitVec.setWidth_eq_extractLsb' (by decide)]
    exact extractLsb'_append_extractLsb'_self (m := 2) (n := 6) op
  have h4 : ∀ k : BitVec 2, k = 0 ∨ k = 1 ∨ k = 2 ∨ k = 3 := by decide
  unfold decodeOp
  rcases h4 (op.extractLsb' 6 2) with e | e | e | e <;> rw [e] at h ⊢ <;> exact ⟨rfl, congrArg (fun b => [b]) h⟩

/-- The 16 bits of a pad header as a pair of 2 and 14. -/
def padFieldsEquiv : BitVec 2 × BitVec 14 ≃ BitVec 16 where
  toFun x := x.1 ++ x.2
  invFun h := (h.extractLsb' 14 2, h.extractLsb' 0 14)
  left_inv _ := Prod.ext BitVec.extractLsb'_append_eq_left BitVec.extractLsb'_append_eq_right
  right_inv h := extractLsb'_append_extractLsb'_self (m := 2) (n := 14) h

/-- A pair that obeys R13 is a bijection of the 65536 words: `pack` is injective by the law, and its domain has as many
elements, so every word is packed from what it unpacks to. -/
theorem PadLayout.Lawful.pack_unpack {l : PadLayout} (hl : PadLayout.Lawful l) (h : BitVec 16) :
    l.pack (l.unpack h).1 (l.unpack h).2 = h := by
  have hinj : Function.Injective fun x : BitVec 2 × BitVec 14 => l.pack x.1 x.2 :=
    Function.LeftInverse.injective (g := l.unpack) fun x => hl x.1 x.2
  have : Finite (BitVec 2 × BitVec 14) :=
    Finite.of_injective (fun x => (x.1.toFin, x.2.toFin)) fun _ _ e =>
      Prod.ext (BitVec.toFin_inj.1 (congrArg Prod.fst e)) (BitVec.toFin_inj.1 (congrArg Prod.snd e))
  obtain ⟨x, rfl⟩ := (Finite.injective_iff_surjective_of_equiv padFieldsEquiv).1 hinj h
  simp only [hl x.1 x.2]

theorem wordBytes_append (b1 b0 : Byte) : wordBytes (b1 ++ b0) = [b0, b1] := by
  simp only [wordBytes, List.cons.injEq, and_true]
  exact ⟨BitVec.setWidth_append_eq_right, BitVec.extractLsb'_append_eq_left⟩

/-- Settles O2, by the four contexts: what each decoder reads, the encoder writes again. -/
theorem decodeAcceptsOnlyEncodings : Obligations.DecodeAcceptsOnlyEncodings := by
  intro c ctx bytes i rest hl h
  refine and_left_comm.1 ⟨decode_context h, ?_⟩
  cases ctx with
  | frame => exact decodeFrame_sound c h
  | lhdr =>
    cases bytes with
    | nil => cases h
    | cons f _ =>
      cases h
      exact ⟨decide_eq_true (lhdrTlen_masked c.padpBit f), congrArg (· :: rest) (encodeLhdr_decoded c.padpBit f)⟩
  | padhdr =>
    rcases bytes with _ | ⟨b0, _ | ⟨b1, _⟩⟩
    · cases h
    · cases h
    · cases h
      refine ⟨rfl, ?_⟩
      rw [decodePadhdr, encode, PadLayout.Lawful.pack_unpack hl, wordBytes_append]
      rfl
  | op =>
    cases bytes with
    | nil => cases h
    | cons op _ =>
      cases h
      obtain ⟨hwf, he⟩ := decodeOp_sound c op
      exact ⟨hwf, congrArg (· ++ rest) he⟩

end Sys2Proof.Machine

namespace Sys2Proof.Machine

/-! PROOFS. One step of the decode direction: when it holds two instructions, and which (R192, R194, assumption log
4). -/

/-- Only a frame has an unknown type (R138). -/
theorem decode_unknownType_ctx {c : Cfg} {ctx : Context} {bytes rest : List Byte} {ty : Byte} {f : Frame}
    (h : decode c ctx bytes = .unknownType ty f rest) : ctx = .frame := by
  cases ctx with
  | frame => rfl
  | lhdr => cases bytes <;> cases h
  | op => cases bytes <;> cases h
  | padhdr => rcases bytes with _ | ⟨_, _ | ⟨_, _⟩⟩ <;> cases h

theorem Instr.eq_lhdr_of_context {i : Instr} (h : i.context = .lhdr) :
    ∃ present padp tlen, i = .lhdr present padp tlen := by
  cases i with
  | lhdr present padp tlen => exact ⟨present, padp, tlen, rfl⟩
  | _ => cases h

/-- `s` once an LHDR with padding is read: its PADHDR is the next instruction. -/
def State.awaitPadhdr (s : State) (present : Bool) (tlen : BitVec 7) : State :=
  { State.warnIf (!present) .lineFlag { s with lstart := s.cur, padRow := none, padLen := 0, cur := s.cur + 1 } with
    hdrTlen := tlen.toNat
    ctx := .padhdr }

theorem execLhdr_padded (present : Bool) (tlen : BitVec 7) (s : State) :
    execLhdr present true tlen s = .next (s.awaitPadhdr present tlen) := rfl

@[simp] theorem State.awaitPadhdr_cfg (s : State) (present : Bool) (tlen : BitVec 7) :
    (s.awaitPadhdr present tlen).cfg = s.cfg := State.warnIf_cfg ..

@[simp] theorem State.awaitPadhdr_runState (s : State) (present : Bool) (tlen : BitVec 7) :
    (s.awaitPadhdr present tlen).runState = s.runState := State.warnIf_runState ..

@[simp] theorem State.awaitPadhdr_ctx (s : State) (present : Bool) (tlen : BitVec 7) :
    (s.awaitPadhdr present tlen).ctx = .padhdr := rfl

/-- The cursor stands behind the header byte. -/
theorem State.awaitPadhdr_window (s : State) (present : Bool) (tlen : BitVec 7) :
    (s.awaitPadhdr present tlen).window = s.d.drop (s.cur + 1) := by
  simp [State.window, State.awaitPadhdr]

theorem linesLoop_ctx (s : State) : (linesLoop s).ctx ≠ .padhdr := by
  rcases linesLoop_cases s with ⟨-, e⟩ | ⟨-, e⟩ <;> simp [e, endData]

theorem opLoop_ctx (s : State) :
    (opLoop s).Post (fun _ t => t.ctx ≠ .padhdr) (fun t => t.ctx ≠ .padhdr) := by
  rcases opLoop_cases s with ⟨-, e⟩ | ⟨-, e⟩ <;> rw [e]
  · simp [Flow.Post]
  · unfold endLine
    split
    · simp [Flow.Post, Trap.runFatal]
    · exact linesLoop_ctx _

theorem loadTable_ctx (i n : Nat) (s : State) :
    (loadTable i n s).Post (fun _ _ => True) (fun t => t.ctx ≠ .padhdr) := by
  induction n generalizing i s with
  | zero => trivial
  | succ n ih =>
    refine Flow.post_bind (P := fun _ _ => True) ?_ fun b s1 _ => ih _ _
    rcases nextByte_cases s with ⟨b, -, e⟩ | ⟨-, e⟩ <;> rw [e]
    · trivial
    · simp [Flow.Post, Trap.runFatal]

/-- What follows a header without padding, the end of the line included, leads to no PADHDR. -/
theorem startOps_ctx (n : Nat) (s : State) :
    (startOps n s).Post (fun _ t => t.ctx ≠ .padhdr) (fun t => t.ctx ≠ .padhdr) := by
  rcases startOps_cases n s with ⟨-, e⟩ | ⟨-, e⟩ <;> rw [e]
  · simp [Flow.Post, Trap.runFatal]
  · exact Flow.post_bind (loadTable_ctx 0 n _) fun _ s1 _ => opLoop_ctx _

theorem truncatedLine_ctx (s : State) : (truncatedLine s).ctx = .frame := by
  simp [truncatedLine, Trap.runFatal]

/-- In context LHDR, only an LHDR with padding leads to context PADHDR. -/
theorem decodeOne_to_padhdr {s t : State} (hc : s.ctx = .lhdr) (h : decodeOne s = .next t) (ht : t.ctx = .padhdr) :
    ∃ present tlen rest, fetch s = .ok (.lhdr present true tlen) rest ∧ t = s.awaitPadhdr present tlen := by
  unfold decodeOne at h
  split at h
  · next i rest he =>
    have hi : i.context = .lhdr := (decode_context he).trans hc
    obtain ⟨present, padp, tlen, rfl⟩ := Instr.eq_lhdr_of_context hi
    cases padp with
    | true =>
      cases h
      exact ⟨present, tlen, rest, he, rfl⟩
    | false => exact absurd ht (Flow.post_next (P := fun u => u.ctx ≠ .padhdr) (startOps_ctx _ _) h)
  · cases h; simp [atEnd, hc, truncatedLine_ctx] at ht
  · cases h; simp [atTruncation, hc, truncatedLine_ctx] at ht
  · next he => exact absurd (hc.symm.trans (decode_unknownType_ctx he)) (by simp)

/-- The bytes a decoded LHDR leaves. -/
theorem decode_lhdr_rest {c : Cfg} {bytes rest : List Byte} {i : Instr} (h : decode c .lhdr bytes = .ok i rest) :
    rest = bytes.drop 1 := by
  cases bytes with
  | nil => cases h
  | cons f _ => cases h; rfl

/-- The step of an LHDR without padding, and of every other instruction, is that instruction. -/
theorem decodeStep_of_fetch {s : State} {i : Instr} {rest : List Byte} (h : fetch s = .ok i rest)
    (hi : ∀ present tlen, i ≠ .lhdr present true tlen) : decodeStep s = exec i s := by
  rw [← decodeOne_of_ok h]
  rcases decodeStep_cases s with e | ⟨t, hc, ht, hp, -⟩
  · exact e
  · obtain ⟨present, tlen, rest', he, -⟩ := decodeOne_to_padhdr hc ht hp
    cases h.symm.trans he
    exact absurd rfl (hi present tlen)

/-- The step of an LHDR with padding is that of the instruction behind it. -/
theorem decodeStep_of_fetch_padded {s : State} {present : Bool} {tlen : BitVec 7} {rest : List Byte}
    (h : fetch s = .ok (.lhdr present true tlen) rest) :
    decodeStep s = decodeOne (s.awaitPadhdr present tlen) := by
  have hc : s.ctx = .lhdr := (decode_context h).symm
  have h1 : decodeOne s = .next (s.awaitPadhdr present tlen) := decodeOne_of_ok h
  simp [decodeStep, h1, hc]

/-- Settles O5. An instruction that is no LHDR with padding leads to no PADHDR, so the step ends with it; an LHDR with
padding leads to `awaitPadhdr`, whose window is what the decoder left. -/
theorem stepRunsTheDecodedInstruction : Obligations.StepRunsTheDecodedInstruction := by
  intro s i rest hr hd _ h
  rw [step_of_decode hr hd]
  refine ⟨decodeStep_of_fetch h, ?_⟩
  rintro present tlen rfl
  have hc : s.ctx = .lhdr := (decode_context h).symm
  have hrest : (s.awaitPadhdr present tlen).window = rest := by
    rw [hc] at h
    rw [State.awaitPadhdr_window, decode_lhdr_rest h]
    simp [State.window, hc]
  refine ⟨s.awaitPadhdr present tlen, execLhdr_padded present tlen s, rfl, hrest, rfl, fun j rest' hj => ?_⟩
  rw [decodeStep_of_fetch_padded h]
  exact decodeOne_of_ok (rest := rest') (by simpa [hrest] using hj)

end Sys2Proof.Machine

namespace Sys2Proof.Machine

/-! PROOFS. Every step of either direction keeps a state legal. Inside a step the context is not yet what it will be,
so the pseudocode's pieces are shown to keep weaker predicates, from which a legal state follows at each place where the
step can end. -/

/-! ### What a block-fatal and a run-fatal fault leave (R283 to R285) -/

/-- The record of a fault of a running session. -/
theorem State.recordFault_of_running {s : State} (hr : s.runState = .run) (t : Trap) :
    ∃ blk, s.recordFault t = { s with fcode := t.code, finfo := some t, fpos := s.faultPos, fblk := blk } :=
  ⟨_, if_neg (by simp [hr])⟩

/-- A block-fatal fault of a running session: the record, one block more skipped, and back to the frame loop. -/
theorem State.raise_of_blockFatal {s : State} {t : Trap} (hr : s.runState = .run) (ht : t.runFatal = false) :
    ∃ blk, s.raise t =
      { s with
        fcode := t.code
        finfo := some t
        fpos := s.faultPos
        fblk := blk
        nblkFatal := s.nblkFatal + 1
        ctx := .frame } := by
  obtain ⟨blk, e⟩ := State.recordFault_of_running hr t
  exact ⟨blk, by rw [State.raise, e, ht]; rfl⟩

/-- A run-fatal fault of a running session: the record, and HALT with EXIT = NONZERO. -/
theorem State.raise_of_runFatal {s : State} {t : Trap} (hr : s.runState = .run) (ht : t.runFatal = true) :
    ∃ blk, s.raise t =
      { s with
        fcode := t.code
        finfo := some t
        fpos := s.faultPos
        fblk := blk
        runState := .halt
        exit := .nonzero } := by
  obtain ⟨blk, e⟩ := State.recordFault_of_running hr t
  exact ⟨blk, by rw [State.raise, e, ht]; rfl⟩

/-- `warnIf` writes the warning registers only. -/
theorem State.warnIf_eq (b : Bool) (k : Warning) (s : State) : ∃ ws, s.warnIf b k = { s with warns := ws } := by
  cases b
  · exact ⟨s.warns, rfl⟩
  · exact ⟨s.warns.raise k, rfl⟩

/-- The residue's handling writes the warning registers and SINK only. -/
theorem residue_eq (s : State) : ∃ ws u, residue s = { s with warns := ws, sink := u } := by
  unfold residue
  split
  · exact ⟨s.warns, s.sink, rfl⟩
  · dsimp only
    split
    · exact ⟨s.warns.raise .residual, _, rfl⟩
    · exact ⟨s.warns.raise .residual, s.sink, rfl⟩

/-! ### Legal running states -/

/-- A running session has recorded no run-fatal fault. -/
theorem State.Legal.no_fatal {s : State} (h : s.Legal) (hr : s.runState = .run) :
    ¬ ∃ t, s.finfo = some t ∧ t.runFatal = true :=
  fun hf => by have := h.severity.2 hf; simp [hr] at this

/-- The exit status of a running session. -/
theorem State.Legal.exit_ne {s : State} (h : s.Legal) (hr : s.runState = .run) : s.exit ≠ .nonzero :=
  fun he => by have := h.exit.1 he; simp [hr] at this

theorem State.Legal.raise_runFatal {s : State} {t : Trap} (h : s.Legal) (hr : s.runState = .run)
    (ht : t.runFatal = true) : (s.raise t).Legal := by
  obtain ⟨blk, e⟩ := State.raise_of_runFatal hr ht
  rw [e]
  exact { h with exit := by simp, record := rfl, severity := by simp [ht] }

/-- A running session that ends well. -/
theorem State.Legal.done {s : State} (h : s.Legal) (hr : s.runState = .run) :
    ({ s with runState := .done } : State).Legal :=
  { h with
    exit := by simpa using h.exit_ne hr
    severity := by simpa using h.no_fatal hr }

theorem State.Legal.warns {s : State} (h : s.Legal) (ws : Warnings) : ({ s with warns := ws } : State).Legal :=
  { h with }

theorem finish_legal {s : State} (h : s.Legal) (hr : s.runState = .run) : (finish s).Legal := by
  obtain ⟨ws, u, e⟩ := residue_eq s
  rw [finish, e]
  exact { h.done hr with }

/-! ### A session inside a block -/

/-- A decode session handles a block whose frame it has read (R134): the block counts in NBLK and is not yet among the
skipped ones, and the state is legal but for what holds of the context. -/
structure State.Handling (s : State) : Prop where
  legal : ({ s with ctx := .frame } : State).Legal
  running : s.runState = .run
  decoding : s.cfg.dir = .decode
  counted : s.nblkFatal < s.nblk

/-- The block is a Data block with a line in progress (R190, R257). -/
structure State.InData (s : State) : Prop extends State.Handling s where
  wide : 0 < s.w
  line : 0 < s.linesLeft

/-- The line's header is read, its table loaded (R197): the state of the opcode loop but for its test of PRODUCED. -/
structure State.InOps (s : State) : Prop extends State.InData s where
  loaded : s.tableLoaded

theorem State.Legal.of_frame {s : State} (hc : s.ctx = .frame) :
    ({ s with ctx := .frame } : State).Legal ↔ s.Legal := by
  rw [show ({ s with ctx := .frame } : State) = s by rw [← hc]]

theorem State.Legal.inData {s : State} (h : s.Legal) (hr : s.runState = .run) (hc : s.ctx ≠ .frame) : s.InData := by
  have hf := h.faults
  rw [if_neg hc] at hf
  have hd : s.cfg.dir = .decode := by
    cases hd : s.cfg.dir with
    | decode => rfl
    | encode => exact absurd (h.encoder hd).1 hc
  obtain ⟨hw, hl⟩ := h.inBlock hc
  have hn : s.nblkFatal + 0 ≤ s.nblk := by omega
  have hl' : ({ s with ctx := .frame } : State).Legal :=
    { h with inBlock := by simp, inLine := by simp, faults := hn, encoder := by simp [hd] }
  exact ⟨⟨hl', hr, hd, hf⟩, hw, hl⟩

theorem State.Legal.inOps {s : State} (h : s.Legal) (hr : s.runState = .run) (hc : s.ctx = .op) : s.InOps :=
  ⟨h.inData hr (by simp [hc]), (h.inLine hc).2⟩

/-- A state inside a Data block is legal in every context; in the opcode context where the loop's test holds. -/
theorem State.InData.legal_at {s : State} (h : s.InData) {c : Context}
    (hc : c = .op → s.produced < s.leff ∧ s.tableLoaded) : ({ s with ctx := c } : State).Legal := by
  have hn := h.counted
  refine { h.legal with inBlock := fun _ => ⟨h.wide, h.line⟩, inLine := hc, faults := ?_, encoder := ?_ }
  · dsimp only; split <;> omega
  · simp [h.decoding]

theorem State.Handling.raise {s : State} {t : Trap} (h : s.Handling) (ht : t.runFatal = false) : (s.raise t).Legal := by
  obtain ⟨blk, e⟩ := State.raise_of_blockFatal h.running ht
  rw [e]
  exact
    { h.legal with
      faults := h.counted
      record := rfl
      severity := by simp [h.running, ht] }

theorem State.Handling.setCur {s : State} (h : s.Handling) (n : Nat) : (s.setCur n).Handling :=
  { h with legal := { h.legal with } }

theorem State.Handling.warnIf {s : State} (h : s.Handling) (b : Bool) (k : Warning) : (s.warnIf b k).Handling := by
  obtain ⟨ws, e⟩ := State.warnIf_eq b k s
  rw [e]
  exact { h with legal := { h.legal with } }

theorem State.Handling.setLinesLeft {s : State} (h : s.Handling) {n : Nat} (hn : n < 65536) :
    ({ s with linesLeft := n } : State).Handling :=
  { h with legal := { h.legal with linesLeft := hn, inBlock := by simp } }

theorem State.InData.setCur {s : State} (h : s.InData) (n : Nat) : (s.setCur n).InData :=
  { h with toHandling := h.toHandling.setCur n }

theorem State.InData.warnIf {s : State} (h : s.InData) (b : Bool) (k : Warning) : (s.warnIf b k).InData :=
  ⟨h.toHandling.warnIf b k, by simpa using h.wide, by simpa using h.line⟩

theorem State.InOps.setCur {s : State} (h : s.InOps) (n : Nat) : (s.setCur n).InOps :=
  { h with toInData := h.toInData.setCur n }

/-- ACC and ACCPOS may take any values of canonical form and range. -/
theorem State.InOps.withPut {s : State} (h : s.InOps) {m : Memory} {p : Nat} (hwf : m.wf = true)
    (hm : ∀ c ∈ m, c.1 < 2 * s.w) (hp : p < 2 * s.w) (u : List FlushUnit) : (s.withPut m p u).InOps :=
  { h with
    legal :=
      { h.legal with
        accWf := hwf
        accRange := hm
        accPos := .inl hp
        encoder := by simp [State.withPut, h.decoding] } }

/-! ### The pseudocode inside a line (R191 to R205) -/

/-- A read of D moves `cur` or ends the block. -/
theorem nextByte_post {P : State → Prop} {s : State} (h : s.Handling) (hp : P (s.setCur (s.cur + 1))) :
    (nextByte s).Post (fun _ t => P t) State.Legal := by
  rcases nextByte_cases s with ⟨b, -, e⟩ | ⟨-, e⟩ <;> rw [e]
  · exact hp
  · exact h.raise rfl

theorem tRead_post {s : State} (h : s.InOps) (i : Nat) : (tRead i s).Post (fun _ t => t.InOps) State.Legal := by
  rcases tRead_cases i s with ⟨b, -, -, e⟩ | ⟨-, e⟩ <;> rw [e]
  · exact h
  · exact h.raise rfl

theorem putByte_post {s : State} (h : s.InOps) (v : Byte) : (putByte v s).Post (fun _ t => t.InOps) State.Legal := by
  have hw := h.wide
  have hpos : s.accPos < 2 * s.w := by rcases h.legal.accPos with hp | hp <;> simp only at hp <;> omega
  rcases putByte_cases v s with ⟨ha, hne, e⟩ | ⟨u, -, -, -, e⟩ | ⟨-, -, -, e⟩ | ⟨-, e⟩ <;> rw [e]
  · refine h.withPut (Memory.wf_write h.legal.accWf _ _) (fun c hc => ?_) (by omega) _
    rcases Memory.mem_write hc with hc | rfl
    · exact h.legal.accRange c hc
    · exact ha
  · exact h.withPut Memory.wf_nil (by simp) (by omega) _
  · trivial
  · trivial

theorem putCopies_post {n : Nat} {s : State} (h : s.InOps) (v : Byte) :
    (putCopies n v s).Post (fun _ t => t.InOps) State.Legal := by
  induction n generalizing s with
  | zero => exact h
  | succ n ih => exact Flow.post_bind (putByte_post h v) fun _ _ h1 => ih h1

theorem putLiterals_post {n : Nat} {s : State} (h : s.InOps) :
    (putLiterals n s).Post (fun _ t => t.InOps) State.Legal := by
  induction n generalizing s with
  | zero => exact h
  | succ n ih =>
    exact Flow.post_bind (nextByte_post h.toHandling (h.setCur _)) fun b _ h1 =>
      Flow.post_bind (putByte_post h1 b) fun _ _ h2 => ih h2

theorem putLookups_post {n : Nat} {s : State} (h : s.InOps) :
    (putLookups n s).Post (fun _ t => t.InOps) State.Legal := by
  induction n generalizing s with
  | zero => exact h
  | succ n ih =>
    exact Flow.post_bind (nextByte_post h.toHandling (h.setCur _)) fun x s1 h1 =>
      Flow.post_bind (tRead_post h1 (firstIndex s1.cfg x)) fun b _ h2 =>
      Flow.post_bind (putByte_post h2 b) fun _ s3 h3 =>
      Flow.post_bind (tRead_post h3 (secondIndex s3.cfg x)) fun b' _ h4 =>
      Flow.post_bind (putByte_post h4 b') fun _ _ h5 => ih h5

theorem readFiller_post {n : Nat} {s : State} (h : s.InData) :
    (readFiller n s).Post (fun _ t => t.InData) State.Legal := by
  induction n generalizing s with
  | zero => exact h
  | succ n ih =>
    exact Flow.post_bind (nextByte_post h.toHandling (h.setCur _)) fun x _ h1 =>
      ih (h1.warnIf (decide (x ≠ 0xFF)) .pad)

/-- One entry of T loaded, below TLEN. -/
theorem State.InData.writeTbl {s : State} (h : s.InData) {i : Nat} (hi : i < s.tlen) (b : Byte) :
    ({ s with tbl := s.tbl.write i b } : State).InData := by
  have hwf : (s.tbl.write i b).wf = true := Memory.wf_write h.legal.tblWf i b
  refine { h with legal := { h.legal with tblWf := hwf, tblRange := fun c hc => ?_, inLine := by simp } }
  rcases Memory.mem_write hc with hc | rfl
  · exact h.legal.tblRange c hc
  · exact hi

/-- The table load fills every entry from i on; those before it were loaded. -/
theorem loadTable_post {n i : Nat} {s : State} (h : s.InData) (hn : i + n = s.tlen)
    (hl : ∀ j < i, (s.tbl.read j).isSome = true) : (loadTable i n s).Post (fun _ t => t.InOps) State.Legal := by
  induction n generalizing i s with
  | zero => exact ⟨h, fun j hj => hl j (by omega)⟩
  | succ n ih =>
    refine Flow.post_bind (nextByte_post (P := fun t => t.InData ∧ t.tlen = s.tlen ∧ t.tbl = s.tbl) h.toHandling
      ⟨h.setCur _, rfl, rfl⟩) fun b s1 ⟨h1, hlen, htbl⟩ => ?_
    refine ih (h1.writeTbl (by omega) b) (by simp only; omega) fun j hj => ?_
    simp only [Memory.read_write, htbl]
    split
    · rfl
    · exact hl j (by omega)

/-! ### The loops of a Data block (R190, R198, R204) -/

theorem endData_legal {s : State} (h : s.Handling) : (endData s).Legal :=
  (h.warnIf (decide (s.cur < s.d.length)) .trailing).legal

/-- The line loop's test, with any number of lines left that 16 bits hold. -/
theorem linesLoop_legal {s : State} (h : s.Handling) (hw : 0 < s.w) : (linesLoop s).Legal := by
  rcases linesLoop_cases s with ⟨-, e⟩ | ⟨hl, e⟩ <;> rw [e]
  · exact endData_legal h
  · exact State.InData.legal_at ⟨h, hw, Nat.pos_of_ne_zero hl⟩ (by simp)

theorem endLine_post {s : State} (h : s.InData) : (endLine s).Post (fun _ t => t.Legal) State.Legal := by
  unfold endLine
  split
  · exact h.raise rfl
  · have h1 := h.warnIf (rowMismatch s) .pad
    have hl : (s.warnIf (rowMismatch s) .pad).linesLeft < 65536 := h1.legal.linesLeft
    exact linesLoop_legal (h1.setLinesLeft (by omega)) h1.wide

theorem opLoop_post {s : State} (h : s.InOps) : (opLoop s).Post (fun _ t => t.Legal) State.Legal := by
  rcases opLoop_cases s with ⟨hp, e⟩ | ⟨-, e⟩ <;> rw [e]
  · exact h.legal_at fun _ => ⟨hp, h.loaded⟩
  · exact endLine_post h.toInData

theorem State.InOps.setProduced {s : State} (h : s.InOps) (n : Nat) : ({ s with produced := n } : State).InOps :=
  { h with legal := { h.legal with inLine := by simp } }

theorem addProduced_post {n : Nat} {s : State} (h : s.InOps) :
    (addProduced n s).Post (fun _ t => t.Legal) State.Legal :=
  opLoop_post (h.setProduced _)

theorem startOps_post {n : Nat} {s : State} (h : s.InData) : (startOps n s).Post (fun _ t => t.Legal) State.Legal := by
  rcases startOps_cases n s with ⟨-, e⟩ | ⟨hn, e⟩ <;> rw [e]
  · exact h.raise rfl
  · have h1 : ({ s with tlen := n, tbl := [] } : State).InData :=
      { h with legal := { h.legal with tlen := hn, tblWf := Memory.wf_nil, tblRange := by simp, inLine := by simp } }
    exact Flow.post_bind (loadTable_post h1 (by simp) (by simp)) fun _ _ h2 => opLoop_post (h2.setProduced 0)

/-! ### The line instructions -/

theorem execLhdr_legal {s t : State} {present padp : Bool} {tlen : BitVec 7} (h : s.InData)
    (ht : execLhdr present padp tlen s = .next t) : t.Legal := by
  have h1 : ({ s with lstart := s.cur, padRow := none, padLen := 0, cur := s.cur + 1 } : State).InData :=
    { h with legal := { h.legal with padRow := by simp, inLine := by simp } }
  have h2 := h1.warnIf (!present) .lineFlag
  refine Flow.post_next ?_ ht
  cases padp with
  | false => exact startOps_post h2
  | true => exact { h2.legal_at (c := .padhdr) (by simp) with }

theorem execPadhdr_legal {s t : State} {padLen : BitVec 2} {rowLen : BitVec 14} (h : s.InData)
    (ht : execPadhdr padLen rowLen s = .next t) : t.Legal := by
  have h1 : ({ s with padRow := some rowLen.toNat, padLen := padLen.toNat, cur := s.cur + 2 } : State).InData := by
    refine { h with legal := { h.legal with padRow := fun r hr => ?_, inLine := by simp } }
    cases hr
    exact rowLen.isLt
  exact Flow.post_next (Flow.post_bind (readFiller_post h1) fun _ _ h2 => startOps_post h2) ht

theorem repeatByte_post {n : Nat} {s : State} (h : s.InOps) : (repeatByte n s).Post (fun _ t => t.Legal) State.Legal :=
  Flow.post_bind (nextByte_post h.toHandling (h.setCur _)) fun v _ h1 =>
    Flow.post_bind (putCopies_post h1 v) fun _ _ h2 => addProduced_post h2

theorem execRaw_legal {s t : State} {fld : BitVec 6} (h : s.InOps) (ht : execRaw fld s = .next t) : t.Legal :=
  Flow.post_next (Flow.post_bind (putLiterals_post (h.setCur _)) fun _ _ h1 => addProduced_post h1) ht

theorem execTbl_legal {s t : State} {fld : BitVec 6} (h : s.InOps) (ht : execTbl fld s = .next t) : t.Legal :=
  Flow.post_next (Flow.post_bind (putLookups_post (h.setCur _)) fun _ _ h1 => addProduced_post h1) ht

theorem execRep_legal {s t : State} {fld : BitVec 6} (h : s.InOps) (ht : execRep fld s = .next t) : t.Legal :=
  Flow.post_next (repeatByte_post (h.setCur _)) ht

theorem execLrep_legal {s t : State} {fld : BitVec 6} (h : s.InOps) (ht : execLrep fld s = .next t) : t.Legal :=
  Flow.post_next (repeatByte_post (h.setCur _)) ht

theorem truncatedLine_legal {s : State} (h : s.InData) : (truncatedLine s).Legal := by
  unfold truncatedLine
  split
  · have h1 : (beginLine s).InData :=
      { h with legal := { h.legal with padRow := by simp [beginLine], inLine := by simp } }
    exact (h1.setCur _).raise rfl
  · exact (h.setCur _).raise rfl

/-! ### Frames and their handlers (R134 to R138, R252 to R259) -/

/-- A frame of a running decode session has been read: its handler runs in context FRAME. -/
structure State.InFrame (s : State) : Prop extends State.Handling s where
  atFrame : s.ctx = .frame

theorem State.InFrame.legal_self {s : State} (h : s.InFrame) : s.Legal := (State.Legal.of_frame h.atFrame).1 h.legal

theorem State.InFrame.warnIf {s : State} (h : s.InFrame) (b : Bool) (k : Warning) : (s.warnIf b k).InFrame :=
  ⟨h.toHandling.warnIf b k, by simpa using h.atFrame⟩

theorem State.InFrame.setIp {s : State} (h : s.InFrame) (n : Nat) : ({ s with ip := n } : State).InFrame :=
  { h with legal := { h.legal with } }

theorem State.Legal.frameRead {s : State} (h : s.Legal) (hr : s.runState = .run) (hd : s.cfg.dir = .decode)
    (hc : s.ctx = .frame) (n : Nat) : ({ s with ip := n, nblk := s.nblk + 1 } : State).InFrame := by
  have hf := h.faults
  rw [if_pos hc] at hf
  have h' := (State.Legal.of_frame hc).2 h
  exact ⟨⟨{ h' with faults := by simp only [if_pos]; omega }, hr, hd, by simp only; omega⟩, hc⟩

theorem frameCheck_post {k : FrameCheck} {good : Bool} {s : State} (h : s.InFrame) :
    (frameCheck k good s).Post (fun _ t => t.InFrame) State.Legal := by
  have hw : (s.warn k.warning).InFrame := h.warnIf true k.warning
  unfold frameCheck
  split
  · exact h
  · split
    · exact hw.legal_self.raise_runFatal hw.running rfl
    · exact hw

theorem acceptFrame_post {ty : Byte} {f : Frame} {s : State} (h : s.Legal) (hr : s.runState = .run)
    (hd : s.cfg.dir = .decode) (hc : s.ctx = .frame) :
    (acceptFrame ty f s).Post (fun _ t => t.InFrame) State.Legal :=
  Flow.post_bind (frameCheck_post (h.frameRead hr hd hc _)) fun _ _ h1 =>
    Flow.post_bind (frameCheck_post h1) fun _ _ h2 => frameCheck_post h2

theorem acceptUnknown_legal {ty : Byte} {f : Frame} {s t : State} (h : s.Legal) (hr : s.runState = .run)
    (hd : s.cfg.dir = .decode) (hc : s.ctx = .frame) (ht : Flow.outcome (acceptUnknown ty f s) = .next t) :
    t.Legal := by
  refine Flow.post_next (x := acceptUnknown ty f s) ?_ ht
  exact Flow.post_bind (acceptFrame_post h hr hd hc) fun _ _ h1 => h1.legal_self.raise_runFatal h1.running rfl

theorem onBegin_post {p : List Byte} {s : State} (h : s.InFrame) :
    (onBegin p s).Post (fun _ t => t.Legal) State.Legal := by
  unfold onBegin
  split
  · exact h.raise rfl
  · have h1 (m : Model) : ({ s with model := m } : State).InFrame :=
      { h with legal := { h.legal with inLine := by simp } }
    exact ((h1 _).warnIf _ _).legal_self

theorem onParams_post {p : List Byte} {s : State} (h : s.InFrame) :
    (onParams p s).Post (fun _ t => t.Legal) State.Legal := by
  unfold onParams
  split
  · exact h.raise rfl
  · exact h.legal_self

theorem onEndPart_post {p : List Byte} {s : State} (h : s.InFrame) :
    (onEndPart p s).Post (fun _ t => t.Legal) State.Legal := by
  unfold onEndPart
  split
  · exact h.raise rfl
  · exact h.legal_self

theorem onEnd_post {p : List Byte} {s : State} (h : s.InFrame) : (onEnd p s).Post (fun _ t => t.Legal) State.Legal :=
  h.legal_self

/-- W of a 16-bit pixel width is at most 8192 (R34). -/
theorem ceilDiv_eight_le (v : BitVec 16) : ceilDiv v.toNat 8 ≤ 8192 := by
  have := v.isLt
  unfold ceilDiv
  omega

theorem onPage_post {p : List Byte} {s : State} (h : s.InFrame) :
    (onPage p s).Post (fun _ t => t.Legal) State.Legal := by
  unfold onPage
  split
  · exact h.raise rfl
  · next f _ =>
    obtain ⟨ws, u, e⟩ := residue_eq s
    rw [e]
    exact
      { h.legal_self with
        accWf := Memory.wf_nil
        accRange := by simp
        accPos := .inr rfl
        w := ceilDiv_eight_le f.pixelWidth
        height := f.height.isLt
        inBlock := fun hc => absurd h.atFrame hc
        inLine := by simp [h.atFrame]
        encoder := by simp [h.decoding] }

theorem decodeData_post {d : List Byte} {n : Nat} {s : State} (h : s.InFrame) (hn : n < 65536) :
    (decodeData d n s).Post (fun _ t => t.Legal) State.Legal := by
  unfold decodeData
  split
  · exact h.raise rfl
  · next hw =>
    have h1 : ({ s with d := d, cur := 0, linesLeft := n } : State).Handling :=
      { h.setLinesLeft hn with legal := { (h.setLinesLeft hn).legal with } }
    exact linesLoop_legal h1 (Nat.pos_of_ne_zero hw)

theorem onData_post {p : List Byte} {s : State} (h : s.InFrame) :
    (onData p s).Post (fun _ t => t.Legal) State.Legal := by
  unfold onData
  split
  · exact h.raise rfl
  · next f len _ =>
    have h1 : ({ s with chan := chanOf s.cfg.channelCode f.channel } : State).InFrame :=
      { h with legal := { h.legal with } }
    have hn := f.lineCount.isLt
    dsimp only
    split
    · unfold onDataInside
      split
      · exact h1.raise rfl
      · exact decodeData_post (h1.warnIf _ _) hn
    · exact decodeData_post ((h1.warnIf _ _).setIp _) hn

theorem runFrame_legal {ty : BlockType} {handler : List Byte → State → Flow Unit} {f : Frame} {s t : State}
    (hh : ∀ u, u.InFrame → (handler f.payload u).Post (fun _ v => v.Legal) State.Legal) (h : s.Legal)
    (hr : s.runState = .run) (hd : s.cfg.dir = .decode) (hc : s.ctx = .frame)
    (ht : runFrame ty handler f s = .next t) : t.Legal :=
  Flow.post_next (Flow.post_bind (acceptFrame_post h hr hd hc) fun _ u hu => hh u hu) ht

/-! ### One instruction of the decode direction -/

theorem exec_legal {i : Instr} {s t : State} (h : s.Legal) (hr : s.runState = .run) (hd : s.cfg.dir = .decode)
    (hc : i.context = s.ctx) (ht : exec i s = .next t) : t.Legal := by
  have data (hn : s.ctx ≠ .frame) : s.InData := h.inData hr hn
  have ops (ho : s.ctx = .op) : s.InOps := h.inOps hr ho
  cases i with
  | blkBegin f => exact runFrame_legal (fun _ => onBegin_post) h hr hd hc.symm ht
  | blkEnd f => exact runFrame_legal (fun _ => onEnd_post) h hr hd hc.symm ht
  | blkParams f => exact runFrame_legal (fun _ => onParams_post) h hr hd hc.symm ht
  | blkPage f => exact runFrame_legal (fun _ => onPage_post) h hr hd hc.symm ht
  | blkData f => exact runFrame_legal (fun _ => onData_post) h hr hd hc.symm ht
  | blkEndPart f => exact runFrame_legal (fun _ => onEndPart_post) h hr hd hc.symm ht
  | lhdr present padp tlen => exact execLhdr_legal (data (by simp [← hc, Instr.context])) ht
  | padhdr padLen rowLen => exact execPadhdr_legal (data (by simp [← hc, Instr.context])) ht
  | raw fld => exact execRaw_legal (ops hc.symm) ht
  | tbl fld => exact execTbl_legal (ops hc.symm) ht
  | rep fld => exact execRep_legal (ops hc.symm) ht
  | lrep fld => exact execLrep_legal (ops hc.symm) ht

theorem atEnd_legal {s : State} (h : s.Legal) (hr : s.runState = .run) : (atEnd s).Legal := by
  unfold atEnd
  split
  · exact finish_legal h hr
  · next hc => exact truncatedLine_legal (h.inData hr hc)

theorem atTruncation_legal {s : State} (h : s.Legal) (hr : s.runState = .run) : (atTruncation s).Legal := by
  unfold atTruncation
  split
  · exact finish_legal { h.warns (s.warns.raise .trunc) with } hr
  · next hc => exact truncatedLine_legal (h.inData hr hc)

theorem decodeOne_legal {s t : State} (h : s.Legal) (hr : s.runState = .run) (hd : s.cfg.dir = .decode)
    (ht : decodeOne s = .next t) : t.Legal := by
  unfold decodeOne at ht
  split at ht
  · next i rest he => exact exec_legal h hr hd (decode_context he) ht
  · cases ht; exact atEnd_legal h hr
  · cases ht; exact atTruncation_legal h hr
  · next he => exact acceptUnknown_legal h hr hd (decode_unknownType_ctx he) ht

theorem decodeStep_legal {s t : State} (h : s.Legal) (hr : s.runState = .run) (hd : s.cfg.dir = .decode)
    (ht : decodeStep s = .next t) : t.Legal := by
  rcases decodeStep_cases s with e | ⟨u, hc, hu, hp, e⟩
  · exact decodeOne_legal h hr hd (e ▸ ht)
  · have hl : u.Legal := decodeOne_legal h hr hd hu
    obtain ⟨present, tlen, rest, -, rfl⟩ := decodeOne_to_padhdr hc hu hp
    exact decodeOne_legal hl (by simpa using hr) (by simpa using hd) (e ▸ ht)

/-! ### The encode direction (R233, R238, R260) -/

/-- A running encode session. -/
structure State.Encoding (s : State) : Prop where
  legal : s.Legal
  running : s.runState = .run
  encoding : s.cfg.dir = .encode

theorem writeBlock_post {ty : Byte} {payload : List Byte} {s : State} (h : s.Encoding) :
    (writeBlock ty payload s).Post (fun _ t => t.Encoding) State.Legal := by
  rcases writeBlock_cases ty payload s with ⟨-, e⟩ | ⟨-, e⟩ <;> rw [e]
  · exact { h with legal := { h.legal with } }
  · exact h.legal.raise_runFatal h.running rfl

/-- A plane has at most 8 groups (R231, R232). -/
theorem groupCount_le_eight (total : Nat) : groupCount total ≤ 8 := by
  unfold groupCount
  split
  · omega
  · next h =>
    have hp : 0 < linesPerBlock total := by unfold linesPerBlock ceilDiv; omega
    have h8 : total ≤ 8 * linesPerBlock total := by unfold linesPerBlock ceilDiv; omega
    exact Nat.lt_succ_iff.1 (Nat.div_lt_of_lt_mul (by rw [Nat.mul_comm]; omega))

theorem toPage_legal {s : State} (h : s.Legal) (n : Nat) : (toPage n s).Legal := { h with }

theorem toGroup_legal {s : State} (h : s.Legal) {k : Nat} (hk : k ≤ 8) : (toGroup k s).Legal :=
  { h with blkNum := hk }

theorem toPlane_legal {s : State} (h : s.Legal) (ch : Channel) : (toPlane ch s).Legal := by
  have h1 : ({ s with encChan := ch, encLine := 0, encByte := 0 } : State).Legal := { h with }
  unfold toPlane
  dsimp only
  split
  · exact toPage_legal h1 _
  · exact toGroup_legal h1 (by omega)

theorem afterPlane_legal {s : State} (h : s.Legal) : (afterPlane s).Legal := by
  unfold afterPlane
  split
  · exact toPlane_legal h _
  · exact toPlane_legal h _
  · exact toPlane_legal h _
  · exact toPage_legal h _

theorem afterLine_legal {s : State} (h : s.Legal) : (afterLine s).Legal := by
  unfold afterLine
  dsimp only
  split
  · exact { h with }
  · exact { h with }

theorem encodeBegin_post {s : State} (h : s.Encoding) : (encodeBegin s).Post (fun _ t => t.Legal) State.Legal := by
  unfold encodeBegin
  split
  · trivial
  · exact Flow.post_bind (writeBlock_post h) fun _ _ h1 => { h1.legal with }

theorem encodeParams_post {s : State} (h : s.Encoding) : (encodeParams s).Post (fun _ t => t.Legal) State.Legal :=
  Flow.post_bind (writeBlock_post h) fun _ _ h1 => toPage_legal h1.legal _

theorem encodeEndPart_post {s : State} (h : s.Encoding) : (encodeEndPart s).Post (fun _ t => t.Legal) State.Legal :=
  Flow.post_bind (writeBlock_post h) fun _ _ h1 => { h1.legal with }

theorem encodeEnd_post {s : State} (h : s.Encoding) : (encodeEnd s).Post (fun _ t => t.Legal) State.Legal :=
  Flow.post_bind (writeBlock_post h) fun _ _ h1 => h1.legal.done h1.running

theorem encodePageBlock_post {pg : Page} {s : State} (h : s.Encoding) :
    (encodePageBlock pg s).Post (fun _ t => t.Legal) State.Legal := by
  obtain ⟨hc, hacc, hpos⟩ := h.legal.encoder h.encoding
  have h1 (up : Bool) (cm : ColorMode) :
      ({ s with w := pg.width, height := pg.height.toNat, upgraded := up, colorMode := cm } : State).Encoding :=
    { h with
      legal :=
        { h.legal with
          accRange := by simp [hacc]
          accPos := .inr hpos
          w := ceilDiv_eight_le pg.pixelWidth
          height := pg.height.isLt
          inBlock := fun hn => absurd hc hn
          inLine := by simp [hc] } }
  exact Flow.post_bind (writeBlock_post (h1 _ _)) fun _ _ h2 => toPlane_legal h2.legal _

theorem encodePage_post {s : State} (h : s.Encoding) : (encodePage s).Post (fun _ t => t.Legal) State.Legal := by
  unfold encodePage
  split
  · exact { h.legal with }
  · split
    · exact encodePageBlock_post h
    · trivial

theorem appendEnc_post {bs : List Byte} {s : State} (h : s.Encoding) :
    (appendEnc bs s).Post (fun _ t => t.Encoding) State.Legal := by
  unfold appendEnc
  split
  · exact h.legal.raise_runFatal h.running rfl
  · exact { h with legal := { h.legal with } }

/-- The faults of the runs' pass are run-fatal. -/
theorem codeRuns_fail_runFatal {rs : List (Byte × Nat)} {lit : List Byte} {i j : Nat} {t : Trap}
    (h : codeRuns rs lit i = .fail t j) : t.runFatal = true := by
  induction rs generalizing lit i with
  | nil => cases h
  | cons r rs ih =>
    obtain ⟨v, n⟩ := r
    unfold codeRuns at h
    split at h
    · split at h
      · cases h; rfl
      · split at h
        · cases h
        · next he => cases h; exact ih he
    · exact ih h

theorem encodeLine_fail_runFatal {c : Cfg} {m : Model} {line : List Byte} {t : Trap} {i : Nat}
    (h : encodeLine c m line = .fail t i) : t.runFatal = true := by
  unfold encodeLine at h
  split at h
  · next he => cases h; exact codeRuns_fail_runFatal he
  · split at h
    · unfold padStream at h
      dsimp only at h
      split at h
      · cases h; rfl
      · cases h
    · cases h

theorem encodeLogical_post {line : List Byte} {s : State} (h : s.Encoding) :
    (encodeLogical line s).Post (fun _ t => t.Legal) State.Legal := by
  have h1 (i : Nat) : ({ s with lineBuf := line, encByte := i } : State).Encoding :=
    { h with legal := { h.legal with } }
  unfold encodeLogical
  dsimp only
  split
  · next t i he => exact (h1 i).legal.raise_runFatal h.running (encodeLine_fail_runFatal he)
  · exact Flow.post_bind (appendEnc_post (h1 _)) fun _ _ h2 => afterLine_legal h2.legal

theorem encodeLineStep_post {s : State} (h : s.Encoding) :
    (encodeLineStep s).Post (fun _ t => t.Legal) State.Legal := by
  unfold encodeLineStep
  split
  · trivial
  · split
    · trivial
    · exact encodeLogical_post h

theorem emitData_post {desc data : List Byte} {s : State} (h : s.Encoding) :
    (emitData desc data s).Post (fun _ t => t.Encoding) State.Legal := by
  unfold emitData
  split
  · exact writeBlock_post h
  · exact Flow.post_bind (writeBlock_post h) fun _ _ h1 => { h1 with legal := { h1.legal with } }

theorem encodeData_post {s : State} (h : s.Encoding) : (encodeData s).Post (fun _ t => t.Legal) State.Legal := by
  refine Flow.post_bind (emitData_post h) fun _ s1 h1 => ?_
  have h2 : ({ s1 with encBuf := [] } : State).Legal := { h1.legal with }
  have h8 := groupCount_le_eight ({ s1 with encBuf := [] } : State).totalLines
  dsimp only
  split
  · next hk => exact toGroup_legal h2 (by omega)
  · exact afterPlane_legal h2

theorem encodeStep_post {s : State} (h : s.Encoding) : (encodeStep s).Post (fun _ t => t.Legal) State.Legal := by
  unfold encodeStep
  split
  · exact encodeBegin_post h
  · exact encodeParams_post h
  · exact encodePage_post h
  · exact encodeLineStep_post h
  · exact encodeData_post h
  · exact encodeEndPart_post h
  · exact encodeEnd_post h

/-- Settles O41, by the pseudocode: each piece of it keeps `Handling`, `InData`, `InOps` or `Encoding` while it goes on,
and leaves a legal state where it takes a fault or ends the step. -/
theorem legalIsKeptByEveryStep : Obligations.LegalIsKeptByEveryStep := by
  intro s t h ht
  have hr := runState_of_step ht
  cases hd : s.cfg.dir with
  | decode => exact decodeStep_legal h hr hd (step_of_decode hr hd ▸ ht)
  | encode => exact Flow.post_next (encodeStep_post ⟨h, hr, hd⟩) (step_of_encode hr hd ▸ ht)

end Sys2Proof.Machine

namespace Sys2Proof.Machine

/-! PROOFS. The state after reset (R45, R47, R320). -/

/-- A reset session: memories empty, counters 0, at the frame loop and in RUN. -/
theorem State.resetFor_legal (c : Cfg) (input : List Byte) (job : Job) : (State.resetFor c input job).Legal where
  accWf := (State.resetFor_wf c input job).1
  tblWf := (State.resetFor_wf c input job).2
  accRange := List.forall_mem_nil _
  tblRange := List.forall_mem_nil _
  tlen := Nat.zero_le 16
  accPos := .inr rfl
  linesLeft := Nat.zero_lt_succ _
  padRow _ h := nomatch h
  w := Nat.zero_le _
  height := Nat.zero_lt_succ _
  blkNum := Nat.zero_le 8
  inBlock h := absurd rfl h
  inLine h := nomatch h
  faults := Nat.le_refl 0
  encoder _ := ⟨rfl, rfl, rfl⟩
  exit := by simp [State.resetFor]
  record := rfl
  severity := by simp [State.resetFor]

theorem State.resetFor_idle (c : Cfg) (input : List Byte) (job : Job) : (State.resetFor c input job).Idle :=
  ⟨rfl, rfl, rfl, rfl, rfl, rfl⟩

/-- Settles O42: a started session is some `resetFor`, whose registers are read off. -/
theorem resetIsLegal : Obligations.ResetIsLegal := by
  rintro _ ⟨c, input, job, rfl⟩
  exact ⟨State.resetFor_legal c input job, rfl, rfl, State.resetFor_idle c input job⟩

theorem State.resetFor_model (c : Cfg) (input : List Byte) (job : Job) :
    (State.resetFor c input job).model = if c.dir = .encode then job.model else .unknown := by
  unfold State.resetFor
  cases c.dir <;> rfl

theorem Warnings.reset_get (k : Warning) : Warnings.reset.get k = { bit := false, count := 0 } := by cases k <;> rfl

/-- Settles O43. MODEL depends on the direction; every other register has its value of R45 outright. -/
theorem resetValues : Obligations.ResetValues := by
  intro c input job
  have hmodel := State.resetFor_model c input job
  exact ⟨rfl, rfl, rfl, rfl, rfl, rfl, rfl, rfl, rfl, rfl, hmodel, rfl, rfl, rfl, rfl, rfl, rfl, rfl, rfl, rfl, rfl,
    Warnings.reset_get, rfl, Memory.read_nil, rfl, rfl, rfl, rfl, rfl, rfl⟩

end Sys2Proof.Machine

namespace Sys2Proof.Machine

/-! PROOFS. What no step of either direction takes back, and what a step of one direction leaves to the other (R21, R22,
R28, R40, R41, R46, R73). `State.Grows` is what every piece of pseudocode keeps; `State.DecodesTo`,
`State.EncodesQuietly` and `State.EncodesFrame` add the frame of each direction. -/

/-! ### What only grows -/

/-- No warning was cleared: no counter is lower and no sticky bit is lost. -/
def Warnings.Grow (ws ws' : Warnings) : Prop :=
  ∀ k, (ws.get k).count ≤ (ws'.get k).count ∧ ((ws.get k).bit = true → (ws'.get k).bit = true)

theorem Warnings.Grow.refl (ws : Warnings) : ws.Grow ws := fun _ => ⟨Nat.le_refl _, id⟩

theorem Warnings.Grow.trans {a b c : Warnings} (h : a.Grow b) (h' : b.Grow c) : a.Grow c := fun k =>
  ⟨(h k).1.trans (h' k).1, (h' k).2 ∘ (h k).2⟩

theorem Warnings.grow_raise (ws : Warnings) (k : Warning) : ws.Grow (ws.raise k) := by
  intro j
  rw [Warnings.raise_get]
  split
  · exact ⟨Nat.le_succ _, fun _ => rfl⟩
  · exact ⟨Nat.le_refl _, id⟩

/-- `t` may come after `s` in a session: the inputs are those of `s`, and cursor, outputs, counters and fault record
have not gone back. -/
structure State.Grows (s t : State) : Prop where
  cfg : t.cfg = s.cfg
  inp : t.inp = s.inp
  job : t.job = s.job
  ip : s.ip ≤ t.ip
  ipBound : s.ip ≤ s.inp.length → t.ip ≤ s.inp.length
  warns : s.warns.Grow t.warns
  fcode : s.fcode ≠ 0 → t.fcode ≠ 0
  finfo : s.finfo ≠ none → t.finfo ≠ none
  nblkFatal : s.nblkFatal ≤ t.nblkFatal
  nblk : s.nblk ≤ t.nblk
  sink : s.sink <+: t.sink
  out : s.out <+: t.out

theorem State.Grows.refl (s : State) : s.Grows s where
  cfg := rfl
  inp := rfl
  job := rfl
  ip := Nat.le_refl _
  ipBound := id
  warns := Warnings.Grow.refl _
  fcode := id
  finfo := id
  nblkFatal := Nat.le_refl _
  nblk := Nat.le_refl _
  sink := List.prefix_rfl
  out := List.prefix_rfl

theorem State.Grows.trans {s t u : State} (h : s.Grows t) (h' : t.Grows u) : s.Grows u where
  cfg := h'.cfg.trans h.cfg
  inp := h'.inp.trans h.inp
  job := h'.job.trans h.job
  ip := h.ip.trans h'.ip
  ipBound hb := h.inp ▸ h'.ipBound (h.inp ▸ h.ipBound hb)
  warns := h.warns.trans h'.warns
  fcode := h'.fcode ∘ h.fcode
  finfo := h'.finfo ∘ h.finfo
  nblkFatal := h.nblkFatal.trans h'.nblkFatal
  nblk := h.nblk.trans h'.nblk
  sink := h.sink.trans h'.sink
  out := h.out.trans h'.out

theorem Trap.code_ne_zero (t : Trap) : t.code ≠ 0 := by cases t <;> simp [Trap.code]

/-- A fault leaves a record; one that is not overwritten (R283) was there before. -/
theorem State.Grows.raise (s : State) (t : Trap) : s.Grows (s.raise t) where
  cfg := by simp
  inp := by simp
  job := by simp
  ip := by simp
  ipBound := by simp
  warns := by simpa using Warnings.Grow.refl s.warns
  fcode h := by
    rw [State.raise_fcode]
    by_cases hr : s.runState = .halt
    · rwa [State.recordFault_of_halt hr]
    · rw [State.recordFault_fcode hr]; exact t.code_ne_zero
  finfo h := by
    rw [State.raise_finfo]
    by_cases hr : s.runState = .halt
    · rwa [State.recordFault_of_halt hr]
    · simp [State.recordFault_finfo hr]
  nblkFatal := by rw [State.raise_nblkFatal]; split <;> omega
  nblk := by simp
  sink := by simp
  out := by simp

/-! ### The decode direction -/

/-- `t` may come after `s` in a decode session: the encode side is as it was. -/
structure State.DecodesTo (s t : State) : Prop extends State.Grows s t where
  encodeSide : t.encodeSide = s.encodeSide

theorem State.DecodesTo.refl (s : State) : s.DecodesTo s := ⟨State.Grows.refl s, rfl⟩

theorem State.DecodesTo.trans {s t u : State} (h : s.DecodesTo t) (h' : t.DecodesTo u) : s.DecodesTo u :=
  ⟨h.toGrows.trans h'.toGrows, h'.encodeSide.trans h.encodeSide⟩

theorem State.DecodesTo.raise {s t : State} (h : s.DecodesTo t) (f : Trap) : s.DecodesTo (t.raise f) :=
  h.trans ⟨State.Grows.raise t f, by simp [State.encodeSide]⟩

theorem State.DecodesTo.warn {s t : State} (h : s.DecodesTo t) (k : Warning) : s.DecodesTo (t.warn k) :=
  { h with warns := h.warns.trans (Warnings.grow_raise t.warns k) }

theorem State.DecodesTo.warnIf {s t : State} (h : s.DecodesTo t) (b : Bool) (k : Warning) :
    s.DecodesTo (t.warnIf b k) := by
  cases b
  · exact h
  · exact h.warn k

theorem State.DecodesTo.setCur {s t : State} (h : s.DecodesTo t) (n : Nat) : s.DecodesTo (t.setCur n) := { h with }

/-- ACC and ACCPOS may be anything; SINK is appended to. -/
theorem State.DecodesTo.withPut {s t : State} (h : s.DecodesTo t) (m : Memory) (p : Nat) (u : List FlushUnit) :
    s.DecodesTo (t.withPut m p (t.sink ++ u)) :=
  { h with sink := h.sink.trans (List.prefix_append _ _) }

theorem residue_decodesTo (s : State) : s.DecodesTo (residue s) := by
  have hw := (State.DecodesTo.refl s).warn .residual
  unfold residue
  split
  · exact State.DecodesTo.refl s
  · dsimp only
    split
    · exact { hw with sink := hw.sink.trans (List.prefix_append _ _) }
    · exact hw

/-- A piece of pseudocode run from `s` ends, in a fault that is taken or not, where a decode session may come to. -/
def Flow.Decodes {α : Type} (x : Flow α) (s : State) : Prop := x.Post (fun _ t => s.DecodesTo t) s.DecodesTo

theorem Flow.Decodes.after {α : Type} {x : Flow α} {s t : State} (hx : x.Decodes t) (h : s.DecodesTo t) :
    x.Decodes s :=
  Flow.post_mono hx (fun _ _ => h.trans) fun _ => h.trans

theorem Flow.Decodes.bind {α β : Type} {x : Flow α} {k : α → State → Flow β} {s : State} (hx : x.Decodes s)
    (hk : ∀ a t, (k a t).Decodes t) : (x.bind k).Decodes s :=
  Flow.post_bind hx fun a t h => (hk a t).after h

theorem State.DecodesTo.trap {α : Type} {s t : State} (h : s.DecodesTo t) (f : Trap) :
    (Flow.trap f t : Flow α).Decodes s :=
  h.raise f

theorem nextByte_decodes (s : State) : (nextByte s).Decodes s := by
  rcases nextByte_cases s with ⟨b, -, e⟩ | ⟨-, e⟩ <;> rw [e]
  · exact (State.DecodesTo.refl s).setCur _
  · exact (State.DecodesTo.refl s).raise _

theorem tRead_decodes (i : Nat) (s : State) : (tRead i s).Decodes s := by
  rcases tRead_cases i s with ⟨b, -, -, e⟩ | ⟨-, e⟩ <;> rw [e]
  · exact State.DecodesTo.refl s
  · exact (State.DecodesTo.refl s).raise _

theorem putByte_decodes (v : Byte) (s : State) : (putByte v s).Decodes s := by
  rcases h : putByte v s with ⟨_, t⟩ | t | f | r
  · obtain ⟨m, p, u, rfl⟩ := putByte_ok h
    exact (State.DecodesTo.refl s).withPut m p u
  · exact absurd h (putByte_not_raised v s t)
  · trivial
  · trivial

theorem putCopies_decodes (n : Nat) (v : Byte) (s : State) : (putCopies n v s).Decodes s := by
  induction n generalizing s with
  | zero => exact State.DecodesTo.refl s
  | succ n ih => exact (putByte_decodes v s).bind fun _ s1 => ih s1

theorem putLiterals_decodes (n : Nat) (s : State) : (putLiterals n s).Decodes s := by
  induction n generalizing s with
  | zero => exact State.DecodesTo.refl s
  | succ n ih =>
    exact (nextByte_decodes s).bind fun b s1 => (putByte_decodes b s1).bind fun _ s2 => ih s2

theorem putLookups_decodes (n : Nat) (s : State) : (putLookups n s).Decodes s := by
  induction n generalizing s with
  | zero => exact State.DecodesTo.refl s
  | succ n ih =>
    exact (nextByte_decodes s).bind fun x s1 =>
      (tRead_decodes (firstIndex s1.cfg x) s1).bind fun b s2 =>
      (putByte_decodes b s2).bind fun _ s3 =>
      (tRead_decodes (secondIndex s3.cfg x) s3).bind fun b' s4 =>
      (putByte_decodes b' s4).bind fun _ s5 => ih s5

theorem readFiller_decodes (n : Nat) (s : State) : (readFiller n s).Decodes s := by
  induction n generalizing s with
  | zero => exact State.DecodesTo.refl s
  | succ n ih =>
    exact (nextByte_decodes s).bind fun _ s1 => (ih _).after ((State.DecodesTo.refl s1).warnIf _ _)

theorem loadTable_decodes (i n : Nat) (s : State) : (loadTable i n s).Decodes s := by
  induction n generalizing i s with
  | zero => exact State.DecodesTo.refl s
  | succ n ih => exact (nextByte_decodes s).bind fun _ s1 => (ih _ _).after { State.DecodesTo.refl s1 with }

theorem State.DecodesTo.linesLoop {s t : State} (h : s.DecodesTo t) : s.DecodesTo (linesLoop t) := by
  rcases linesLoop_cases t with ⟨-, e⟩ | ⟨-, e⟩ <;> rw [e]
  · exact { h.warnIf (decide (t.cur < t.d.length)) .trailing with }
  · exact { h with }

theorem endLine_decodes (s : State) : (endLine s).Decodes s := by
  unfold endLine
  split
  · exact (State.DecodesTo.refl s).trap _
  · exact State.DecodesTo.linesLoop { (State.DecodesTo.refl s).warnIf (rowMismatch s) .pad with }

theorem opLoop_decodes (s : State) : (opLoop s).Decodes s := by
  rcases opLoop_cases s with ⟨-, e⟩ | ⟨-, e⟩ <;> rw [e]
  · exact { State.DecodesTo.refl s with }
  · exact endLine_decodes s

theorem addProduced_decodes (n : Nat) (s : State) : (addProduced n s).Decodes s :=
  (opLoop_decodes _).after { State.DecodesTo.refl s with }

theorem startOps_decodes (n : Nat) (s : State) : (startOps n s).Decodes s := by
  rcases startOps_cases n s with ⟨-, e⟩ | ⟨-, e⟩ <;> rw [e]
  · exact (State.DecodesTo.refl s).raise _
  · have h1 : s.DecodesTo { s with tlen := n, tbl := [] } := { State.DecodesTo.refl s with }
    exact ((loadTable_decodes 0 n _).after h1).bind fun _ s1 =>
      (opLoop_decodes _).after { State.DecodesTo.refl s1 with }

theorem repeatByte_decodes (n : Nat) (s : State) : (repeatByte n s).Decodes s :=
  (nextByte_decodes s).bind fun v s1 => (putCopies_decodes n v s1).bind fun _ s2 => addProduced_decodes n s2

/-- What an LHDR writes before its table or its pad header. -/
theorem lhdr_decodesTo (present : Bool) (s : State) :
    s.DecodesTo (State.warnIf (!present) .lineFlag
      { s with lstart := s.cur, padRow := none, padLen := 0, cur := s.cur + 1 }) := by
  have h1 : s.DecodesTo { s with lstart := s.cur, padRow := none, padLen := 0, cur := s.cur + 1 } :=
    { State.DecodesTo.refl s with }
  exact h1.warnIf _ _

theorem execLhdr_decodesTo {present padp : Bool} {tlen : BitVec 7} {s t : State}
    (ht : execLhdr present padp tlen s = .next t) : s.DecodesTo t := by
  have h := lhdr_decodesTo present s
  cases padp with
  | false => exact Flow.post_next ((startOps_decodes tlen.toNat _).after h) ht
  | true => cases ht; exact { h with }

theorem execPadhdr_decodesTo {padLen : BitVec 2} {rowLen : BitVec 14} {s t : State}
    (ht : execPadhdr padLen rowLen s = .next t) : s.DecodesTo t := by
  have h1 : s.DecodesTo { s with padRow := some rowLen.toNat, padLen := padLen.toNat, cur := s.cur + 2 } :=
    { State.DecodesTo.refl s with }
  have hfill := (readFiller_decodes padLen.toNat _).after h1
  exact Flow.post_next (hfill.bind fun _ s2 => startOps_decodes s2.hdrTlen s2) ht

/-- A piece of pseudocode run behind the opcode byte. -/
theorem Flow.Decodes.opcode {x : Flow Unit} {s t : State} (hx : x.Decodes s.pastOpcode) (ht : x.outcome = .next t) :
    s.DecodesTo t :=
  Flow.post_next (hx.after ((State.DecodesTo.refl s).setCur (s.cur + 1))) ht

theorem frameCheck_decodes (k : FrameCheck) (good : Bool) (s : State) : (frameCheck k good s).Decodes s := by
  have hw := (State.DecodesTo.refl s).warn k.warning
  unfold frameCheck
  split
  · exact State.DecodesTo.refl s
  · split
    · exact hw.trap _
    · exact hw

/-- `ip` moves past a frame that IN holds whole. -/
theorem acceptFrame_decodes {ty : Byte} {f : Frame} {s : State} (h : s.ip + (7 + f.payload.length) ≤ s.inp.length) :
    (acceptFrame ty f s).Decodes s := by
  have h1 : s.DecodesTo { s with ip := s.ip + (7 + f.payload.length), nblk := s.nblk + 1 } :=
    { State.DecodesTo.refl s with ip := Nat.le_add_right _ _, ipBound := fun _ => h, nblk := Nat.le_succ _ }
  exact ((frameCheck_decodes .magic _ _).after h1).bind fun _ s1 =>
    (frameCheck_decodes .typeInv _ s1).bind fun _ s2 => frameCheck_decodes .checksum _ s2

theorem onBegin_decodes (p : List Byte) (s : State) : (onBegin p s).Decodes s := by
  unfold onBegin
  split
  · exact (State.DecodesTo.refl s).trap _
  · have h1 (m : Model) : s.DecodesTo { s with model := m } := { State.DecodesTo.refl s with }
    exact (h1 _).warnIf _ _

theorem onParams_decodes (p : List Byte) (s : State) : (onParams p s).Decodes s := by
  unfold onParams
  split
  · exact (State.DecodesTo.refl s).trap _
  · exact State.DecodesTo.refl s

theorem onPage_decodes (p : List Byte) (s : State) : (onPage p s).Decodes s := by
  unfold onPage
  split
  · exact (State.DecodesTo.refl s).trap _
  · exact { residue_decodesTo s with }

theorem decodeData_decodes {d : List Byte} {n : Nat} {s t : State} (h : s.DecodesTo t) :
    (decodeData d n t).Decodes s := by
  unfold decodeData
  split
  · exact h.trap _
  · exact State.DecodesTo.linesLoop { h with }

/-- The data after a TRAILING descriptor ends where IN ends, if not before. -/
theorem length_take_drop_le {α : Type} (l : List α) {i n : Nat} (h : i ≤ l.length) :
    i + ((l.drop i).take n).length ≤ l.length := by
  simp only [List.length_take, List.length_drop]
  omega

theorem onData_decodes (p : List Byte) (s : State) : (onData p s).Decodes s := by
  unfold onData
  split
  · exact (State.DecodesTo.refl s).trap _
  · next f len _ =>
    have h1 : s.DecodesTo { s with chan := chanOf s.cfg.channelCode f.channel } := { State.DecodesTo.refl s with }
    dsimp only
    split
    · unfold onDataInside
      split
      · exact h1.trap _
      · exact decodeData_decodes (h1.warnIf _ _)
    · have h2 := h1.warnIf (decide ((s.inp.drop s.ip).length < f.compressedLen)) .trunc
      refine decodeData_decodes { h2 with ip := ?_, ipBound := ?_ }
      · exact Nat.le_add_right _ _
      · exact length_take_drop_le s.inp

theorem onEndPart_decodes (p : List Byte) (s : State) : (onEndPart p s).Decodes s := by
  unfold onEndPart
  split
  · exact (State.DecodesTo.refl s).trap _
  · exact State.DecodesTo.refl s

theorem onEnd_decodes (p : List Byte) (s : State) : (onEnd p s).Decodes s := State.DecodesTo.refl s

theorem runFrame_decodesTo {ty : BlockType} {handler : List Byte → State → Flow Unit} {f : Frame} {s t : State}
    (hh : ∀ p u, (handler p u).Decodes u) (h : s.ip + (7 + f.payload.length) ≤ s.inp.length)
    (ht : runFrame ty handler f s = .next t) : s.DecodesTo t :=
  Flow.post_next ((acceptFrame_decodes h).bind fun _ u => hh f.payload u) ht

/-- One instruction, when IN holds the frame it was decoded from. -/
theorem exec_decodesTo {i : Instr} {s t : State}
    (h : i.context = .frame → s.ip + Laws.EncodedLength.size i ≤ s.inp.length) (ht : exec i s = .next t) :
    s.DecodesTo t := by
  cases i with
  | blkBegin f => exact runFrame_decodesTo onBegin_decodes (h rfl) ht
  | blkEnd f => exact runFrame_decodesTo onEnd_decodes (h rfl) ht
  | blkParams f => exact runFrame_decodesTo onParams_decodes (h rfl) ht
  | blkPage f => exact runFrame_decodesTo onPage_decodes (h rfl) ht
  | blkData f => exact runFrame_decodesTo onData_decodes (h rfl) ht
  | blkEndPart f => exact runFrame_decodesTo onEndPart_decodes (h rfl) ht
  | lhdr present padp tlen => exact execLhdr_decodesTo ht
  | padhdr padLen rowLen => exact execPadhdr_decodesTo ht
  | raw fld => exact ((putLiterals_decodes _ _).bind fun _ s1 => addProduced_decodes _ s1).opcode ht
  | tbl fld => exact ((putLookups_decodes _ _).bind fun _ s1 => addProduced_decodes _ s1).opcode ht
  | rep fld => exact (repeatByte_decodes _ _).opcode ht
  | lrep fld => exact (repeatByte_decodes _ _).opcode ht

/-! ### What a fetched frame says of IN -/

theorem fetch_frame {s : State} (hc : s.ctx = .frame) : fetch s = decodeFrame (s.inp.drop s.ip) := by
  simp [fetch, State.window, hc, decode]

/-- Bytes at the cursor lie in IN. -/
theorem add_le_of_le_length_drop {α : Type} {l : List α} {i n : Nat} (hn : 0 < n) (h : n ≤ (l.drop i).length) :
    i + n ≤ l.length := by
  rw [List.length_drop] at h
  omega

theorem fetch_ok_fits {s : State} {i : Instr} {rest : List Byte} (h : fetch s = .ok i rest) (hi : i.context = .frame) :
    s.ip + Laws.EncodedLength.size i ≤ s.inp.length := by
  have hc : s.ctx = .frame := (decode_context h).symm.trans hi
  obtain ⟨-, he⟩ := decodeFrame_sound s.cfg (fetch_frame hc ▸ h)
  have hlen : (encode s.cfg i).length ≤ (s.inp.drop s.ip).length := by simp [← he]
  cases i with
  | lhdr | padhdr | raw | tbl | rep | lrep => cases hi
  | _ f =>
    rw [encode, Laws.EncodedLength.frameBytes_length] at hlen
    have hfits : s.ip + (7 + f.payload.length) ≤ s.inp.length := add_le_of_le_length_drop (by omega) hlen
    exact hfits

theorem decodeFrame_unknownType_length {bytes rest : List Byte} {ty : Byte} {f : Frame}
    (h : decodeFrame bytes = .unknownType ty f rest) : 7 + f.payload.length ≤ bytes.length := by
  unfold decodeFrame at h
  split at h
  · cases h
  · next magic ty seq lo hi inv body =>
    split at h
    · cases h
    · next c tail hdrop =>
      have hbody := congrArg List.length hdrop
      simp only [List.length_drop, List.length_cons] at hbody
      split at h
      · cases h
      · cases h
        simp only [List.length_take, List.length_cons]
        omega
  · cases h

theorem fetch_unknownType_fits {s : State} {ty : Byte} {f : Frame} {rest : List Byte}
    (h : fetch s = .unknownType ty f rest) : s.ip + (7 + f.payload.length) ≤ s.inp.length :=
  add_le_of_le_length_drop (by omega)
    (decodeFrame_unknownType_length (fetch_frame (decode_unknownType_ctx h) ▸ h))

/-- A frame is truncated only when some byte of it is there. -/
theorem fetch_truncated_ip_le {s : State} (hc : s.ctx = .frame) (h : fetch s = .truncated) : s.ip ≤ s.inp.length := by
  by_contra hip
  rw [fetch_frame hc, List.drop_eq_nil_of_le (by omega)] at h
  cases h

/-! ### One step of the decode direction -/

theorem State.DecodesTo.finish {s t : State} (h : s.DecodesTo t) : s.DecodesTo (finish t) :=
  { h.trans (residue_decodesTo t) with }

theorem truncatedLine_decodesTo (s : State) : s.DecodesTo (truncatedLine s) := by
  unfold truncatedLine
  split
  · have h1 : s.DecodesTo (beginLine s) := { State.DecodesTo.refl s with }
    exact (h1.setCur _).raise _
  · exact ((State.DecodesTo.refl s).setCur _).raise _

theorem atEnd_decodesTo (s : State) : s.DecodesTo (atEnd s) := by
  unfold atEnd
  split
  · exact (State.DecodesTo.refl s).finish
  · exact truncatedLine_decodesTo s

theorem atTruncation_decodesTo {s : State} (h : fetch s = .truncated) : s.DecodesTo (atTruncation s) := by
  unfold atTruncation
  split
  · next hc =>
    have hip := fetch_truncated_ip_le hc h
    exact State.DecodesTo.finish
      { (State.DecodesTo.refl s).warn .trunc with ip := hip, ipBound := fun _ => Nat.le_refl _ }
  · exact truncatedLine_decodesTo s

theorem decodeOne_decodesTo {s t : State} (ht : decodeOne s = .next t) : s.DecodesTo t := by
  unfold decodeOne at ht
  split at ht
  · next i rest h => exact exec_decodesTo (fetch_ok_fits h) ht
  · cases ht; exact atEnd_decodesTo s
  · next h => cases ht; exact atTruncation_decodesTo h
  · next ty f rest h =>
    have hx : (acceptUnknown ty f s).Decodes s :=
      (acceptFrame_decodes (fetch_unknownType_fits h)).bind fun _ u => (State.DecodesTo.refl u).trap _
    exact Flow.post_next hx ht

theorem decodeStep_decodesTo {s t : State} (ht : decodeStep s = .next t) : s.DecodesTo t :=
  decodeStep_keeps (fun _ _ h h1 => h.trans (decodeOne_decodesTo h1)) (State.DecodesTo.refl s) ht

/-! ### The encode direction -/

/-- `t` may come after `s` in an encode session with no frame emitted: SEQ, OUT and the decode side are as they were. -/
structure State.EncodesQuietly (s t : State) : Prop extends State.Grows s t where
  decodeSide : t.decodeSide = s.decodeSide
  seqSame : t.seq = s.seq
  outSame : t.out = s.out

/-- `t` may come after `s` in an encode session with one frame emitted (R132), and data behind it only when
DATA_PLACEMENT = TRAILING (R235). -/
structure State.EncodesFrame (s t : State) : Prop extends State.Grows s t where
  decodeSide : t.decodeSide = s.decodeSide
  seqNext : t.seq = s.seq + 1
  frame : ∃ ty payload data, t.out = s.out ++ frameBytes ty (goodFrame ty s.carriedSeq payload) ++ data ∧
    (s.cfg.placement = .inside → data = [])

theorem State.EncodesQuietly.refl (s : State) : s.EncodesQuietly s := ⟨State.Grows.refl s, rfl, rfl, rfl⟩

/-- FBLK counts the blocks a decoder reads. -/
theorem State.recordFault_fblk_encode {s : State} (hd : s.cfg.dir = .encode) (t : Trap) :
    (s.recordFault t).fblk = s.fblk := by
  unfold State.recordFault
  split
  · rfl
  · simp [hd]

/-- The faults of the encoder are run-fatal: no block is skipped, and control does not go back to the frame loop. -/
theorem State.EncodesQuietly.raise {s u : State} (h : s.EncodesQuietly u) (hd : s.cfg.dir = .encode) {t : Trap}
    (ht : t.runFatal = true) : s.EncodesQuietly (u.raise t) where
  toGrows := h.toGrows.trans (State.Grows.raise u t)
  decodeSide := by
    have hu : u.cfg.dir = .encode := h.cfg ▸ hd
    rw [← h.decodeSide]
    simp [State.decodeSide, ht, State.recordFault_fblk_encode hu]
  seqSame := (State.raise_seq t u).trans h.seqSame
  outSame := (State.raise_out t u).trans h.outSame

theorem writeBlock_frames {s u : State} (h : s.EncodesQuietly u) (hd : s.cfg.dir = .encode) (ty : Byte)
    (payload : List Byte) : (writeBlock ty payload u).Post (fun _ t => s.EncodesFrame t) s.EncodesQuietly := by
  rcases writeBlock_cases ty payload u with ⟨-, e⟩ | ⟨-, e⟩ <;> rw [e]
  · have hseq : u.carriedSeq = s.carriedSeq := by simp [State.carriedSeq, h.cfg, h.seqSame]
    exact
      { h with
        out := h.out.trans (List.prefix_append _ _)
        seqNext := congrArg (· + 1) h.seqSame
        frame := ⟨ty, payload, [], by simp [hseq, h.outSame], fun _ => rfl⟩ }
  · exact h.raise hd rfl

theorem State.EncodesFrame.emit {s t : State} (h : s.EncodesFrame t) (hp : s.cfg.placement = .trailing)
    (bs : List Byte) : s.EncodesFrame (emit bs t) := by
  obtain ⟨ty, payload, data, hout, -⟩ := h.frame
  exact
    { h with
      out := h.out.trans (List.prefix_append _ _)
      frame := ⟨ty, payload, data ++ bs, by simp [hout], by simp [hp]⟩ }

theorem emitData_frames {s : State} (hd : s.cfg.dir = .encode) (desc data : List Byte) :
    (emitData desc data s).Post (fun _ t => s.EncodesFrame t) s.EncodesQuietly := by
  have hw (payload : List Byte) := writeBlock_frames (State.EncodesQuietly.refl s) hd BlockType.data.code payload
  unfold emitData
  split
  · exact hw _
  · next hp => exact Flow.post_bind (hw _) fun _ _ h => h.emit hp data

theorem State.EncodesFrame.toPage {s t : State} (h : s.EncodesFrame t) (n : Nat) : s.EncodesFrame (toPage n t) :=
  { h with }

theorem State.EncodesFrame.toGroup {s t : State} (h : s.EncodesFrame t) (k : Nat) : s.EncodesFrame (toGroup k t) :=
  { h with }

theorem State.EncodesFrame.toPlane {s t : State} (h : s.EncodesFrame t) (ch : Channel) :
    s.EncodesFrame (toPlane ch t) := by
  have h1 : s.EncodesFrame { t with encChan := ch, encLine := 0, encByte := 0 } := { h with }
  unfold Machine.toPlane
  dsimp only
  split
  · exact h1.toPage _
  · exact h1.toGroup _

theorem State.EncodesFrame.afterPlane {s t : State} (h : s.EncodesFrame t) : s.EncodesFrame (afterPlane t) := by
  unfold Machine.afterPlane
  split
  · exact h.toPlane _
  · exact h.toPlane _
  · exact h.toPlane _
  · exact h.toPage _

theorem State.EncodesQuietly.afterLine {s t : State} (h : s.EncodesQuietly t) : s.EncodesQuietly (afterLine t) := by
  unfold Machine.afterLine
  dsimp only
  split
  · exact { h with }
  · exact { h with }

/-- A step of the encode direction, quiet or with one frame. -/
def State.EncodesTo (s t : State) : Prop := s.EncodesQuietly t ∨ s.EncodesFrame t

theorem State.EncodesTo.grows {s t : State} (h : s.EncodesTo t) : s.Grows t :=
  h.elim (·.toGrows) (·.toGrows)

theorem State.EncodesTo.decodeSide {s t : State} (h : s.EncodesTo t) : t.decodeSide = s.decodeSide :=
  h.elim (·.decodeSide) (·.decodeSide)

/-- A piece of pseudocode that is a whole step of the encode direction from `s`. -/
def Flow.Encodes (x : Flow Unit) (s : State) : Prop := x.Post (fun _ t => s.EncodesTo t) s.EncodesTo

theorem Flow.Encodes.of_frames {x : Flow Unit} {s : State}
    (h : x.Post (fun _ t => s.EncodesFrame t) s.EncodesQuietly) : x.Encodes s :=
  Flow.post_mono h (fun _ _ => .inr) fun _ => .inl

theorem Flow.Encodes.of_quiet {x : Flow Unit} {s : State}
    (h : x.Post (fun _ t => s.EncodesQuietly t) s.EncodesQuietly) : x.Encodes s :=
  Flow.post_mono h (fun _ _ => .inl) fun _ => .inl

theorem writeBlock_then_encodes {s u : State} (h : s.EncodesQuietly u) (hd : s.cfg.dir = .encode) (ty : Byte)
    (payload : List Byte) {k : Unit → State → Flow Unit}
    (hk : ∀ t, s.EncodesFrame t → (k () t).Post (fun _ t' => s.EncodesFrame t') s.EncodesQuietly) :
    ((writeBlock ty payload u).bind k).Encodes s :=
  .of_frames (Flow.post_bind (writeBlock_frames h hd ty payload) fun _ t => hk t)

theorem encodeBegin_encodes {s : State} (hd : s.cfg.dir = .encode) : (encodeBegin s).Encodes s := by
  unfold encodeBegin
  split
  · trivial
  · exact writeBlock_then_encodes (.refl s) hd _ _ fun _ h => { h with }

theorem encodeParams_encodes {s : State} (hd : s.cfg.dir = .encode) : (encodeParams s).Encodes s :=
  writeBlock_then_encodes (.refl s) hd _ _ fun t h => h.toPage t.encPage

theorem encodeEndPart_encodes {s : State} (hd : s.cfg.dir = .encode) : (encodeEndPart s).Encodes s :=
  writeBlock_then_encodes (.refl s) hd _ _ fun _ h => { h with }

theorem encodeEnd_encodes {s : State} (hd : s.cfg.dir = .encode) : (encodeEnd s).Encodes s :=
  writeBlock_then_encodes (.refl s) hd _ _ fun _ h => { h with }

theorem encodePageBlock_encodes {s : State} (hd : s.cfg.dir = .encode) (pg : Page) :
    (encodePageBlock pg s).Encodes s := by
  have h1 (up : Bool) (cm : ColorMode) :
      s.EncodesQuietly { s with w := pg.width, height := pg.height.toNat, upgraded := up, colorMode := cm } :=
    { State.EncodesQuietly.refl s with }
  unfold encodePageBlock
  exact writeBlock_then_encodes (h1 _ _) hd _ _ fun _ h => h.toPlane _

theorem encodePage_encodes {s : State} (hd : s.cfg.dir = .encode) : (encodePage s).Encodes s := by
  unfold encodePage
  split
  · exact .inl { State.EncodesQuietly.refl s with }
  · split
    · exact encodePageBlock_encodes hd _
    · trivial

theorem appendEnc_quiet {s u : State} (h : s.EncodesQuietly u) (hd : s.cfg.dir = .encode) (bs : List Byte) :
    (appendEnc bs u).Post (fun _ t => s.EncodesQuietly t) s.EncodesQuietly := by
  unfold appendEnc
  split
  · exact h.raise hd rfl
  · exact { h with }

theorem encodeLogical_quiet {s : State} (hd : s.cfg.dir = .encode) (line : List Byte) :
    (encodeLogical line s).Post (fun _ t => s.EncodesQuietly t) s.EncodesQuietly := by
  have h1 (i : Nat) : s.EncodesQuietly { s with lineBuf := line, encByte := i } := { State.EncodesQuietly.refl s with }
  unfold encodeLogical
  dsimp only
  split
  · next t i he => exact (h1 i).raise hd (encodeLine_fail_runFatal he)
  · exact Flow.post_bind (appendEnc_quiet (h1 _) hd _) fun _ _ h2 => h2.afterLine

theorem encodeLineStep_encodes {s : State} (hd : s.cfg.dir = .encode) : (encodeLineStep s).Encodes s := by
  unfold encodeLineStep
  split
  · trivial
  · split
    · trivial
    · exact .of_quiet (encodeLogical_quiet hd _)

theorem encodeData_encodes {s : State} (hd : s.cfg.dir = .encode) : (encodeData s).Encodes s := by
  refine .of_frames (Flow.post_bind (emitData_frames hd _ _) fun _ s1 h1 => ?_)
  have h2 : s.EncodesFrame { s1 with encBuf := [] } := { h1 with }
  dsimp only
  split
  · exact h2.toGroup _
  · exact h2.afterPlane

theorem encodeStep_encodes {s : State} (hd : s.cfg.dir = .encode) : (encodeStep s).Encodes s := by
  unfold encodeStep
  split
  · exact encodeBegin_encodes hd
  · exact encodeParams_encodes hd
  · exact encodePage_encodes hd
  · exact encodeLineStep_encodes hd
  · exact encodeData_encodes hd
  · exact encodeEndPart_encodes hd
  · exact encodeEnd_encodes hd

/-! ### One step of either direction -/

theorem step_cases {s t : State} (ht : step s = .next t) :
    (s.cfg.dir = .decode ∧ s.DecodesTo t) ∨ (s.cfg.dir = .encode ∧ s.EncodesTo t) := by
  have hr := runState_of_step ht
  cases hd : s.cfg.dir with
  | decode => exact .inl ⟨rfl, decodeStep_decodesTo (step_of_decode hr hd ▸ ht)⟩
  | encode => exact .inr ⟨rfl, Flow.post_next (encodeStep_encodes hd) (step_of_encode hr hd ▸ ht)⟩

theorem step_grows {s t : State} (ht : step s = .next t) : s.Grows t := by
  rcases step_cases ht with ⟨-, h⟩ | ⟨-, h⟩
  · exact h.toGrows
  · exact h.grows

/-- Settles O35, by `step_grows`. -/
theorem inputsAreNeverWritten : Obligations.InputsAreNeverWritten := fun _ _ ht =>
  have h := step_grows ht
  ⟨h.cfg, h.inp, h.job⟩

/-- Settles O36, by `step_grows`: a frame that is decoded lies whole in IN, and trailing data is cut at its end. -/
theorem inputCursorOnlyMovesForward : Obligations.InputCursorOnlyMovesForward := fun _ _ ht =>
  have h := step_grows ht
  ⟨h.ip, h.ipBound⟩

/-- Settles O37, by `step_grows`: warnings and faults are only ever raised, and no fault has code 0. -/
theorem onlyResetClears : Obligations.OnlyResetClears := by
  refine ⟨fun s hs t ht => hs (runState_of_step ht), fun s t ht => ?_⟩
  have h := step_grows ht
  exact ⟨h.warns, h.fcode, h.finfo, h.nblkFatal, h.nblk⟩

/-- Settles O38, by `step_grows`. -/
theorem outputsOnlyGrow : Obligations.OutputsOnlyGrow := fun _ _ ht =>
  have h := step_grows ht
  ⟨h.sink, h.out⟩

/-- Settles O39, by the frame of each direction. -/
theorem directionsAreApart : Obligations.DirectionsAreApart := by
  intro s t ht
  rcases step_cases ht with ⟨hd, h⟩ | ⟨hd, h⟩
  · exact ⟨fun _ => h.encodeSide, fun he => by simp [hd] at he⟩
  · exact ⟨fun he => by simp [hd] at he, fun _ => h.decodeSide⟩

/-- Settles O40: a decode step leaves the encode side, and an encode step is quiet or emits one frame, with the carried
sequence number. -/
theorem seqCountsTheFrames : Obligations.SeqCountsTheFrames := by
  intro s t ht
  rcases step_cases ht with ⟨-, h⟩ | ⟨-, h | h⟩
  · exact .inl ⟨congrArg (·.1.1) h.encodeSide, congrArg (·.1.2.1) h.encodeSide⟩
  · exact .inl ⟨h.seqSame, h.outSame⟩
  · rw [h.seqNext]
    exact .inr ⟨rfl, h.frame⟩

end Sys2Proof.Machine

namespace Sys2Proof.Machine

/-! PROOFS. The accumulation buffer's address map (R66), and what 2W puts from ACCPOS = 0 make of it (R67, R68). -/

/-! ### The address map -/

/-- An even put index of M2 names a byte of the first line. -/
theorem accAddr_m2_even (w i : Nat) : accAddr .m2 w (2 * i) = i := by
  simp [accAddr]

/-- An odd put index of M2 names a byte of the second line. -/
theorem accAddr_m2_odd (w i : Nat) : accAddr .m2 w (2 * i + 1) = w + i := by
  have hdiv : (2 * i + 1) / 2 = i := by omega
  simp [accAddr, hdiv]

theorem accAddr_of_ne_m2 {m : Model} (hm : m ≠ .m2) (w p : Nat) : accAddr m w p = p := if_neg hm

/-- Only whether the model is M2 matters to the map. -/
theorem accAddr_congr {m n : Model} (h : m = .m2 ↔ n = .m2) : accAddr m = accAddr n := by
  funext w p
  simp [accAddr, h]

/-- The put indices below 2W: the even ones and the odd ones. -/
theorem even_or_odd_index {w p : Nat} (hp : p < 2 * w) : ∃ i < w, p = 2 * i ∨ p = 2 * i + 1 :=
  ⟨p / 2, by omega, by omega⟩

theorem accAddr_m2_lt {w p : Nat} (hp : p < 2 * w) : accAddr .m2 w p < 2 * w := by
  obtain ⟨i, hi, rfl | rfl⟩ := even_or_odd_index hp
  · rw [accAddr_m2_even]; omega
  · rw [accAddr_m2_odd]; omega

theorem accAddr_m2_injective {w p q : Nat} (hp : p < 2 * w) (hq : q < 2 * w)
    (h : accAddr .m2 w p = accAddr .m2 w q) : p = q := by
  obtain ⟨i, hi, rfl | rfl⟩ := even_or_odd_index hp <;> obtain ⟨j, hj, rfl | rfl⟩ := even_or_odd_index hq <;>
    simp only [accAddr_m2_even, accAddr_m2_odd] at h <;> omega

/-- Every address of the buffer is some put's, on every model. -/
theorem accAddr_surjective (m : Model) {w a : Nat} (ha : a < 2 * w) : ∃ p < 2 * w, accAddr m w p = a := by
  by_cases hm : m = .m2
  · subst hm
    rcases Nat.lt_or_ge a w with hlt | hge
    · exact ⟨2 * a, by omega, accAddr_m2_even w a⟩
    · exact ⟨2 * (a - w) + 1, by omega, by rw [accAddr_m2_odd]; omega⟩
  · exact ⟨a, ha, accAddr_of_ne_m2 hm w a⟩

/-- A put index below 2W names a byte of the buffer, on every model. -/
theorem accAddr_lt (m : Model) {w p : Nat} (hp : p < 2 * w) : accAddr m w p < 2 * w := by
  by_cases hm : m = .m2
  · exact hm ▸ accAddr_m2_lt hp
  · rwa [accAddr_of_ne_m2 hm]

/-- Settles O30: the even and the odd put indices of M2 fill the lower and the upper half of the buffer. -/
theorem accAddressMap : Obligations.AccAddressMap := by
  refine ⟨fun w i _ => ⟨accAddr_m2_even w i, accAddr_m2_odd w i⟩, fun w a ha => ?_, fun _ _ => accAddr_m2_lt,
    fun _ w p hm => accAddr_of_ne_m2 hm w p⟩
  obtain ⟨p, hp, rfl⟩ := accAddr_surjective .m2 ha
  exact ⟨p, ⟨hp, rfl⟩, fun q hq => accAddr_m2_injective hq hp⟩

/-! ### The flush unit of 2W bytes -/

theorem flushUnitOf_length {m : Model} {w : Nat} {bs : List Byte} (h : bs.length = 2 * w) :
    (flushUnitOf m w bs).length = 2 * w := by
  unfold flushUnitOf
  split
  · simp; omega
  · exact h

/-- The flush unit holds each byte where its put writes it. -/
theorem flushUnitOf_getElem? (m : Model) {w p : Nat} {bs : List Byte} (h : bs.length = 2 * w) (hp : p < 2 * w) :
    (flushUnitOf m w bs)[accAddr m w p]? = bs[p]? := by
  by_cases hm : m = .m2
  · subst hm
    obtain ⟨i, hi, rfl | rfl⟩ := even_or_odd_index hp
    · rw [accAddr_m2_even, flushUnitOf, if_pos rfl, List.getElem?_append_left (by simpa using hi)]
      simp [hi, List.getD_eq_getElem?_getD, List.getElem?_eq_getElem (h ▸ hp)]
    · rw [accAddr_m2_odd, flushUnitOf, if_pos rfl, List.getElem?_append_right (by simp)]
      simp [hi, List.getD_eq_getElem?_getD, List.getElem?_eq_getElem (h ▸ hp)]
  · rw [accAddr_of_ne_m2 hm, flushUnitOf, if_neg hm]

/-- A memory that agrees with a list of bytes reads as that list. -/
theorem Memory.readAll_eq_some {m : Memory} {u : List Byte} (h : ∀ a < u.length, m.read a = u[a]?) :
    m.readAll 0 u.length = some u := by
  have hsome : (m.readAll 0 u.length).isSome = true :=
    Memory.readAll_isSome.2 fun a ha => by simp [h a ha, ha]
  obtain ⟨bs, hbs⟩ := Option.isSome_iff_exists.1 hsome
  rw [hbs]
  refine congrArg some (List.ext_getElem? fun a => ?_)
  rcases Nat.lt_or_ge a u.length with ha | ha
  · rw [Memory.readAll_get hbs a ha, Nat.zero_add, h a ha]
  · rw [List.getElem?_eq_none ha, List.getElem?_eq_none (Memory.readAll_length hbs ▸ ha)]

/-! ### Filling the buffer -/

/-- The puts so far wrote what the flush unit `u` holds at their addresses. -/
def State.Collects (s : State) (u : List Byte) : Prop :=
  ∀ p < s.accPos, s.acc.read (accAddr s.model s.w p) = u[accAddr s.model s.w p]?

/-- One more put of what `u` holds at its address. Whether an earlier put had the same address does not matter. -/
theorem State.Collects.write {s : State} {u : List Byte} {v : Byte} (h : s.Collects u)
    (hv : some v = u[accAddr s.model s.w s.accPos]?) :
    (s.withPut (s.acc.write (accAddr s.model s.w s.accPos) v) (s.accPos + 1) s.sink).Collects u := by
  intro p hp
  simp only [State.withPut_model, State.withPut_w, State.withPut_acc, State.withPut_accPos] at hp ⊢
  rw [Memory.read_write]
  split
  · next he => rw [he, hv]
  · next hne => exact h p (Nat.lt_of_le_of_ne (Nat.le_of_lt_succ hp) fun e => hne (by rw [e]))

/-- A full buffer reads as the unit it collected. -/
theorem State.Collects.readAll {s : State} {u : List Byte} (h : s.Collects u) (hpos : s.accPos = 2 * s.w)
    (hu : u.length = 2 * s.w) : s.acc.readAll 0 (2 * s.w) = some u := by
  rw [← hu]
  refine Memory.readAll_eq_some fun a ha => ?_
  obtain ⟨p, hp, rfl⟩ := accAddr_surjective s.model (hu ▸ ha)
  exact h p (hpos ▸ hp)

/-- A put that does not fill the buffer. -/
theorem putByte_of_lt {s : State} (v : Byte) (h : s.accPos + 1 < 2 * s.w) :
    putByte v s = .ok () (s.withPut (s.acc.write (accAddr s.model s.w s.accPos) v) (s.accPos + 1) s.sink) := by
  have ha : accAddr s.model s.w s.accPos < 2 * s.w := accAddr_lt s.model (by omega)
  simp [putByte, ha, h.ne]

/-- The put that fills the buffer flushes it. -/
theorem putByte_of_eq {s : State} (v : Byte) (h : s.accPos + 1 = 2 * s.w) :
    putByte v s = flushAcc (s.withPut (s.acc.write (accAddr s.model s.w s.accPos) v) (s.accPos + 1) s.sink) := by
  have ha : accAddr s.model s.w s.accPos < 2 * s.w := accAddr_lt s.model (by omega)
  simp [putByte, ha, h]

/-- The puts that fill the rest of the buffer make the flush unit that they and the puts before them collect. -/
theorem putAll_of_collects {s : State} {u bs : List Byte} (hne : bs ≠ []) (hlen : s.accPos + bs.length = 2 * s.w)
    (hu : u.length = 2 * s.w) (hs : s.Collects u)
    (hbs : ∀ i < bs.length, bs[i]? = u[accAddr s.model s.w (s.accPos + i)]?) :
    putAll bs s = .ok () (s.withPut [] 0 (s.sink ++ [{ chan := s.chan, bytes := u }])) := by
  induction bs generalizing s with
  | nil => exact absurd rfl hne
  | cons b bs ih =>
    have h1 := hs.write (v := b) (by simpa using hbs 0 (by simp))
    rw [List.length_cons] at hlen
    rw [putAll_cons]
    cases bs with
    | nil =>
      have hfull : s.accPos + 1 = 2 * s.w := hlen
      have hr := h1.readAll hfull hu
      simp only [State.withPut_acc, State.withPut_w] at hr
      rw [putByte_of_eq b hfull, flushAcc]
      simp [hr, putAll_nil]
    | cons c cs =>
      rw [List.length_cons] at hlen
      rw [putByte_of_lt b (by omega), Flow.bind_ok]
      refine ih (by simp) ?_ (by exact hu) h1 fun i hi => ?_
      · simp only [State.withPut_accPos, State.withPut_w, List.length_cons]; omega
      · have hnext := hbs (i + 1) (by simpa using hi)
        rw [List.getElem?_cons_succ, Nat.add_comm i 1, ← Nat.add_assoc] at hnext
        exact hnext

/-- Settles O31: the bytes put from ACCPOS = 0 are collected into their flush unit. -/
theorem fullBufferIsOneFlushUnit : Obligations.FullBufferIsOneFlushUnit := by
  intro s bs hs hpos hlen
  have hw := hs.wide
  have hne : bs ≠ [] := List.ne_nil_of_length_pos (by omega)
  refine putAll_of_collects hne (by omega) (flushUnitOf_length hlen) (fun p hp => by omega) fun i hi => ?_
  rw [hpos, Nat.zero_add, flushUnitOf_getElem? s.model hlen (hlen ▸ hi)]

end Sys2Proof.Machine

namespace Sys2Proof.Machine

/-! PROOFS. Every step keeps ACC filled by its puts (R69). Most of the pseudocode leaves all that `accFilled` reads as
it was; a byte put adds its own address, a flush and a Page block start an empty buffer, and a Begin block may change
the address map (the hole of R331). -/

/-! ### What a filled buffer depends on -/

/-- All of a state that `accFilled` reads. -/
def State.accSide (s : State) : Memory × Nat × Nat × Model := (s.acc, s.accPos, s.w, s.model)

theorem State.accFilled_congr {s t : State} (h : t.accSide = s.accSide) : t.accFilled ↔ s.accFilled := by
  simp only [State.accSide, Prod.mk.injEq] at h
  obtain ⟨hacc, hpos, hw, hm⟩ := h
  simp [State.accFilled, hacc, hpos, hw, hm]

@[simp] theorem State.raise_accSide (t : Trap) (s : State) : (s.raise t).accSide = s.accSide := by
  simp [State.accSide]

@[simp] theorem State.warnIf_accSide (b : Bool) (k : Warning) (s : State) : (s.warnIf b k).accSide = s.accSide := by
  simp [State.accSide]

theorem residue_accSide (s : State) : (residue s).accSide = s.accSide := by
  obtain ⟨ws, u, e⟩ := residue_eq s
  rw [e]
  rfl

/-- An empty buffer with nothing put, under any MODEL and W. -/
theorem State.accFilled_of_empty {s : State} (hacc : s.acc = []) (hpos : s.accPos = 0) : s.accFilled := by
  simp [State.accFilled, hacc, hpos]

/-- A byte written at the address of the next put. -/
theorem State.accFilled.write {s : State} (h : s.accFilled) (ha : accAddr s.model s.w s.accPos < 2 * s.w) (v : Byte) :
    (s.withPut (s.acc.write (accAddr s.model s.w s.accPos) v) (s.accPos + 1) s.sink).accFilled := by
  obtain ⟨hrange, hread⟩ := h
  refine ⟨fun c hc => ?_, fun a ha' => ?_⟩
  · rcases Memory.mem_write hc with hc | rfl
    · exact hrange c hc
    · exact ha
  · simp only [State.withPut_acc, State.withPut_accPos, State.withPut_model, State.withPut_w, Memory.read_write,
      Nat.lt_succ_iff_lt_or_eq, or_and_right, exists_or, exists_eq_left]
    split
    · next he => simp [he]
    · next hne => simp [hread a ha', Ne.symm hne]

/-- The step from `s` to `t` does not change MODEL to or from M2 while a byte waits for a flush (R331). -/
def State.KeepsMap (s t : State) : Prop := s.accPos = 0 ∨ (s.model = .m2 ↔ t.model = .m2)

theorem State.KeepsMap.of_accSide {s t u : State} (h : s.KeepsMap t) (hu : u.accSide = s.accSide) : u.KeepsMap t := by
  simp only [State.accSide, Prod.mk.injEq] at hu
  obtain ⟨-, hpos, -, hm⟩ := hu
  rwa [State.KeepsMap, hpos, hm]

/-- A change of MODEL that does not change the address of a byte already put. -/
theorem State.accFilled.setModel {s : State} (h : s.accFilled) {m : Model} (hm : s.KeepsMap { s with model := m }) :
    ({ s with model := m } : State).accFilled := by
  obtain ⟨hrange, hread⟩ := h
  refine ⟨hrange, fun a ha => (hread a ha).trans ?_⟩
  rcases hm with hpos | hm
  · simp [hpos]
  · rw [accAddr_congr hm]

/-! ### The pseudocode that touches neither ACC nor its map -/

/-- A piece of pseudocode ends with the buffer's side of the state as given, in a fault that is taken or not. -/
def Flow.AccIs {α : Type} (x : Flow α) (side : Memory × Nat × Nat × Model) : Prop :=
  x.Post (fun _ t => t.accSide = side) fun t => t.accSide = side

theorem Flow.AccIs.bind {α β : Type} {x : Flow α} {k : α → State → Flow β} {side : Memory × Nat × Nat × Model}
    (hx : x.AccIs side) (hk : ∀ a t, t.accSide = side → (k a t).AccIs side) : (x.bind k).AccIs side :=
  Flow.post_bind hx hk

section
variable {side : Memory × Nat × Nat × Model} {s : State}

theorem Flow.trap_accIs {α : Type} (h : s.accSide = side) (t : Trap) : (Flow.trap t s : Flow α).AccIs side :=
  (State.raise_accSide t s).trans h

theorem nextByte_accIs (h : s.accSide = side) : (nextByte s).AccIs side := by
  rcases nextByte_cases s with ⟨b, -, e⟩ | ⟨-, e⟩ <;> rw [e]
  · exact h
  · exact Flow.trap_accIs h _

theorem tRead_accIs (h : s.accSide = side) (i : Nat) : (tRead i s).AccIs side := by
  rcases tRead_cases i s with ⟨b, -, -, e⟩ | ⟨-, e⟩ <;> rw [e]
  · exact h
  · exact Flow.trap_accIs h _

theorem loadTable_accIs (h : s.accSide = side) (i n : Nat) : (loadTable i n s).AccIs side := by
  induction n generalizing i s with
  | zero => exact h
  | succ n ih => exact (nextByte_accIs h).bind fun _ _ h1 => ih (by exact h1) _

theorem readFiller_accIs (h : s.accSide = side) (n : Nat) : (readFiller n s).AccIs side := by
  induction n generalizing s with
  | zero => exact h
  | succ n ih => exact (nextByte_accIs h).bind fun _ _ h1 => ih (by simpa using h1)

theorem linesLoop_accSide (s : State) : (linesLoop s).accSide = s.accSide := by
  rcases linesLoop_cases s with ⟨-, e⟩ | ⟨-, e⟩ <;> rw [e]
  · exact State.warnIf_accSide (decide (s.cur < s.d.length)) .trailing s
  · rfl

theorem endLine_accIs (h : s.accSide = side) : (endLine s).AccIs side := by
  unfold endLine
  split
  · exact Flow.trap_accIs h _
  · exact (linesLoop_accSide _).trans ((State.warnIf_accSide (rowMismatch s) .pad s).trans h)

theorem opLoop_accIs (h : s.accSide = side) : (opLoop s).AccIs side := by
  rcases opLoop_cases s with ⟨-, e⟩ | ⟨-, e⟩ <;> rw [e]
  · exact h
  · exact endLine_accIs h

theorem addProduced_accIs (h : s.accSide = side) (n : Nat) : (addProduced n s).AccIs side := opLoop_accIs h

theorem startOps_accIs (h : s.accSide = side) (n : Nat) : (startOps n s).AccIs side := by
  rcases startOps_cases n s with ⟨-, e⟩ | ⟨-, e⟩ <;> rw [e]
  · exact Flow.trap_accIs h _
  · exact (loadTable_accIs (by exact h) 0 n).bind fun _ _ h1 => opLoop_accIs h1

theorem frameCheck_accIs (h : s.accSide = side) (k : FrameCheck) (good : Bool) : (frameCheck k good s).AccIs side := by
  unfold frameCheck
  split
  · exact h
  · split
    · exact Flow.trap_accIs (s := s.warn k.warning) h _
    · exact h

theorem acceptFrame_accIs (h : s.accSide = side) (ty : Byte) (f : Frame) : (acceptFrame ty f s).AccIs side :=
  (frameCheck_accIs (by exact h) .magic _).bind fun _ _ h1 =>
    (frameCheck_accIs h1 .typeInv _).bind fun _ _ h2 => frameCheck_accIs h2 .checksum _

theorem onParams_accIs (h : s.accSide = side) (p : List Byte) : (onParams p s).AccIs side := by
  unfold onParams
  split
  · exact Flow.trap_accIs h _
  · exact h

theorem onEndPart_accIs (h : s.accSide = side) (p : List Byte) : (onEndPart p s).AccIs side := by
  unfold onEndPart
  split
  · exact Flow.trap_accIs h _
  · exact h

theorem onEnd_accIs (h : s.accSide = side) (p : List Byte) : (onEnd p s).AccIs side := h

theorem decodeData_accIs (h : s.accSide = side) (d : List Byte) (n : Nat) : (decodeData d n s).AccIs side := by
  unfold decodeData
  split
  · exact Flow.trap_accIs h _
  · exact (linesLoop_accSide _).trans h

theorem onData_accIs (h : s.accSide = side) (p : List Byte) : (onData p s).AccIs side := by
  unfold onData
  split
  · exact Flow.trap_accIs h _
  · next f len _ =>
    have hw (b : Bool) (k : Warning) :
        (State.warnIf b k { s with chan := chanOf s.cfg.channelCode f.channel }).accSide = side :=
      (State.warnIf_accSide b k _).trans h
    dsimp only
    split
    · unfold onDataInside
      split
      · exact Flow.trap_accIs (s := { s with chan := chanOf s.cfg.channelCode f.channel }) h _
      · exact decodeData_accIs (hw _ _) _ _
    · exact decodeData_accIs (by exact hw _ _) _ _

theorem truncatedLine_accSide (s : State) : (truncatedLine s).accSide = s.accSide := by
  unfold truncatedLine
  split <;> exact State.raise_accSide _ _

theorem atEnd_accSide (s : State) : (atEnd s).accSide = s.accSide := by
  unfold atEnd
  split
  · exact residue_accSide s
  · exact truncatedLine_accSide s

theorem atTruncation_accSide (s : State) : (atTruncation s).accSide = s.accSide := by
  unfold atTruncation
  split
  · exact residue_accSide _
  · exact truncatedLine_accSide s

/-! ### The pseudocode that may put bytes -/

/-- A piece of pseudocode ends with the buffer filled by its puts, in a fault that is taken or not. -/
def Flow.Fills {α : Type} (x : Flow α) : Prop := x.Post (fun _ t => t.accFilled) State.accFilled

theorem Flow.Fills.bind {α β : Type} {x : Flow α} {k : α → State → Flow β} (hx : x.Fills)
    (hk : ∀ a t, t.accFilled → (k a t).Fills) : (x.bind k).Fills :=
  Flow.post_bind hx hk

/-- What leaves the buffer's side of a filled state fills. -/
theorem Flow.AccIs.fills {α : Type} {x : Flow α} (hx : x.AccIs s.accSide) (h : s.accFilled) : x.Fills :=
  Flow.post_mono hx (fun _ _ e => (State.accFilled_congr e).2 h) fun _ e => (State.accFilled_congr e).2 h

theorem putByte_fills (h : s.accFilled) (v : Byte) : (putByte v s).Fills := by
  rcases putByte_cases v s with ⟨ha, -, e⟩ | ⟨u, -, -, -, e⟩ | ⟨-, -, -, e⟩ | ⟨-, e⟩ <;> rw [e]
  · exact h.write ha v
  · exact State.accFilled_of_empty rfl rfl
  · trivial
  · trivial

theorem nextByte_fills (h : s.accFilled) : (nextByte s).Fills := (nextByte_accIs rfl).fills h

theorem tRead_fills (h : s.accFilled) (i : Nat) : (tRead i s).Fills := (tRead_accIs rfl i).fills h

theorem addProduced_fills (h : s.accFilled) (n : Nat) : (addProduced n s).Fills := (addProduced_accIs rfl n).fills h

theorem putCopies_fills (h : s.accFilled) (n : Nat) (v : Byte) : (putCopies n v s).Fills := by
  induction n generalizing s with
  | zero => exact h
  | succ n ih => exact (putByte_fills h v).bind fun _ _ h1 => ih h1

theorem putLiterals_fills (h : s.accFilled) (n : Nat) : (putLiterals n s).Fills := by
  induction n generalizing s with
  | zero => exact h
  | succ n ih => exact (nextByte_fills h).bind fun b _ h1 => (putByte_fills h1 b).bind fun _ _ h2 => ih h2

theorem putLookups_fills (h : s.accFilled) (n : Nat) : (putLookups n s).Fills := by
  induction n generalizing s with
  | zero => exact h
  | succ n ih =>
    exact (nextByte_fills h).bind fun x s1 h1 =>
      (tRead_fills h1 (firstIndex s1.cfg x)).bind fun b _ h2 =>
      (putByte_fills h2 b).bind fun _ s3 h3 =>
      (tRead_fills h3 (secondIndex s3.cfg x)).bind fun b' _ h4 =>
      (putByte_fills h4 b').bind fun _ _ h5 => ih h5

theorem repeatByte_fills (h : s.accFilled) (n : Nat) : (repeatByte n s).Fills :=
  (nextByte_fills h).bind fun v _ h1 => (putCopies_fills h1 n v).bind fun _ _ h2 => addProduced_fills h2 n

/-! ### The instructions -/

theorem execLhdr_accFilled {t : State} {present padp : Bool} {tlen : BitVec 7} (h : s.accFilled)
    (ht : execLhdr present padp tlen s = .next t) : t.accFilled := by
  have hside : (State.warnIf (!present) .lineFlag
      { s with lstart := s.cur, padRow := none, padLen := 0, cur := s.cur + 1 }).accSide = s.accSide :=
    State.warnIf_accSide _ _ _
  cases padp with
  | false => exact Flow.post_next ((startOps_accIs hside tlen.toNat).fills h) ht
  | true => cases ht; exact (State.accFilled_congr hside).2 h

theorem execPadhdr_accFilled {t : State} {padLen : BitVec 2} {rowLen : BitVec 14} (h : s.accFilled)
    (ht : execPadhdr padLen rowLen s = .next t) : t.accFilled :=
  have hx := Flow.AccIs.bind (readFiller_accIs (side := s.accSide)
    (s := { s with padRow := some rowLen.toNat, padLen := padLen.toNat, cur := s.cur + 2 }) rfl padLen.toNat)
    fun _ _ h1 => startOps_accIs h1 _
  Flow.post_next (hx.fills h) ht

/-- A new page starts an empty buffer (R256). -/
theorem onPage_fills (h : s.accFilled) (p : List Byte) : (onPage p s).Fills := by
  unfold onPage
  split
  · exact (Flow.trap_accIs rfl _).fills h
  · exact State.accFilled_of_empty rfl rfl

/-- A piece of pseudocode run from `s` ends with the buffer filled by its puts, unless it changed the map under them. -/
def Flow.FillsFrom {α : Type} (x : Flow α) (s : State) : Prop :=
  x.Post (fun _ t => s.KeepsMap t → t.accFilled) fun t => s.KeepsMap t → t.accFilled

theorem Flow.Fills.fillsFrom {α : Type} {x : Flow α} (hx : x.Fills) (s : State) : x.FillsFrom s :=
  Flow.post_mono hx (fun _ _ h _ => h) fun _ h _ => h

/-- A Begin block may change the map (R252). -/
theorem onBegin_fillsFrom (h : s.accFilled) (p : List Byte) : (onBegin p s).FillsFrom s := by
  unfold onBegin
  split
  · exact Flow.Fills.fillsFrom ((Flow.trap_accIs rfl _).fills h) s
  · intro hm
    refine (State.accFilled_congr (State.warnIf_accSide _ _ _)).2 (h.setModel ?_)
    simpa [State.KeepsMap] using hm

variable {t : State}

theorem runFrame_accFilled {ty : BlockType} {handler : List Byte → State → Flow Unit} {f : Frame}
    (hh : ∀ u, u.accFilled → (handler f.payload u).FillsFrom u) (h : s.accFilled) (hm : s.KeepsMap t)
    (ht : runFrame ty handler f s = .next t) : t.accFilled := by
  have hx : ((acceptFrame ty.code f s).bind fun _ u => handler f.payload u).FillsFrom s := by
    refine Flow.post_bind (P := fun _ u => u.accSide = s.accSide) ?_ fun _ u hu => ?_
    · exact Flow.post_mono (acceptFrame_accIs rfl ty.code f) (fun _ _ => id)
        fun _ e _ => (State.accFilled_congr e).2 h
    · have hmap (v : State) (hv : s.KeepsMap v) : u.KeepsMap v := hv.of_accSide hu
      exact Flow.post_mono (hh u ((State.accFilled_congr hu).2 h)) (fun _ v hv => hv ∘ hmap v)
        fun v hv => hv ∘ hmap v
  exact Flow.post_next hx ht hm

/-- One instruction; only a frame can change the map. -/
theorem exec_accFilled {i : Instr} (h : s.accFilled) (hm : i.context = .frame → s.KeepsMap t)
    (ht : exec i s = .next t) : t.accFilled := by
  have hop : s.pastOpcode.accFilled := h
  cases i with
  | blkBegin f => exact runFrame_accFilled (fun _ hu => onBegin_fillsFrom hu _) h (hm rfl) ht
  | blkEnd f => exact runFrame_accFilled (fun u hu => ((onEnd_accIs rfl _).fills hu).fillsFrom u) h (hm rfl) ht
  | blkParams f => exact runFrame_accFilled (fun u hu => ((onParams_accIs rfl _).fills hu).fillsFrom u) h (hm rfl) ht
  | blkPage f => exact runFrame_accFilled (fun u hu => (onPage_fills hu _).fillsFrom u) h (hm rfl) ht
  | blkData f => exact runFrame_accFilled (fun u hu => ((onData_accIs rfl _).fills hu).fillsFrom u) h (hm rfl) ht
  | blkEndPart f => exact runFrame_accFilled (fun u hu => ((onEndPart_accIs rfl _).fills hu).fillsFrom u) h (hm rfl) ht
  | lhdr present padp tlen => exact execLhdr_accFilled h ht
  | padhdr padLen rowLen => exact execPadhdr_accFilled h ht
  | raw fld => exact Flow.post_next ((putLiterals_fills hop _).bind fun _ _ h1 => addProduced_fills h1 _) ht
  | tbl fld => exact Flow.post_next ((putLookups_fills hop _).bind fun _ _ h1 => addProduced_fills h1 _) ht
  | rep fld => exact Flow.post_next (repeatByte_fills hop _) ht
  | lrep fld => exact Flow.post_next (repeatByte_fills hop _) ht

/-! ### The steps -/

theorem decodeOne_accFilled (h : s.accFilled) (hm : s.ctx = .frame → s.KeepsMap t) (ht : decodeOne s = .next t) :
    t.accFilled := by
  unfold decodeOne at ht
  split at ht
  · next i rest he => exact exec_accFilled h (fun hi => hm ((decode_context he).symm.trans hi)) ht
  · cases ht; exact (State.accFilled_congr (atEnd_accSide s)).2 h
  · cases ht; exact (State.accFilled_congr (atTruncation_accSide s)).2 h
  · next ty f rest _ =>
    have hx : (acceptUnknown ty f s).AccIs s.accSide :=
      (acceptFrame_accIs rfl ty f).bind fun _ _ h1 => Flow.trap_accIs h1 _
    exact Flow.post_next (hx.fills h) ht

/-- A step that holds two instructions holds two of a line, and those keep the map. -/
theorem decodeStep_accFilled (h : s.accFilled) (hm : s.KeepsMap t) (ht : decodeStep s = .next t) : t.accFilled := by
  rcases decodeStep_cases s with e | ⟨u, hc, hu, hp, e⟩
  · exact decodeOne_accFilled h (fun _ => hm) (e ▸ ht)
  · have hfill : u.accFilled := decodeOne_accFilled h (by simp [hc]) hu
    exact decodeOne_accFilled hfill (by simp [hp]) (e ▸ ht)

end

/-- Settles O32: in the decode direction by the pseudocode, each piece of which keeps the buffer's side of the state,
fills the buffer by a put or empties it; in the encode direction the buffer is empty and stays so (O39). -/
theorem accStaysFilledByItsPuts : Obligations.AccStaysFilledByItsPuts := by
  intro s t hl h ht hm
  cases hd : s.cfg.dir with
  | decode => exact decodeStep_accFilled h hm (step_of_decode (runState_of_step ht) hd ▸ ht)
  | encode =>
    have hside : t.decodeSide = s.decodeSide := (directionsAreApart s t ht).2 hd
    obtain ⟨-, hacc, hpos⟩ := hl.encoder hd
    simp only [State.decodeSide, Prod.mk.injEq] at hside
    exact State.accFilled_of_empty (by simp [hside, hacc]) (by simp [hside, hpos])

end Sys2Proof.Machine

namespace Sys2Proof.Machine

/-! PROOFS. The encodings of R91 to R107: decoding what the encoder wrote gives the instruction back, in each of the
four contexts; which bytes are opcodes and frames; the padding formula (R115). -/

/-! ### Context FRAME -/

/-- `leVal` reads what `le16` writes of a length that two bytes hold. -/
theorem leVal_le16 {n : Nat} (h : n ≤ 65535) : leVal (BitVec.ofNat 8 n) (BitVec.ofNat 8 (n / 256)) = n := by
  simp only [leVal, BitVec.toNat_ofNat]
  omega

theorem blockTypeOf_code (t : BlockType) : blockTypeOf t.code = some t := by cases t <;> rfl

theorem decodeFrame_frameBytes (t : BlockType) {f : Frame} (h : f.wf = true) (rest : List Byte) :
    decodeFrame (frameBytes t.code f ++ rest) = .ok (t.instr f) rest := by
  have hlen : leVal (BitVec.ofNat 8 f.payload.length) (BitVec.ofNat 8 (f.payload.length / 256)) = f.payload.length :=
    leVal_le16 (of_decide_eq_true h)
  simp [frameBytes, frameHeader, le16, decodeFrame, hlen, blockTypeOf_code]

theorem Instr.eq_instr_of_context {i : Instr} (h : i.context = .frame) :
    ∃ (t : BlockType) (f : Frame), i = t.instr f := by
  cases i with
  | blkBegin f => exact ⟨.begin, f, rfl⟩
  | blkEnd f => exact ⟨.end_, f, rfl⟩
  | blkParams f => exact ⟨.params, f, rfl⟩
  | blkPage f => exact ⟨.page, f, rfl⟩
  | blkData f => exact ⟨.data, f, rfl⟩
  | blkEndPart f => exact ⟨.endPart, f, rfl⟩
  | _ => cases h

theorem BlockType.code_mem (t : BlockType) : t.code ∈ ([0x40, 0x41, 0x50, 0x51, 0x52, 0x55] : List Byte) := by
  cases t <;> decide

/-! ### Context LHDR -/

theorem lhdrTlen_eq_and (b : PadpBit) (f : Byte) : lhdrTlen b f = f.setWidth 7 &&& b.tlenMask := by cases b <;> rfl

/-- A table length that the mask keeps has no bit at the place of PADP. -/
theorem tlen_getLsbD_index {b : PadpBit} {tlen : BitVec 7} (h : tlen &&& b.tlenMask = tlen) :
    tlen.getLsbD b.index = false := by
  have hmask : b.tlenMask.getLsbD b.index = false := by cases b <;> rfl
  rw [← h, BitVec.getLsbD_and, hmask, Bool.and_false]

/-- Bit 7 is PRESENT: PADP stands elsewhere, and a table length has bits 6:0 alone. -/
theorem encodeLhdr_present (b : PadpBit) (present padp : Bool) (tlen : BitVec 7) :
    (encodeLhdr b present padp tlen).getLsbD 7 = present := by
  have hpresent : (if present then (0x80 : Byte) else 0).getLsbD 7 = present := by cases present <;> rfl
  have hpadp : (if padp then BitVec.twoPow 8 b.index else 0).getLsbD 7 = false := by cases padp <;> cases b <;> rfl
  rw [encodeLhdr, BitVec.getLsbD_or, BitVec.getLsbD_or, hpresent, hpadp, BitVec.getLsbD_setWidth,
    BitVec.getLsbD_of_ge tlen 7 (Nat.le_refl 7), Bool.and_false, Bool.or_false, Bool.or_false]

/-- The PADP bit is PADP: neither PRESENT nor a well-formed table length has it. -/
theorem encodeLhdr_padp (b : PadpBit) (present padp : Bool) {tlen : BitVec 7} (h : tlen &&& b.tlenMask = tlen) :
    (encodeLhdr b present padp tlen).getLsbD b.index = padp := by
  have hpresent : (if present then (0x80 : Byte) else 0).getLsbD b.index = false := by cases present <;> cases b <;> rfl
  have hpadp : (if padp then BitVec.twoPow 8 b.index else 0).getLsbD b.index = padp := by cases padp <;> cases b <;> rfl
  rw [encodeLhdr, BitVec.getLsbD_or, BitVec.getLsbD_or, hpresent, hpadp, BitVec.getLsbD_setWidth,
    tlen_getLsbD_index h, Bool.and_false, Bool.or_false, Bool.false_or]

/-- With both flags cleared the table length is left. -/
theorem lhdrTlen_encodeLhdr (b : PadpBit) (present padp : Bool) {tlen : BitVec 7} (h : tlen &&& b.tlenMask = tlen) :
    lhdrTlen b (encodeLhdr b present padp tlen) = tlen := by
  have hpresent : (if present then (0x80 : Byte) else 0).setWidth 7 = 0#7 := by cases present <;> rfl
  have hpadp : (if padp then BitVec.twoPow 8 b.index else 0).setWidth 7 &&& b.tlenMask = 0#7 := by
    cases padp <;> cases b <;> rfl
  rw [lhdrTlen_eq_and, encodeLhdr, BitVec.setWidth_or, BitVec.setWidth_or, hpresent, BitVec.zero_or,
    BitVec.setWidth_setWidth_of_le _ (by decide), BitVec.setWidth_eq, BitVec.and_or_distrib_right, hpadp,
    BitVec.zero_or, h]

theorem decodeLhdr_encodeLhdr (b : PadpBit) (present padp : Bool) {tlen : BitVec 7} (h : tlen &&& b.tlenMask = tlen) :
    decodeLhdr b (encodeLhdr b present padp tlen) = .lhdr present padp tlen := by
  rw [decodeLhdr, encodeLhdr_present, encodeLhdr_padp b present padp h, lhdrTlen_encodeLhdr b present padp h]

/-! ### Context PADHDR -/

/-- The entries of a field map gather what they scattered, whatever stands at the other places of the word. -/
theorem gatherBits_scatterBits_or {bs : List Nat} (hlt : ∀ b ∈ bs, b < 16) (hnd : bs.Nodup) {v : Nat}
    (hv : v < 2 ^ bs.length) {h : BitVec 16} (hother : ∀ b ∈ bs, h.getLsbD b = false) :
    gatherBits (scatterBits v bs ||| h) bs = v :=
  gatherBits_eq hv fun i hi => by
    rw [BitVec.getLsbD_or, scatterBits_getLsbD hlt hnd v hi, hother _ (List.getElem_mem hi), Bool.or_false]

/-- R13 of a field map that uses each of the 16 bits once: neither field's places are among the other's. -/
theorem PadLayout.bits_lawful {padBits rowBits : List Nat} (h : (PadLayout.bits padBits rowBits).wf = true) :
    PadLayout.Lawful (.bits padBits rowBits) := by
  simp only [PadLayout.wf, Bool.and_eq_true, decide_eq_true_eq, List.all_eq_true, List.mem_append] at h
  obtain ⟨⟨⟨hpadLen, hrowLen⟩, hlt⟩, hnodup⟩ := h
  obtain ⟨hpadNodup, hrowNodup, hapart⟩ := List.nodup_append.1 hnodup
  intro p r
  have hpad : gatherBits (scatterBits p.toNat padBits ||| scatterBits r.toNat rowBits) padBits = p.toNat :=
    gatherBits_scatterBits_or (fun b hb => hlt b (.inl hb)) hpadNodup (by rw [hpadLen]; exact p.isLt) fun b hb =>
      scatterBits_getLsbD_of_not_mem (fun hb' => hapart b hb b hb' rfl) _
  have hrow : gatherBits (scatterBits p.toNat padBits ||| scatterBits r.toNat rowBits) rowBits = r.toNat := by
    rw [BitVec.or_comm]
    exact gatherBits_scatterBits_or (fun b hb => hlt b (.inr hb)) hrowNodup (by rw [hrowLen]; exact r.isLt) fun b hb =>
      scatterBits_getLsbD_of_not_mem (fun hb' => hapart b hb' b hb rfl) _
  simp only [PadLayout.pack, PadLayout.unpack, hpad, hrow, BitVec.ofNat_toNat, BitVec.setWidth_eq]

theorem decode_padhdr_wordBytes (c : Cfg) (h : BitVec 16) (rest : List Byte) :
    decode c .padhdr (wordBytes h ++ rest) =
      .ok (.padhdr (c.padLayout.unpack h).1 (c.padLayout.unpack h).2) rest := by
  have hword : h.extractLsb' 8 8 ++ h.setWidth 8 = h := by
    rw [BitVec.setWidth_eq_extractLsb' (by decide)]
    exact extractLsb'_append_extractLsb'_self (m := 8) (n := 8) h
  simp only [wordBytes, List.cons_append, List.nil_append, decode, decodePadhdr, hword]

/-! ### Context OP -/

/-- The opcode of two selecting bits and a field (R101). -/
theorem decodeOp_append (k : BitVec 2) (fld : BitVec 6) : decodeOp (k ++ fld) =
    if k = 0b00#2 then .raw fld else if k = 0b01#2 then .tbl fld else if k = 0b10#2 then .rep fld else .lrep fld := by
  have hk : (k ++ fld).extractLsb' 6 2 = k := BitVec.extractLsb'_append_eq_left
  have hfld : (k ++ fld).setWidth 6 = fld := BitVec.setWidth_append_eq_right
  rw [decodeOp, hk, hfld]

/-- The two selecting bits are the quarter of the 256 values that the opcode lies in. -/
theorem opcode_select_eq_iff (op : Byte) (k : BitVec 2) : op.extractLsb' 6 2 = k ↔ op.toNat / 64 = k.toNat := by
  have hop := op.isLt
  rw [← BitVec.toNat_inj, BitVec.extractLsb'_toNat, Nat.shiftRight_eq_div_pow]
  omega

/-- The field is the opcode's offset in its quarter. -/
theorem opcode_field_eq (op : Byte) {k : Nat} (h : op.toNat / 64 = k) :
    op.setWidth 6 = BitVec.ofNat 6 (op.toNat - 64 * k) := by
  apply BitVec.eq_of_toNat_eq
  rw [BitVec.toNat_setWidth, BitVec.toNat_ofNat]
  omega

theorem decodeOp_eq_ranges (op : Byte) : decodeOp op =
    if op.toNat < 64 then .raw (BitVec.ofNat 6 op.toNat)
    else if op.toNat < 128 then .tbl (BitVec.ofNat 6 (op.toNat - 64))
    else if op.toNat < 192 then .rep (BitVec.ofNat 6 (op.toNat - 128))
    else .lrep (BitVec.ofNat 6 (op.toNat - 192)) := by
  have hop := op.isLt
  have hquarter : op.toNat / 64 = 0 ∨ op.toNat / 64 = 1 ∨ op.toNat / 64 = 2 ∨ op.toNat / 64 = 3 := by omega
  simp only [decodeOp, opcode_select_eq_iff]
  rcases hquarter with h | h | h | h <;> rw [opcode_field_eq op h, h]
  · rw [if_pos (by decide), if_pos (by omega), Nat.mul_zero, Nat.sub_zero]
  · rw [if_neg (by decide), if_pos (by decide), if_neg (by omega), if_pos (by omega)]
  · rw [if_neg (by decide), if_neg (by decide), if_pos (by decide), if_neg (by omega), if_neg (by omega),
      if_pos (by omega)]
  · rw [if_neg (by decide), if_neg (by decide), if_neg (by decide), if_neg (by omega), if_neg (by omega),
      if_neg (by omega)]

/-! ### The statements -/

/-- Settles O1: a field map by its disjoint places, then each instruction by its own context's encoding. -/
theorem decodeEncodeRoundTrip : Obligations.DecodeEncodeRoundTrip := by
  refine ⟨fun _ _ h => PadLayout.bits_lawful h, fun c i rest hl h => ?_⟩
  cases i with
  | blkBegin f => exact decodeFrame_frameBytes .begin h rest
  | blkEnd f => exact decodeFrame_frameBytes .end_ h rest
  | blkParams f => exact decodeFrame_frameBytes .params h rest
  | blkPage f => exact decodeFrame_frameBytes .page h rest
  | blkData f => exact decodeFrame_frameBytes .data h rest
  | blkEndPart f => exact decodeFrame_frameBytes .endPart h rest
  | lhdr present padp tlen =>
    exact congrArg (Decoded.ok · rest) (decodeLhdr_encodeLhdr c.padpBit present padp (of_decide_eq_true h))
  | padhdr p r => rw [Instr.context, encode, decode_padhdr_wordBytes, hl p r]
  | raw fld => exact congrArg (Decoded.ok · rest) (decodeOp_append 0b00#2 fld)
  | tbl fld => exact congrArg (Decoded.ok · rest) (decodeOp_append 0b01#2 fld)
  | rep fld => exact congrArg (Decoded.ok · rest) (decodeOp_append 0b10#2 fld)
  | lrep fld => exact congrArg (Decoded.ok · rest) (decodeOp_append 0b11#2 fld)

/-- Settles O3: an opcode by the quarter it lies in; a frame by O2's soundness, which makes its second byte the code of
a block type. -/
theorem everyOpcodeByteDecodes : Obligations.EveryOpcodeByteDecodes := by
  refine ⟨fun c op rest => congrArg (Decoded.ok · rest) (decodeOp_eq_ranges op),
    fun c f rest => ⟨_, _, _, rfl⟩, fun c bytes i rest h => ?_⟩
  obtain ⟨t, f, rfl⟩ := Instr.eq_instr_of_context (decode_context h)
  obtain ⟨-, rfl⟩ := decodeFrame_sound c h
  exact ⟨t.code, by rw [BlockType.encode_instr]; rfl, BlockType.code_mem t⟩

/-- Settles O4: the decoder run on each of the seven words. -/
theorem specWordsDecode : Obligations.SpecWordsDecode := by
  unfold Obligations.SpecWordsDecode
  decide

/-- The padding length by the residue of the encoded length (R115). -/
theorem padLenFor_cases (n : Nat) : n % 4 = 0 ∧ padLenFor n = 2 ∨ n % 4 = 1 ∧ padLenFor n = 1 ∨
    n % 4 = 2 ∧ padLenFor n = 0 ∨ n % 4 = 3 ∧ padLenFor n = 3 := by
  unfold padLenFor
  omega

/-- Settles O53, by the four residues. -/
theorem paddingFormula : Obligations.PaddingFormula := by
  intro n
  rcases padLenFor_cases n with ⟨hr, hp⟩ | ⟨hr, hp⟩ | ⟨hr, hp⟩ | ⟨hr, hp⟩ <;> omega

end Sys2Proof.Machine

namespace Sys2Proof.Machine

open Sys2Proof

/-! PROOFS. The block framer (R130 to R141): the frame `write_block` emits, what `read_block` does with a whole frame
whose checks pass or fail, tolerant and strict, and the step at the end of the stream. -/

/-! ### The frame `write_block` builds (R131, R141) -/

/-- The length bytes of a header are the two base-256 digits of the payload's length (R8, R91). -/
theorem le16_eq_digits (n : Nat) : le16 n = [BitVec.ofNat 8 (n % 256), BitVec.ofNat 8 (n / 256)] := by
  have hlow : BitVec.ofNat 8 n = BitVec.ofNat 8 (n % 256) := by
    apply BitVec.eq_of_toNat_eq
    simp only [BitVec.toNat_ofNat]
    omega
  rw [le16, hlow]

theorem frameHeader_goodFrame (ty seq : Byte) (payload : List Byte) :
    frameHeader ty (goodFrame ty seq payload) =
      [0x1B, ty, seq, BitVec.ofNat 8 (payload.length % 256), BitVec.ofNat 8 (payload.length / 256), ty ^^^ 0xFF] :=
  congrArg (fun len => [magicByte, ty, seq] ++ len ++ [ty ^^^ 0xFF]) (le16_eq_digits payload.length)

/-- The checksum covers the header and the payload; it is in neither. -/
theorem frameBytes_goodFrame (ty seq : Byte) (payload : List Byte) :
    frameBytes ty (goodFrame ty seq payload) =
      frameHeader ty (goodFrame ty seq payload) ++ payload ++
        [sum8 (frameHeader ty (goodFrame ty seq payload) ++ payload)] := rfl

theorem goodFrame_good (ty seq : Byte) (payload : List Byte) : Frame.good ty (goodFrame ty seq payload) = true := by
  simp [Frame.good, Frame.magicOk, Frame.typeInvOk, Frame.checksumOk, goodFrame, frameHeader]

/-! ### The three checks and their warnings (R136) -/

theorem magicOk_iff {f : Frame} : Frame.magicOk f = true ↔ f.magic = 0x1B := decide_eq_true_iff

theorem typeInvOk_iff {ty : Byte} {f : Frame} : Frame.typeInvOk ty f = true ↔ f.typeInv = ty ^^^ 0xFF :=
  decide_eq_true_iff

theorem checksumOk_iff {ty : Byte} {f : Frame} :
    Frame.checksumOk ty f = true ↔ f.checksum = sum8 (frameHeader ty f ++ f.payload) := decide_eq_true_iff

/-- Whether a frame passes one of the three checks. -/
def Frame.passes (ty : Byte) (f : Frame) : FrameCheck → Bool
  | .magic => Frame.magicOk f
  | .typeInv => Frame.typeInvOk ty f
  | .checksum => Frame.checksumOk ty f

theorem Frame.good_iff {ty : Byte} {f : Frame} : Frame.good ty f = true ↔ ∀ k, Frame.passes ty f k = true := by
  constructor
  · intro h k
    simp only [Frame.good, Bool.and_eq_true] at h
    obtain ⟨⟨hmagic, htype⟩, hsum⟩ := h
    cases k with
    | magic => exact hmagic
    | typeInv => exact htype
    | checksum => exact hsum
  · intro h
    simp only [Frame.good, Bool.and_eq_true]
    exact ⟨⟨h .magic, h .typeInv⟩, h .checksum⟩

theorem checkWarns_of_good {ty : Byte} {f : Frame} (h : Frame.good ty f = true) (ws : Warnings) :
    checkWarns ty f ws = ws := by
  have hmagic : Frame.magicOk f = true := Frame.good_iff.1 h .magic
  have htype : Frame.typeInvOk ty f = true := Frame.good_iff.1 h .typeInv
  have hsum : Frame.checksumOk ty f = true := Frame.good_iff.1 h .checksum
  simp only [checkWarns, hmagic, htype, hsum, warnUnless, if_true]

theorem warnUnless_get_same (ok : Bool) (k : Warning) (ws : Warnings) :
    (warnUnless ok k ws).get k = if ok then ws.get k else (ws.get k).raised := by
  cases ok with
  | true => rfl
  | false => exact (Warnings.raise_get ws k k).trans (if_pos rfl)

theorem warnUnless_get_of_ne {k j : Warning} (h : j ≠ k) (ok : Bool) (ws : Warnings) :
    (warnUnless ok k ws).get j = ws.get j := by
  cases ok with
  | true => rfl
  | false => exact (Warnings.raise_get ws k j).trans (if_neg h)

/-- A check raises its own warning, once, exactly when it fails. -/
theorem checkWarns_get_check (ty : Byte) (f : Frame) (ws : Warnings) (k : FrameCheck) :
    (checkWarns ty f ws).get k.warning =
      if Frame.passes ty f k then ws.get k.warning else (ws.get k.warning).raised := by
  cases k with
  | magic =>
    rw [checkWarns, warnUnless_get_of_ne (by decide), warnUnless_get_of_ne (by decide)]
    exact warnUnless_get_same (Frame.magicOk f) .magic ws
  | typeInv =>
    change _ = if Frame.typeInvOk ty f then ws.get .typeInv else (ws.get .typeInv).raised
    rw [checkWarns, warnUnless_get_of_ne (by decide), FrameCheck.warning, warnUnless_get_same,
      warnUnless_get_of_ne (by decide)]
  | checksum =>
    change _ = if Frame.checksumOk ty f then ws.get .csum else (ws.get .csum).raised
    rw [checkWarns, FrameCheck.warning, warnUnless_get_same, warnUnless_get_of_ne (by decide),
      warnUnless_get_of_ne (by decide)]

/-- No other warning is raised. -/
theorem checkWarns_get_other (ty : Byte) (f : Frame) (ws : Warnings) {j : Warning}
    (h : ∀ k : FrameCheck, j ≠ k.warning) :
    (checkWarns ty f ws).get j = ws.get j := by
  have hmagic : j ≠ .magic := h .magic
  have htype : j ≠ .typeInv := h .typeInv
  have hsum : j ≠ .csum := h .checksum
  rw [checkWarns, warnUnless_get_of_ne hsum, warnUnless_get_of_ne htype, warnUnless_get_of_ne hmagic]

/-! ### A frame whose checks end the run (R137) -/

/-- The first of the three checks that a bad frame fails, in the order of R136. -/
def Frame.firstFailing (ty : Byte) (f : Frame) : FrameCheck :=
  if Frame.magicOk f then if Frame.typeInvOk ty f then .checksum else .typeInv else .magic

theorem firstFailing_eq_magic {ty : Byte} {f : Frame} : Frame.firstFailing ty f = .magic ↔ f.magic ≠ 0x1B := by
  rw [Frame.firstFailing, Ne, ← magicOk_iff]
  cases Frame.magicOk f <;> cases Frame.typeInvOk ty f <;> simp

theorem firstFailing_eq_typeInv {ty : Byte} {f : Frame} :
    Frame.firstFailing ty f = .typeInv ↔ f.magic = 0x1B ∧ f.typeInv ≠ ty ^^^ 0xFF := by
  rw [Frame.firstFailing, Ne, ← magicOk_iff, ← typeInvOk_iff]
  cases Frame.magicOk f <;> cases Frame.typeInvOk ty f <;> simp

/-- `s` with a whole frame read and the warning registers as given; the frame is not dispatched yet. -/
def State.pastFrame (f : Frame) (ws : Warnings) (s : State) : State :=
  { s with ip := s.ip + (7 + f.payload.length), nblk := s.nblk + 1, warns := ws }

theorem State.afterFrame_eq_pastFrame (ty : Byte) (f : Frame) (s : State) :
    s.afterFrame ty f = s.pastFrame f (checkWarns ty f s.warns) := rfl

theorem frameCheck_true (k : FrameCheck) (s : State) : frameCheck k true s = .ok () s := rfl

/-- In strict mode a bad frame raises F_STRICT for its first failing check, whose warning alone is set. -/
theorem acceptFrame_of_bad {ty : Byte} {f : Frame} {s : State} (hs : s.cfg.strict = true)
    (h : Frame.good ty f = false) :
    acceptFrame ty f s =
      .raised ((s.pastFrame f (s.warns.raise (Frame.firstFailing ty f).warning)).raise
        (.strict (Frame.firstFailing ty f))) := by
  unfold acceptFrame validate
  cases hmagic : Frame.magicOk f with
  | false =>
    have hfirst : Frame.firstFailing ty f = .magic := by simp [Frame.firstFailing, hmagic]
    rw [hfirst, frameCheck_strict (by exact hs)]
    rfl
  | true =>
    rw [frameCheck_true, Flow.bind_ok]
    cases htype : Frame.typeInvOk ty f with
    | false =>
      have hfirst : Frame.firstFailing ty f = .typeInv := by simp [Frame.firstFailing, hmagic, htype]
      rw [hfirst, frameCheck_strict (by exact hs)]
      rfl
    | true =>
      have hfirst : Frame.firstFailing ty f = .checksum := by simp [Frame.firstFailing, hmagic, htype]
      have hsum : Frame.checksumOk ty f = false := by simpa [Frame.good, hmagic, htype] using h
      rw [frameCheck_true, Flow.bind_ok, hfirst, hsum, frameCheck_strict (by exact hs)]
      rfl

/-- The one frame that does not reach its handler is a bad one in strict mode. -/
theorem Frame.dispatched_iff {c : Cfg} {ty : Byte} {f : Frame} :
    Frame.dispatched c ty f ↔ ¬ (c.strict = true ∧ Frame.good ty f = false) := by
  unfold Frame.dispatched
  cases c.strict <;> cases Frame.good ty f <;> decide

/-- When `read_block` ends in a fault, that fault is the whole step: no handler runs. -/
theorem exec_instr_of_raised {b : BlockType} {f : Frame} {s t : State} (h : acceptFrame b.code f s = .raised t) :
    exec (b.instr f) s = .next t := by
  have hrun : ∀ handler, runFrame b handler f s = .next t := fun handler => by
    rw [runFrame, h, Flow.bind_raised, Flow.outcome_raised]
  cases b with
  | begin => exact hrun onBegin
  | end_ => exact hrun onEnd
  | params => exact hrun onParams
  | page => exact hrun onPage
  | data => exact hrun onData
  | endPart => exact hrun onEndPart

/-! ### A frame of unknown type (R138) -/

theorem blockTypeOf_eq_none {ty : Byte} (h : ty ∉ ([0x40, 0x41, 0x50, 0x51, 0x52, 0x55] : List Byte)) :
    blockTypeOf ty = none := by
  rcases ht : blockTypeOf ty with _ | t
  · rfl
  · exact absurd (code_of_blockTypeOf ht ▸ BlockType.code_mem t) h

theorem decodeFrame_of_unknownType {ty : Byte} {f : Frame} (hf : f.wf = true) (hty : blockTypeOf ty = none)
    (rest : List Byte) : decodeFrame (frameBytes ty f ++ rest) = .unknownType ty f rest := by
  have hlen : leVal (BitVec.ofNat 8 f.payload.length) (BitVec.ofNat 8 (f.payload.length / 256)) = f.payload.length :=
    leVal_le16 (of_decide_eq_true hf)
  simp [frameBytes, frameHeader, le16, decodeFrame, hlen, hty]

/-- In context FRAME a step is what the decoder reads of IN at `ip`. -/
theorem step_of_frame {s : State} (hr : s.runState = .run) (hd : s.cfg.dir = .decode) (hc : s.ctx = .frame) :
    step s = decodeOne s := by
  rw [step_of_decode hr hd, decodeStep_of_ctx_ne (by simp [hc])]

theorem step_of_unknownType {s : State} {ty : Byte} {f : Frame} {rest : List Byte} (hr : s.runState = .run)
    (hd : s.cfg.dir = .decode) (hc : s.ctx = .frame) (h : fetch s = .unknownType ty f rest) :
    step s = Flow.outcome (acceptUnknown ty f s) := by
  simp only [step_of_frame hr hd hc, decodeOne, h]

/-- A run-fatal fault at a whole frame: FPOS is past the frame, FBLK the frame's index (R283, R285). -/
theorem State.pastFrame_raise {s : State} (hr : s.runState = .run) (hd : s.cfg.dir = .decode) (hc : s.ctx = .frame)
    (f : Frame) (ws : Warnings) {t : Trap} (ht : t.runFatal = true) :
    (s.pastFrame f ws).raise t =
      { s.pastFrame f ws with
        fcode := t.code
        finfo := some t
        fpos := .decode (s.ip + (7 + f.payload.length)) none
        fblk := s.nblk
        runState := .halt
        exit := .nonzero } := by
  simp [State.raise, State.recordFault, State.faultPos, State.pastFrame, hr, hd, hc, ht]

/-! ### The end of the stream (R134, R135, R251) -/

theorem Memory.readPadded_eq_map (m : Memory) (a n : Nat) :
    m.readPadded a n = (List.range n).map fun i => (m.read (a + i)).getD 0 := by
  induction n generalizing a with
  | zero => rfl
  | succ n ih =>
    rw [Memory.readPadded, ih, List.range_succ_eq_map, List.map_cons, List.map_map]
    simp [Function.comp_def, Nat.add_comm 1, Nat.add_assoc]

/-- The flush units a residue makes: one when RESIDUAL_FLUSH is set, else none (R251, R13). -/
def State.residueUnits (s : State) : List FlushUnit :=
  if s.accPos ≠ 0 ∧ s.cfg.residualFlush = true then
    [{ chan := s.chan, bytes := (List.range (2 * s.w)).map fun a => (s.acc.read a).getD 0 }]
  else []

theorem finish_eq (s : State) :
    finish s = { s with
      runState := .done
      warns := if s.accPos = 0 then s.warns else s.warns.raise .residual
      sink := s.sink ++ s.residueUnits } := by
  by_cases hpos : s.accPos = 0
  · simp [finish, residue, State.residueUnits, hpos]
  · by_cases hflush : s.cfg.residualFlush = true
    · simp [finish, residue, State.residueUnits, hpos, hflush, Memory.readPadded_eq_map, State.warn]
    · simp [finish, residue, State.residueUnits, hpos, hflush, State.warn]

theorem truncatedFrame_eq (s : State) :
    truncatedFrame s = { s with
      runState := .done
      ip := s.inp.length
      warns := if s.accPos = 0 then s.warns.raise .trunc else (s.warns.raise .trunc).raise .residual
      sink := s.sink ++ s.residueUnits } :=
  finish_eq { s.warn .trunc with ip := s.inp.length }

/-- Fewer bytes than the header, or than the whole frame that its length bytes name, are no frame. -/
theorem decodeFrame_of_short {bytes : List Byte} (hne : bytes ≠ [])
    (h : bytes.length < 6 ∨ bytes.length < 7 + leVal (bytes.getD 3 0) (bytes.getD 4 0)) :
    decodeFrame bytes = .truncated := by
  unfold decodeFrame
  split
  · exact absurd rfl hne
  · next magic ty seq lo hi inv body =>
    have hbody : body.length ≤ leVal lo hi := by
      simp only [List.length_cons, List.getD_cons_succ, List.getD_cons_zero] at h
      omega
    rw [List.drop_eq_nil_of_le hbody]
  · rfl

theorem step_of_no_byte {s : State} (hr : s.runState = .run) (hd : s.cfg.dir = .decode) (hc : s.ctx = .frame)
    (h : s.inp.length ≤ s.ip) : step s = .next (finish s) := by
  have hfetch : fetch s = .endOfStream := by rw [fetch_frame hc, List.drop_eq_nil_of_le h]; rfl
  simp only [step_of_frame hr hd hc, decodeOne, hfetch, atEnd, hc, if_true]

theorem step_of_partial_frame {s : State} (hr : s.runState = .run) (hd : s.cfg.dir = .decode) (hc : s.ctx = .frame)
    (hip : s.ip < s.inp.length)
    (h : s.inp.length - s.ip < 6 ∨
      s.inp.length - s.ip < 7 + leVal (s.inp.getD (s.ip + 3) 0) (s.inp.getD (s.ip + 4) 0)) :
    step s = .next (truncatedFrame s) := by
  have hfetch : fetch s = .truncated := by
    rw [fetch_frame hc]
    refine decodeFrame_of_short (fun hnil => ?_) ?_
    · have := List.drop_eq_nil_iff.1 hnil
      omega
    · simpa [List.getD_eq_getElem?_getD] using h
  simp only [step_of_frame hr hd hc, decodeOne, hfetch, atTruncation, hc, if_true]

/-! ### The statements -/

/-- Settles O6: the two outcomes of `write_block`, the first with its frame written out. -/
theorem writeBlockEmitsTheFrame : Obligations.WriteBlockEmitsTheFrame := by
  refine ⟨fun s ty q payload hlen hq => ?_, fun s ty payload hlen hr => ?_⟩
  · rcases writeBlock_cases ty payload s with ⟨-, e⟩ | ⟨hlong, -⟩
    · have hcarried : s.carriedSeq = q := hq.symm
      rw [e, hcarried, frameBytes_goodFrame, frameHeader_goodFrame]
    · exact absurd hlen (Nat.not_le.2 hlong)
  · rcases writeBlock_cases ty payload s with ⟨hshort, -⟩ | ⟨-, e⟩
    · exact absurd hlen (Nat.not_lt.2 hshort)
    · obtain ⟨blk, hraise⟩ := State.raise_of_runFatal (t := .encPayload payload.length) hr rfl
      exact ⟨_, e.trans (congrArg Flow.raised hraise), rfl, rfl, rfl, rfl, rfl, rfl⟩

/-- Settles O7: the frame decodes by the round trip of its encoding, and passes its own checks. -/
theorem emittedFrameReadsBack : Obligations.EmittedFrameReadsBack := by
  intro t seq payload rest s hlen
  have hgood := goodFrame_good t.code seq payload
  refine ⟨?_, decodeFrame_frameBytes t (decide_eq_true hlen) rest, ?_⟩
  · rw [frameBytes_goodFrame, List.getLast?_concat, List.dropLast_concat]
  · rw [acceptFrame_ok (.inr hgood), State.afterFrame, checkWarns_of_good hgood]
    rfl

/-- Settles O8: each of the nine registers after the three checks, none of which ends the step. -/
theorem tolerantChecksOnlyWarn : Obligations.TolerantChecksOnlyWarn := by
  intro s ty f hs
  have hcheck := checkWarns_get_check ty f s.warns
  have hother : ∀ {j : Warning}, (∀ k : FrameCheck, j ≠ k.warning) →
      (checkWarns ty f s.warns).get j = s.warns.get j := checkWarns_get_other ty f s.warns
  refine ⟨checkWarns ty f s.warns, acceptFrame_ok (.inl hs), (hcheck .magic).trans (if_congr magicOk_iff rfl rfl),
    (hcheck .typeInv).trans (if_congr typeInvOk_iff rfl rfl),
    (hcheck .checksum).trans (if_congr checksumOk_iff rfl rfl), hother (j := .lineFlag) ?_,
    hother (j := .pad) ?_, hother (j := .model) ?_, hother (j := .trunc) ?_, hother (j := .trailing) ?_,
    hother (j := .residual) ?_⟩
  all_goals exact fun k => by cases k <;> simp [FrameCheck.warning]

/-- Settles O9: `read_block` raises F_STRICT for the first failing check, and that is the step of each of the six
instructions. -/
theorem strictCheckHaltsTheRun : Obligations.StrictCheckHaltsTheRun := by
  intro s b f hs hr hbad
  obtain ⟨blk, hraise⟩ := State.raise_of_runFatal (t := .strict (Frame.firstFailing b.code f))
    (s := s.pastFrame f (s.warns.raise (Frame.firstFailing b.code f).warning)) hr rfl
  have hstep := exec_instr_of_raised (acceptFrame_of_bad hs hbad)
  rw [hraise] at hstep
  exact ⟨_, _, hstep, firstFailing_eq_magic, firstFailing_eq_typeInv, rfl, rfl, rfl, rfl, rfl, rfl, rfl, rfl, rfl,
    rfl, rfl, rfl, rfl, rfl, rfl, rfl, rfl, rfl⟩

/-- Settles O10: the frame is read and validated; F_UNKNOWN_TYPE follows when it passes, and F_STRICT stands in its
place when a strict check fails. -/
theorem unknownTypeHaltsTheRun : Obligations.UnknownTypeHaltsTheRun := by
  intro s ty f rest hr hd hc hf hwindow hty
  have hfetch : fetch s = .unknownType ty f rest := by
    rw [fetch, hc, hwindow]
    exact decodeFrame_of_unknownType hf (blockTypeOf_eq_none hty) rest
  have hstep := step_of_unknownType hr hd hc hfetch
  by_cases hok : Frame.dispatched s.cfg ty f
  · rw [acceptUnknown, acceptFrame_ok hok, Flow.bind_ok, Flow.trap_eq, Flow.outcome_raised,
      State.afterFrame_eq_pastFrame, State.pastFrame_raise hr hd hc f _ rfl] at hstep
    exact ⟨_, hstep, rfl, rfl, rfl, rfl, rfl, rfl, rfl, rfl, rfl, rfl, rfl, fun _ => ⟨rfl, rfl, rfl⟩,
      fun hstrict hbad => absurd ⟨hstrict, hbad⟩ (Frame.dispatched_iff.1 hok)⟩
  · obtain ⟨hstrict, hbad⟩ := not_not.1 (mt Frame.dispatched_iff.2 hok)
    rw [acceptUnknown, acceptFrame_of_bad hstrict hbad, Flow.bind_raised, Flow.outcome_raised,
      State.pastFrame_raise hr hd hc f _ rfl] at hstep
    exact ⟨_, hstep, rfl, rfl, rfl, rfl, rfl, rfl, rfl, rfl, rfl, rfl, rfl, fun h => absurd h hok,
      fun _ _ => ⟨_, firstFailing_eq_magic, firstFailing_eq_typeInv, rfl, rfl, rfl⟩⟩

/-- Settles O11: the step is `Finish` when no byte is left, and W_TRUNC before it when a frame is cut short. -/
theorem endOfStreamIsDone : Obligations.EndOfStreamIsDone := by
  intro s units hr hd hc hunits
  have hunits : units = s.residueUnits := hunits
  subst hunits
  exact ⟨fun h => by rw [step_of_no_byte hr hd hc h, finish_eq],
    fun hip h => by rw [step_of_partial_frame hr hd hc hip h, truncatedFrame_eq]⟩

end Sys2Proof.Machine

namespace Sys2Proof.Machine

/-! PROOFS. The line encoder (R160 to R173): the runs of a line, its RAW chunks, its repeats, when it has a stream, and
how long that is. -/

/-! ### Runs (R163) -/

/-- The bytes that runs stand for. -/
def expandRuns (rs : List (Byte × Nat)) : List Byte := rs.flatMap fun r => List.replicate r.2 r.1

@[simp] theorem expandRuns_nil : expandRuns [] = [] := rfl

@[simp] theorem expandRuns_cons (v : Byte) (n : Nat) (rs : List (Byte × Nat)) :
    expandRuns ((v, n) :: rs) = List.replicate n v ++ expandRuns rs := rfl

/-- A byte before a line is a run of its own, or lengthens the line's first run. -/
theorem runsOf_cons_cases (b : Byte) (bs : List Byte) :
    (runsOf bs = [] ∧ runsOf (b :: bs) = [(b, 1)]) ∨
    (∃ n rs, runsOf bs = (b, n) :: rs ∧ runsOf (b :: bs) = (b, n + 1) :: rs) ∨
    ∃ v n rs, v ≠ b ∧ runsOf bs = (v, n) :: rs ∧ runsOf (b :: bs) = (b, 1) :: (v, n) :: rs := by
  rw [runsOf]
  cases h : runsOf bs with
  | nil => exact .inl ⟨rfl, rfl⟩
  | cons r rs =>
    obtain ⟨v, n⟩ := r
    by_cases hv : v = b
    · subst hv
      exact .inr (.inl ⟨n, rs, rfl, if_pos rfl⟩)
    · exact .inr (.inr ⟨v, n, rs, hv, rfl, if_neg hv⟩)

/-- The first run is of the line's first byte. -/
theorem runsOf_head? (line : List Byte) : (runsOf line).head?.map Prod.fst = line.head? := by
  cases line with
  | nil => rfl
  | cons b bs =>
    rcases runsOf_cons_cases b bs with ⟨-, e⟩ | ⟨n, rs, -, e⟩ | ⟨v, n, rs, -, -, e⟩ <;> rw [e] <;> rfl

theorem expandRuns_runsOf (line : List Byte) : expandRuns (runsOf line) = line := by
  induction line with
  | nil => rfl
  | cons b bs ih =>
    rcases runsOf_cons_cases b bs with ⟨h, e⟩ | ⟨n, rs, h, e⟩ | ⟨v, n, rs, -, h, e⟩ <;> rw [e] <;> rw [h] at ih
    · simp [← ih]
    · simp [← ih, List.replicate_succ]
    · simp [← ih]

theorem runsOf_pos (line : List Byte) : ∀ r ∈ runsOf line, 1 ≤ r.2 := by
  induction line with
  | nil => simp [runsOf]
  | cons b bs ih =>
    rcases runsOf_cons_cases b bs with ⟨h, e⟩ | ⟨n, rs, h, e⟩ | ⟨v, n, rs, -, h, e⟩ <;> rw [e] <;> rw [h] at ih
    · simp
    · simpa using fun x m hx => ih (x, m) (List.mem_cons_of_mem _ hx)
    · simpa using ih

theorem runsOf_isChain (line : List Byte) : (runsOf line).IsChain fun r q => r.1 ≠ q.1 := by
  induction line with
  | nil => simp [runsOf]
  | cons b bs ih =>
    rcases runsOf_cons_cases b bs with ⟨h, e⟩ | ⟨n, rs, h, e⟩ | ⟨v, n, rs, hv, h, e⟩ <;> rw [e] <;> rw [h] at ih
    · exact .singleton _
    · cases rs with
      | nil => exact .singleton _
      | cons q rs => simpa using ih
    · exact .cons_cons (Ne.symm hv) ih

/-- Settles O47, by induction on the line. -/
theorem runsAreMaximal : Obligations.RunsAreMaximal :=
  fun line => ⟨expandRuns_runsOf line, runsOf_pos line, runsOf_isChain line⟩

/-- A run of its own before the runs of a line that begins otherwise. -/
theorem runsOf_cons_of_ne {b : Byte} {bs : List Byte} (h : bs.head? ≠ some b) :
    runsOf (b :: bs) = (b, 1) :: runsOf bs := by
  have hhead := runsOf_head? bs
  rcases runsOf_cons_cases b bs with ⟨h0, e⟩ | ⟨n, rs, h0, -⟩ | ⟨v, n, rs, -, h0, e⟩
  · rw [e, h0]
  · rw [h0] at hhead
    exact absurd hhead.symm h
  · rw [e, h0]

/-- What a byte before a line does to its runs, it does to the first of them. -/
theorem runsOf_cons_append {b : Byte} {xs zs : List Byte} {rs : List (Byte × Nat)} (hne : xs ≠ [])
    (h : runsOf zs = runsOf xs ++ rs) : runsOf (b :: zs) = runsOf (b :: xs) ++ rs := by
  have hhead := runsOf_head? xs
  rw [runsOf, runsOf, h]
  cases hxs : runsOf xs with
  | nil => rw [hxs] at hhead; exact absurd (List.head?_eq_none_iff.1 hhead.symm) hne
  | cons r qs => simp only [List.cons_append]; split <;> rfl

/-- Lines between which the byte changes have their runs side by side. -/
theorem runsOf_append {xs ys : List Byte} (h : ∀ b, xs.getLast? = some b → ys.head? ≠ some b) :
    runsOf (xs ++ ys) = runsOf xs ++ runsOf ys := by
  induction xs with
  | nil => rfl
  | cons b bs ih =>
    cases bs with
    | nil => exact runsOf_cons_of_ne (h b rfl)
    | cons c cs =>
      exact runsOf_cons_append (List.cons_ne_nil c cs)
        (ih fun x hx => h x (by rw [List.getLast?_cons_cons]; exact hx))

theorem runsOf_replicate (n : Nat) (v : Byte) : runsOf (List.replicate (n + 1) v) = [(v, n + 1)] := by
  induction n with
  | zero => rfl
  | succ n ih => rw [List.replicate_succ, runsOf, ih]; exact if_pos rfl

/-- A maximal run is one of the runs of its line. -/
theorem runsOf_append_replicate_append {pre post : List Byte} {v : Byte} {n : Nat} (hn : 0 < n)
    (hpre : pre.getLast? ≠ some v) (hpost : post.head? ≠ some v) :
    runsOf (pre ++ List.replicate n v ++ post) = runsOf pre ++ (v, n) :: runsOf post := by
  obtain ⟨n, rfl⟩ := Nat.exists_eq_add_one.2 hn
  rw [List.append_assoc, runsOf_append, runsOf_append, runsOf_replicate]
  · rfl
  · intro b hb
    rw [List.getLast?_replicate, if_neg (by omega)] at hb
    cases hb
    exact hpost
  · intro b hb
    rw [List.replicate_succ, List.cons_append, List.head?_cons]
    exact fun e => hpre (hb.trans e.symm)

/-! ### RAW chunks (R165) -/

/-- The first RAW chunk of literals: its opcode and its bytes. -/
def rawChunk (lit : List Byte) : List Byte := BitVec.ofNat 8 (min 64 lit.length - 1) :: lit.take 64

@[simp] theorem rawChunk_length (lit : List Byte) : (rawChunk lit).length = min 64 lit.length + 1 := by
  simp [rawChunk]

theorem rawChunksUpTo_succ (k : Nat) {lit : List Byte} (h : lit ≠ []) :
    rawChunksUpTo (k + 1) lit = rawChunk lit ++ rawChunksUpTo k (lit.drop 64) := by
  have htake : lit.take (min 64 lit.length) = lit.take 64 := (List.take_eq_take_min ..).symm
  have hdrop : lit.drop (min 64 lit.length) = lit.drop 64 := by
    rcases Nat.le_total 64 lit.length with hle | hle
    · rw [Nat.min_eq_left hle]
    · rw [Nat.min_eq_right hle, List.drop_length, List.drop_eq_nil_of_le hle]
  have hempty : lit.isEmpty ≠ true := by simpa using h
  simp only [rawChunksUpTo, if_neg hempty, htake, hdrop, rawChunk, List.cons_append, List.nil_append]

/-- The chunk count is only a bound: any that the literals do not exceed gives the same chunks. -/
theorem rawChunksUpTo_eq_rawChunks {k : Nat} {lit : List Byte} (h : lit.length ≤ k) :
    rawChunksUpTo k lit = rawChunks lit := by
  have hfuel : ∀ k j (lit : List Byte), lit.length ≤ k → lit.length ≤ j →
      rawChunksUpTo k lit = rawChunksUpTo j lit := by
    intro k
    induction k with
    | zero =>
      intro j lit hk _
      rw [List.eq_nil_of_length_eq_zero (Nat.le_zero.1 hk)]
      cases j <;> rfl
    | succ k ih =>
      intro j lit hk hj
      rcases eq_or_ne lit [] with rfl | hne
      · cases j <;> rfl
      · have hpos := List.length_pos_of_ne_nil hne
        obtain ⟨j, rfl⟩ := Nat.exists_eq_add_one.2 (Nat.lt_of_lt_of_le hpos hj)
        rw [rawChunksUpTo_succ k hne, rawChunksUpTo_succ j hne, ih j] <;> rw [List.length_drop] <;> omega
  exact hfuel k lit.length lit h (Nat.le_refl _)

@[simp] theorem rawChunks_nil : rawChunks [] = [] := rfl

/-- The first chunk, and the chunks of the literals after it. -/
theorem rawChunks_of_ne_nil {lit : List Byte} (h : lit ≠ []) :
    rawChunks lit = rawChunk lit ++ rawChunks (lit.drop 64) := by
  have hpos := List.length_pos_of_ne_nil h
  obtain ⟨k, hk⟩ := Nat.exists_eq_add_one.2 hpos
  rw [rawChunks, hk, rawChunksUpTo_succ k h, rawChunksUpTo_eq_rawChunks (by rw [List.length_drop]; omega)]

/-- Induction over the chunks of literals. -/
theorem rawChunks_induction {P : List Byte → Prop} (nil : P []) (chunk : ∀ lit, lit ≠ [] → P (lit.drop 64) → P lit)
    (lit : List Byte) : P lit := by
  induction h : lit.length using Nat.strong_induction_on generalizing lit with
  | _ n ih =>
    rcases eq_or_ne lit [] with rfl | hne
    · exact nil
    · have hpos := List.length_pos_of_ne_nil hne
      exact chunk lit hne (ih _ (by rw [List.length_drop]; omega) _ rfl)

theorem rawChunks_length (lit : List Byte) : (rawChunks lit).length = lit.length + (lit.length + 63) / 64 := by
  induction lit using rawChunks_induction with
  | nil => rfl
  | chunk lit hne ih =>
    have hpos := List.length_pos_of_ne_nil hne
    rw [rawChunks_of_ne_nil hne, List.length_append, ih, rawChunk_length, List.length_drop]
    omega

/-- Every chunk before the last one is 65 bytes long, so chunk k of the literals is the first one past 64k of them. -/
theorem rawChunks_drop {k : Nat} {lit : List Byte} (h : 64 * k < lit.length) :
    (rawChunks lit).drop (65 * k) = rawChunks (lit.drop (64 * k)) := by
  induction k generalizing lit with
  | zero => simp
  | succ k ih =>
    have hne : lit ≠ [] := List.ne_nil_of_length_pos (by omega)
    have hlen : 65 * (k + 1) = (rawChunk lit).length + 65 * k := by rw [rawChunk_length]; omega
    rw [rawChunks_of_ne_nil hne, hlen, List.drop_length_add_append, ih (by rw [List.length_drop]; omega),
      List.drop_drop, Nat.mul_succ, Nat.add_comm 64]

/-- Settles O48: chunk k is the first chunk of what follows 64k literals. -/
theorem rawChunksAreFullButTheLast : Obligations.RawChunksAreFullButTheLast := by
  refine fun lit => ⟨rawChunks_length lit, fun k hk => ?_⟩
  have hne : lit.drop (64 * k) ≠ [] := fun h => by have := List.drop_eq_nil_iff.1 h; omega
  have hget (j : Nat) (hj : j < min 64 (lit.length - 64 * k) + 1) :
      (rawChunks lit)[65 * k + j]? = (rawChunk (lit.drop (64 * k)))[j]? := by
    rw [← List.getElem?_drop, rawChunks_drop hk, rawChunks_of_ne_nil hne, List.getElem?_append_left]
    simpa using hj
  refine ⟨?_, fun j hj => ?_⟩
  · rw [← Nat.add_zero (65 * k), hget 0 (Nat.succ_pos _)]
    simp [rawChunk]
  · rw [Nat.add_assoc, Nat.add_comm 1 j, hget (j + 1) (by omega), rawChunk, List.getElem?_cons_succ,
      List.getElem?_take_of_lt (by omega), List.getElem?_drop]

/-! ### Repeats (R166, R167) -/

section
variable {n : Nat} (v : Byte)

theorem repeatOps_of_lt_64 (h0 : 0 < n) (h : n < 64) : repeatOps n v = some [0x80 ||| BitVec.ofNat 8 n, v] := by
  have hbig : ¬ 4096 ≤ n := by omega
  have hlong : ¬ 64 ≤ n := by omega
  simp [repeatOps, hbig, hlong, h0]

theorem repeatOps_of_lt_4096 (h0 : 64 ≤ n) (h : n < 4096) : repeatOps n v =
    some ([0xC0 ||| BitVec.ofNat 8 (n / 64), v] ++
      if n % 64 = 0 then [] else [0x80 ||| BitVec.ofNat 8 (n % 64), v]) := by
  have hbig : ¬ 4096 ≤ n := by omega
  simp [repeatOps, hbig, h0, Nat.pos_iff_ne_zero]

theorem repeatOps_of_lt_8192 (h0 : 4096 ≤ n) (h : n < 8192) : repeatOps n v =
    some ([0xE0, v, 0xE0, v] ++
      (if n - 4096 < 64 then [] else [0xC0 ||| BitVec.ofNat 8 ((n - 4096) / 64), v]) ++
      if (n - 4096) % 64 = 0 then [] else [0x80 ||| BitVec.ofNat 8 (n % 64), v]) := by
  have hrest : ¬ 4096 ≤ n - 4096 := by omega
  have hmod : n % 64 = (n - 4096) % 64 := by omega
  rcases Nat.lt_or_ge (n - 4096) 64 with hlt | hge
  · have hlong : ¬ 64 ≤ n - 4096 := by omega
    have hpos : 0 < n - 4096 ↔ ¬ n - 4096 = 0 := Nat.pos_iff_ne_zero
    simp only [repeatOps, h0, hrest, hlong, hlt, hpos, hmod, Nat.mod_eq_of_lt hlt, if_true, if_false, ite_not]
  · have hshort : ¬ n - 4096 < 64 := by omega
    simp [repeatOps, h0, hrest, hge, hshort, hmod, Nat.pos_iff_ne_zero]

theorem repeatOps_of_ge_8192 (h : 8192 ≤ n) : repeatOps n v = none := by
  have hbig : 4096 ≤ n := by omega
  have hrest : 4096 ≤ n - 4096 := by omega
  simp [repeatOps, hbig, hrest]

theorem repeatOps_isSome_iff : (repeatOps n v).isSome = true ↔ n < 8192 := by
  have hbound : 4096 ≤ (if 4096 ≤ n then n - 4096 else n) ↔ 8192 ≤ n := by split <;> omega
  simp only [repeatOps, hbound]
  split <;> simp <;> omega

/-- The repeats of a run of 3 or more are shorter than the run. -/
theorem repeatOps_length_lt {ops : List Byte} (h3 : 3 ≤ n) (h : repeatOps n v = some ops) : ops.length < n := by
  rcases Nat.lt_or_ge n 64 with h64 | h64
  · rw [repeatOps_of_lt_64 v (by omega) h64] at h
    cases h
    exact h3
  rcases Nat.lt_or_ge n 4096 with h4096 | h4096
  · rw [repeatOps_of_lt_4096 v h64 h4096] at h
    cases h
    split <;> simp <;> omega
  rcases Nat.lt_or_ge n 8192 with h8192 | h8192
  · rw [repeatOps_of_lt_8192 v h4096 h8192] at h
    cases h
    split <;> split <;> simp <;> omega
  · rw [repeatOps_of_ge_8192 v h8192] at h
    cases h

end

/-! ### The pass over the runs (R162, R164) -/

/-- Runs that all have an encoding (R167). -/
def Encodable (rs : List (Byte × Nat)) : Prop := ∀ r ∈ rs, r.2 < 8192

theorem encodable_cons {r : Byte × Nat} {rs : List (Byte × Nat)} : Encodable (r :: rs) ↔ r.2 < 8192 ∧ Encodable rs :=
  List.forall_mem_cons

/-- The opcodes that `codeRuns` gives for encodable runs (`codeRuns_of_encodable`). -/
def lineOps : List (Byte × Nat) → List Byte → List Byte
  | [], lit => rawChunks lit
  | (v, n) :: rs, lit =>
    if 3 ≤ n then rawChunks lit ++ (repeatOps n v).getD [] ++ lineOps rs []
    else lineOps rs (lit ++ List.replicate n v)

theorem lineOps_cons_of_repeat {n : Nat} {v : Byte} {ops : List Byte} (hn : 3 ≤ n) (hops : repeatOps n v = some ops)
    (rs : List (Byte × Nat)) (lit : List Byte) :
    lineOps ((v, n) :: rs) lit = rawChunks lit ++ ops ++ lineOps rs [] := by
  rw [lineOps, if_pos hn, hops, Option.getD_some]

theorem lineOps_cons_of_short {n : Nat} (v : Byte) (hn : n < 3) (rs : List (Byte × Nat)) (lit : List Byte) :
    lineOps ((v, n) :: rs) lit = lineOps rs (lit ++ List.replicate n v) := by
  rw [lineOps, if_neg (Nat.not_le.2 hn)]

/-- Short runs are literals before what follows. -/
theorem lineOps_append_of_short {qs : List (Byte × Nat)} (h : ∀ r ∈ qs, r.2 < 3) (rs : List (Byte × Nat))
    (lit : List Byte) : lineOps (qs ++ rs) lit = lineOps rs (lit ++ expandRuns qs) := by
  induction qs generalizing lit with
  | nil => simp
  | cons q qs ih =>
    obtain ⟨v, n⟩ := q
    obtain ⟨hn, h⟩ := List.forall_mem_cons.1 h
    rw [List.cons_append, lineOps_cons_of_short v hn, ih h, expandRuns_cons, List.append_assoc]

theorem exists_repeatOps {n : Nat} (v : Byte) (h : n < 8192) : ∃ ops, repeatOps n v = some ops :=
  Option.isSome_iff_exists.1 ((repeatOps_isSome_iff v).2 h)

theorem codeRuns_of_encodable {rs : List (Byte × Nat)} (h : Encodable rs) (lit : List Byte) (i : Nat) :
    codeRuns rs lit i = .stream (lineOps rs lit) := by
  induction rs generalizing lit i with
  | nil => rfl
  | cons r rs ih =>
    obtain ⟨v, n⟩ := r
    obtain ⟨hn, h⟩ := encodable_cons.1 h
    obtain ⟨ops, hops⟩ := exists_repeatOps v hn
    rcases Nat.lt_or_ge n 3 with h3 | h3
    · rw [codeRuns, if_neg (Nat.not_le.2 h3), ih h, lineOps_cons_of_short v h3]
    · simp only [codeRuns, if_pos h3, hops, ih h, lineOps_cons_of_repeat h3 hops]

/-- The pass ends at the first run without an encoding. -/
theorem codeRuns_of_long {qs : List (Byte × Nat)} (h : Encodable qs) {n : Nat} (hn : 8192 ≤ n) (v : Byte)
    (rs : List (Byte × Nat)) (lit : List Byte) (i : Nat) :
    ∃ j, codeRuns (qs ++ (v, n) :: rs) lit i = .fail (.encRun n) j := by
  induction qs generalizing lit i with
  | nil =>
    have h3 : 3 ≤ n := by omega
    exact ⟨i, by simp [codeRuns, h3, repeatOps_of_ge_8192 v hn]⟩
  | cons q qs ih =>
    obtain ⟨u, k⟩ := q
    obtain ⟨hk, h⟩ := encodable_cons.1 h
    obtain ⟨ops, hops⟩ := exists_repeatOps u hk
    rcases Nat.lt_or_ge k 3 with h3 | h3
    · obtain ⟨j, hj⟩ := ih h (lit ++ List.replicate k u) (i + k)
      exact ⟨j, by rw [List.cons_append, codeRuns, if_neg (Nat.not_le.2 h3), hj]⟩
    · obtain ⟨j, hj⟩ := ih h [] (i + k)
      exact ⟨j, by simp only [List.cons_append, codeRuns, if_pos h3, hops, hj]⟩

/-- Runs are encodable, or there is a first one that is not. -/
theorem encodable_or_first_long (rs : List (Byte × Nat)) :
    Encodable rs ∨ ∃ qs v n ps, rs = qs ++ (v, n) :: ps ∧ Encodable qs ∧ 8192 ≤ n := by
  induction rs with
  | nil => exact .inl (by simp [Encodable])
  | cons r rs ih =>
    obtain ⟨v, n⟩ := r
    rcases Nat.lt_or_ge n 8192 with hn | hn
    · rcases ih with h | ⟨qs, u, k, ps, rfl, h, hk⟩
      · exact .inl (encodable_cons.2 ⟨hn, h⟩)
      · exact .inr ⟨(v, n) :: qs, u, k, ps, rfl, encodable_cons.2 ⟨hn, h⟩, hk⟩
    · exact .inr ⟨[], v, n, rs, rfl, by simp [Encodable], hn⟩

/-- R172's bound before the header byte: a chunk's opcode for each 64 literals, and a repeat saves a byte, which pays
for the short chunk before it. -/
theorem lineOps_length_le {rs : List (Byte × Nat)} (h : Encodable rs) (lit : List Byte) :
    (lineOps rs lit).length ≤
      (lit ++ expandRuns rs).length + ((lit ++ expandRuns rs).length + 63) / 64 := by
  induction rs generalizing lit with
  | nil => simpa [lineOps] using (rawChunks_length lit).le
  | cons r rs ih =>
    obtain ⟨v, n⟩ := r
    obtain ⟨hn, h⟩ := encodable_cons.1 h
    obtain ⟨ops, hops⟩ := exists_repeatOps v hn
    rcases Nat.lt_or_ge n 3 with h3 | h3
    · rw [lineOps_cons_of_short v h3, expandRuns_cons, ← List.append_assoc]
      exact ih h _
    · have hlen := repeatOps_length_lt v h3 hops
      have hrest := ih h []
      rw [lineOps_cons_of_repeat h3 hops]
      simp only [List.length_append, rawChunks_length, expandRuns_cons, List.length_replicate, List.nil_append]
        at hrest ⊢
      omega

/-! ### The stream of a line (R162, R168, R170) -/

/-- The row length of R99, or of R13 under ROWLEN_MODE = UNPADDED. -/
theorem rowLenFor_eq (mode : RowLenMode) (n : Nat) :
    rowLenFor mode n = if mode = .total then n + 2 + padLenFor n else n := by cases mode <;> rfl

theorem padLenFor_lt (n : Nat) : padLenFor n < 4 := (paddingFormula n).1

/-- The padded stream of the body 0x80 and `ops` (R170). -/
def paddedStream (c : Cfg) (ops : List Byte) : List Byte :=
  [0x80 ||| BitVec.twoPow 8 c.padpBit.index] ++
    wordBytes (c.padLayout.pack (BitVec.ofNat 2 (padLenFor (ops.length + 1)))
      (BitVec.ofNat 14 (rowLenFor c.rowLenMode (ops.length + 1)))) ++
    List.replicate (padLenFor (ops.length + 1)) 0xFF ++ ops

theorem paddedStream_length (c : Cfg) (ops : List Byte) :
    (paddedStream c ops).length = ops.length + 3 + padLenFor (ops.length + 1) := by
  simp [paddedStream, wordBytes]
  omega

theorem padStream_of_le {c : Cfg} {ops : List Byte} (h : rowLenFor c.rowLenMode (ops.length + 1) ≤ 16383) (L : Nat) :
    padStream c 0x80 ops L = .stream (paddedStream c ops) := by
  simp only [padStream, Nat.add_comm 1, if_neg (Nat.not_lt.2 h), paddedStream]

theorem padStream_of_gt {c : Cfg} {ops : List Byte} (h : 16383 < rowLenFor c.rowLenMode (ops.length + 1)) (L : Nat) :
    padStream c 0x80 ops L = .fail (.encRowLen (rowLenFor c.rowLenMode (ops.length + 1))) L := by
  simp only [padStream, Nat.add_comm 1, if_pos h]

section
variable {line : List Byte} (c : Cfg)

theorem encodeLine_of_ne_m3 (h : Encodable (runsOf line)) {m : Model} (hm : m ≠ .m3) :
    encodeLine c m line = .stream (0x80 :: lineOps (runsOf line) []) := by
  simp only [encodeLine, codeRuns_of_encodable h, if_neg hm]

theorem encodeLine_m3 (h : Encodable (runsOf line)) :
    encodeLine c .m3 line = padStream c 0x80 (lineOps (runsOf line) []) line.length := by
  simp only [encodeLine, codeRuns_of_encodable h, if_true]

/-- F_ENC_RUN is for runs without an encoding alone: padding raises another fault. -/
theorem encodeLine_ne_encRun (h : Encodable (runsOf line)) (m : Model) (n i : Nat) :
    encodeLine c m line ≠ .fail (.encRun n) i := by
  by_cases hm : m = .m3
  · subst hm
    rw [encodeLine_m3 c h]
    rcases Nat.lt_or_ge 16383 (rowLenFor c.rowLenMode ((lineOps (runsOf line) []).length + 1)) with hgt | hle
    · rw [padStream_of_gt hgt]; simp
    · rw [padStream_of_le hle]; simp
  · simp [encodeLine_of_ne_m3 c h hm]

theorem encodeLine_of_long (m : Model) {qs ps : List (Byte × Nat)} {v : Byte} {n : Nat}
    (hline : runsOf line = qs ++ (v, n) :: ps) (h : Encodable qs) (hn : 8192 ≤ n) :
    ∃ i, encodeLine c m line = .fail (.encRun n) i := by
  obtain ⟨i, hi⟩ := codeRuns_of_long h hn v ps [] 0
  exact ⟨i, by simp only [encodeLine, hline, hi]⟩

end

/-- Only a line without a run of 8192 or more has a stream. -/
theorem encodable_of_encodeLine {c : Cfg} {m : Model} {line bs : List Byte} (h : encodeLine c m line = .stream bs) :
    Encodable (runsOf line) := by
  rcases encodable_or_first_long (runsOf line) with hr | ⟨qs, v, n, ps, hline, hqs, hn⟩
  · exact hr
  · obtain ⟨i, hi⟩ := encodeLine_of_long c m hline hqs hn
    rw [hi] at h
    cases h

/-- What a stream off M3 is. -/
theorem eq_of_encodeLine_of_ne_m3 {c : Cfg} {m : Model} (hm : m ≠ .m3) {line bs : List Byte}
    (h : encodeLine c m line = .stream bs) : bs = 0x80 :: lineOps (runsOf line) [] := by
  rw [encodeLine_of_ne_m3 c (encodable_of_encodeLine h) hm] at h
  cases h
  rfl

/-- What a stream on M3 is. -/
theorem eq_of_encodeLine_m3 {c : Cfg} {line bs : List Byte} (h : encodeLine c .m3 line = .stream bs) :
    rowLenFor c.rowLenMode ((lineOps (runsOf line) []).length + 1) ≤ 16383 ∧
      bs = paddedStream c (lineOps (runsOf line) []) := by
  rw [encodeLine_m3 c (encodable_of_encodeLine h)] at h
  rcases Nat.lt_or_ge 16383 (rowLenFor c.rowLenMode ((lineOps (runsOf line) []).length + 1)) with hgt | hle
  · rw [padStream_of_gt hgt] at h
    cases h
  · rw [padStream_of_le hle] at h
    cases h
    exact ⟨hle, rfl⟩

theorem lineOps_runsOf_length_le {line : List Byte} (h : Encodable (runsOf line)) :
    (lineOps (runsOf line) []).length ≤ line.length + (line.length + 63) / 64 := by
  have := lineOps_length_le h []
  rwa [List.nil_append, expandRuns_runsOf] at this

/-! ### The statements -/

/-- Settles O49: the repeats by the range of the count; a line of short runs by collecting them; a maximal run by the
runs of its line; the padded stream by its row length. -/
theorem repeatDecomposition : Obligations.RepeatDecomposition := by
  refine ⟨fun n v h3 => ⟨repeatOps_of_lt_64 v (by omega), repeatOps_of_lt_4096 v, repeatOps_of_lt_8192 v,
    repeatOps_of_ge_8192 v⟩, fun c m line hm hshort => ?_,
    fun c m pre n v post ops rest hm hshort h3 hpre hpost hops hrest => ?_,
    fun c line ops rowLen hline hrow hle => ?_⟩
  · have henc : Encodable (runsOf line) := fun r hr => Nat.lt_trans (hshort r hr) (by decide)
    have hops : lineOps (runsOf line) [] = rawChunks line := by
      have := lineOps_append_of_short hshort [] []
      rwa [List.append_nil, List.nil_append, expandRuns_runsOf] at this
    rw [encodeLine_of_ne_m3 c henc hm, hops]
  · have hruns : runsOf (pre ++ List.replicate n v ++ post) = runsOf pre ++ (v, n) :: runsOf post :=
      runsOf_append_replicate_append (by omega) hpre hpost
    have henc : Encodable (runsOf (pre ++ List.replicate n v ++ post)) := by
      rw [hruns]
      refine List.forall_mem_append.2 ⟨fun r hr => Nat.lt_trans (hshort r hr) (by decide), ?_⟩
      exact encodable_cons.2 ⟨(repeatOps_isSome_iff v).1 (by rw [hops]; rfl), encodable_of_encodeLine hrest⟩
    cases eq_of_encodeLine_of_ne_m3 hm hrest
    rw [encodeLine_of_ne_m3 c henc hm, hruns, lineOps_append_of_short hshort, lineOps_cons_of_repeat h3 hops,
      List.nil_append, expandRuns_runsOf]
  · cases eq_of_encodeLine_of_ne_m3 (by decide) hline
    have hrow : rowLen = rowLenFor c.rowLenMode ((lineOps (runsOf line) []).length + 1) := by
      rw [hrow, rowLenFor_eq]
    subst hrow
    rw [encodeLine_m3 c (encodable_of_encodeLine hline), padStream_of_le hle, paddedStream]

/-- Settles O50: the pass ends at the first run of 8192 or more; any other line has its opcodes, and on M3 the row
length decides. -/
theorem longRunsHaveNoEncoding : Obligations.LongRunsHaveNoEncoding := by
  refine ⟨fun c m line => ⟨fun ⟨n, i, h⟩ => ?_, fun ⟨r, hr, hlong⟩ => ?_⟩,
    fun c m pre n v post hn hshort hpre hpost => ?_, fun c line henc => ⟨fun m hm => ⟨_, encodeLine_of_ne_m3 c henc hm⟩,
    fun body rowLen hbody hrow => ?_, fun hlen => ?_⟩⟩
  · rcases encodable_or_first_long (runsOf line) with henc | ⟨qs, v, k, ps, hline, -, hk⟩
    · exact absurd h (encodeLine_ne_encRun c henc m n i)
    · exact ⟨(v, k), by simp [hline], hk⟩
  · rcases encodable_or_first_long (runsOf line) with henc | ⟨qs, v, k, ps, hline, hqs, hk⟩
    · exact absurd (henc r hr) (Nat.not_lt.2 hlong)
    · exact ⟨k, encodeLine_of_long c m hline hqs hk⟩
  · exact encodeLine_of_long c m (runsOf_append_replicate_append (by omega) hpre hpost) hshort hn
  · cases eq_of_encodeLine_of_ne_m3 (by decide) hbody
    have hrow : rowLen = rowLenFor c.rowLenMode ((lineOps (runsOf line) []).length + 1) := by
      rw [hrow, rowLenFor_eq, List.length_cons]
    subst hrow
    rw [encodeLine_m3 c henc]
    exact ⟨fun hle => ⟨_, padStream_of_le hle _⟩, fun hgt => ⟨_, padStream_of_gt hgt _⟩⟩
  · have hops := lineOps_runsOf_length_le henc
    have hpad := padLenFor_lt ((lineOps (runsOf line) []).length + 1)
    have hle : rowLenFor c.rowLenMode ((lineOps (runsOf line) []).length + 1) ≤ 16383 := by
      rw [rowLenFor_eq]
      split <;> omega
    exact ⟨_, (encodeLine_m3 c henc).trans (padStream_of_le hle _)⟩

/-- Settles O51: the bound of the opcodes, with the header byte, and on M3 with the pad header and at most 3 filler
bytes. -/
theorem lineStreamSizeBound : Obligations.LineStreamSizeBound := by
  intro c m line bs h
  have hops := lineOps_runsOf_length_le (encodable_of_encodeLine h)
  by_cases hm : m = .m3
  · subst hm
    obtain ⟨-, rfl⟩ := eq_of_encodeLine_m3 h
    have hpad := padLenFor_lt ((lineOps (runsOf line) []).length + 1)
    rw [paddedStream_length, if_pos rfl]
    omega
  · rw [eq_of_encodeLine_of_ne_m3 hm h, List.length_cons, if_neg hm]
    omega

theorem PadLayout.reference_lawful : PadLayout.Lawful PadLayout.reference := PadLayout.bits_lawful (by decide)

/-- Settles O52: the stream's length is the row length of R99, which 14 bits hold and the padding makes a multiple of 4;
its pad header unpacks to what was packed. -/
theorem paddedStreamIsAMultipleOfFour : Obligations.PaddedStreamIsAMultipleOfFour := by
  intro line bs h
  obtain ⟨hle, rfl⟩ := eq_of_encodeLine_m3 h
  generalize lineOps (runsOf line) [] = ops at hle ⊢
  have hrow : rowLenFor Cfg.decided.rowLenMode (ops.length + 1) = (paddedStream Cfg.decided ops).length := by
    rw [rowLenFor_eq, if_pos (show Cfg.decided.rowLenMode = .total from rfl), paddedStream_length]
  obtain ⟨-, hfour, -⟩ := paddingFormula (ops.length + 1)
  refine ⟨by rw [paddedStream_length]; omega, rfl, _, _, BitVec.ofNat 2 (padLenFor (ops.length + 1)),
    BitVec.ofNat 14 (rowLenFor Cfg.decided.rowLenMode (ops.length + 1)), rfl, rfl, ?_, ?_, fun k hk => ?_⟩
  · refine (decode_padhdr_wordBytes Cfg.decided _ []).trans ?_
    rw [show Cfg.decided.padLayout = PadLayout.reference from rfl, PadLayout.reference_lawful]
  · rw [BitVec.toNat_ofNat, ← hrow, Nat.mod_eq_of_lt (by omega)]
  · have hk : k < padLenFor (ops.length + 1) := Nat.lt_of_lt_of_le hk (Nat.mod_le ..)
    have hskip : (paddedStream Cfg.decided ops)[3 + k]? =
        (List.replicate (padLenFor (ops.length + 1)) 0xFF ++ ops)[k]? := by rw [Nat.add_comm]; rfl
    rw [hskip, List.getElem?_append_left (by rwa [List.length_replicate]), List.getElem?_replicate, if_pos hk]

/-! ### Interleaving (R161) -/

theorem interleave_length {a b : List Byte} (h : a.length = b.length) : (interleave a b).length = 2 * a.length := by
  induction a generalizing b with
  | nil => rfl
  | cons x a ih =>
    cases b with
    | nil => cases h
    | cons y b => simp [interleave, ih (Nat.succ.inj h)]; omega

theorem interleave_getElem? {a b : List Byte} (h : a.length = b.length) (i : Nat) :
    (interleave a b)[2 * i]? = a[i]? ∧ (interleave a b)[2 * i + 1]? = b[i]? := by
  induction a generalizing b i with
  | nil => cases b with
    | nil => exact ⟨rfl, rfl⟩
    | cons y b => cases h
  | cons x a ih =>
    cases b with
    | nil => cases h
    | cons y b =>
      cases i with
      | zero => exact ⟨rfl, rfl⟩
      | succ i => exact ih (Nat.succ.inj h) i

/-- Settles O54: the even and the odd bytes of the interleaving are the two lines. -/
theorem interleaveUndoesTheAddressMap : Obligations.InterleaveUndoesTheAddressMap := by
  rintro a b w rfl hb
  have hget := interleave_getElem? hb.symm
  have hline {l : List Byte} (f : Nat → Byte) (hf : ∀ i, f i = l[i]?.getD 0) : (List.range l.length).map f = l := by
    refine List.ext_getElem (by simp) fun i _ hi => ?_
    simp [hf, List.getElem?_eq_getElem hi]
  refine ⟨interleave_length hb.symm, fun i _ => hget i, ?_⟩
  rw [flushUnitOf, if_pos rfl]
  refine congr (congrArg _ (hline _ fun i => ?_)) (hb ▸ hline _ fun i => ?_)
  · rw [List.getD_eq_getElem?_getD, (hget i).1]
  · rw [List.getD_eq_getElem?_getD, (hget i).2]

end Sys2Proof.Machine

namespace Sys2Proof.Machine

/-! PROOFS. Decoding the stream of a line (R173, R208): a stream of opcodes puts the bytes it stands for, the encoder's
opcodes stand for the line, and the two line headers it writes lead to them. -/

/-! ### Opcodes and the bytes they stand for -/

/-- The bytes of one of the encoder's opcodes, and the bytes it puts: at least one, so that a line ends with the opcode
that completes it (R198). -/
inductive OpCode : List Byte → List Byte → Prop
  | raw (lit : List Byte) (h0 : lit ≠ []) (h64 : lit.length ≤ 64) : OpCode (rawChunk lit) lit
  | rep (v : Byte) (n : Nat) (h0 : 0 < n) (h64 : n < 64) : OpCode [0x80 ||| BitVec.ofNat 8 n, v] (List.replicate n v)
  | lrep (v : Byte) (n : Nat) (h0 : 0 < n) (h64 : n < 64) :
    OpCode [0xC0 ||| BitVec.ofNat 8 n, v] (List.replicate (64 * n) v)

/-- A sequence of opcodes and the bytes it puts. -/
inductive OpStream : List Byte → List Byte → Prop
  | nil : OpStream [] []
  | cons {x bs ops out : List Byte} (h : OpCode x bs) (t : OpStream ops out) : OpStream (x ++ ops) (bs ++ out)

theorem OpCode.puts_ne_nil {x bs : List Byte} (h : OpCode x bs) : bs ≠ [] := by
  cases h with
  | raw _ h0 _ => exact h0
  | rep v n h0 _ => exact List.ne_nil_of_length_pos (by simpa using h0)
  | lrep v n h0 _ => exact List.ne_nil_of_length_pos (by simpa using h0)

theorem OpCode.stream {x bs : List Byte} (h : OpCode x bs) : OpStream x bs := by
  simpa using OpStream.cons h .nil

theorem OpStream.append {ops ops' out out' : List Byte} (h : OpStream ops out) (h' : OpStream ops' out') :
    OpStream (ops ++ ops') (out ++ out') := by
  induction h with
  | nil => exact h'
  | cons hx _ ih => rw [List.append_assoc, List.append_assoc]; exact .cons hx ih

/-! ### The encoder's opcodes -/

theorem rawChunks_stream (lit : List Byte) : OpStream (rawChunks lit) lit := by
  induction lit using rawChunks_induction with
  | nil => exact .nil
  | chunk lit hne ih =>
    have hchunk : rawChunk lit = rawChunk (lit.take 64) := by simp [rawChunk, List.take_take]
    have hcode : OpCode (rawChunk lit) (lit.take 64) :=
      hchunk ▸ .raw (lit.take 64) (by simpa using hne) (List.length_take_le ..)
    have := OpStream.cons hcode ih
    rwa [List.take_append_drop, ← rawChunks_of_ne_nil hne] at this

/-- The short repeat of a rest. -/
theorem shortRepeat_stream (v : Byte) {n : Nat} (hn : n < 64) :
    OpStream (if n = 0 then [] else [0x80 ||| BitVec.ofNat 8 n, v]) (List.replicate n v) := by
  split
  · next h => subst h; exact .nil
  · exact (OpCode.rep v n (by omega) hn).stream

/-- The long repeat and the rest of a run below 4096. -/
theorem longRepeat_stream (v : Byte) {n : Nat} (h0 : 64 ≤ n) (h : n < 4096) :
    OpStream ([0xC0 ||| BitVec.ofNat 8 (n / 64), v] ++
      if n % 64 = 0 then [] else [0x80 ||| BitVec.ofNat 8 (n % 64), v]) (List.replicate n v) := by
  have hlong := (OpCode.lrep v (n / 64) (by omega) (by omega)).stream
  have := hlong.append (shortRepeat_stream v (Nat.mod_lt n (by decide)))
  rwa [List.replicate_append_replicate, Nat.div_add_mod] at this

theorem repeatOps_stream {v : Byte} {n : Nat} {ops : List Byte} (h0 : 0 < n) (h : repeatOps n v = some ops) :
    OpStream ops (List.replicate n v) := by
  have h8192 : n < 8192 := (repeatOps_isSome_iff v).1 (by rw [h]; rfl)
  rcases Nat.lt_or_ge n 64 with h64 | h64
  · rw [repeatOps_of_lt_64 v h0 h64] at h
    cases h
    exact (OpCode.rep v n h0 h64).stream
  rcases Nat.lt_or_ge n 4096 with h4096 | h4096
  · rw [repeatOps_of_lt_4096 v h64 h4096] at h
    cases h
    exact longRepeat_stream v h64 h4096
  · obtain ⟨k, rfl⟩ := Nat.exists_eq_add_of_le h4096
    rw [repeatOps_of_lt_8192 v h4096 h8192] at h
    cases h
    have hbig : OpStream [0xE0, v] (List.replicate (64 * 32) v) := (OpCode.lrep v 32 (by decide) (by decide)).stream
    have hmod : (4096 + k) % 64 = k % 64 := by omega
    have hrun : List.replicate (4096 + k) v =
        List.replicate (64 * 32) v ++ (List.replicate (64 * 32) v ++ List.replicate k v) := by
      rw [List.replicate_append_replicate, List.replicate_append_replicate,
        show 64 * 32 + (64 * 32 + k) = 4096 + k by omega]
    have hrest : OpStream ((if k < 64 then [] else [0xC0 ||| BitVec.ofNat 8 (k / 64), v]) ++
        if k % 64 = 0 then [] else [0x80 ||| BitVec.ofNat 8 (k % 64), v]) (List.replicate k v) := by
      rcases Nat.lt_or_ge k 64 with hk | hk
      · simpa only [if_pos hk, Nat.mod_eq_of_lt hk, List.nil_append] using shortRepeat_stream v hk
      · simpa only [if_neg (Nat.not_lt.2 hk)] using longRepeat_stream v hk (by omega)
    rw [hrun, Nat.add_sub_cancel_left, hmod, List.append_assoc]
    exact hbig.append (hbig.append hrest)

/-- The opcodes of encodable runs stand for the pending literals and the runs' bytes. -/
theorem lineOps_stream {rs : List (Byte × Nat)} (h : Encodable rs) (lit : List Byte) :
    OpStream (lineOps rs lit) (lit ++ expandRuns rs) := by
  induction rs generalizing lit with
  | nil => rw [expandRuns_nil, List.append_nil]; exact rawChunks_stream lit
  | cons r rs ih =>
    obtain ⟨v, n⟩ := r
    obtain ⟨hn, h⟩ := encodable_cons.1 h
    obtain ⟨ops, hops⟩ := exists_repeatOps v hn
    rw [expandRuns_cons]
    rcases Nat.lt_or_ge n 3 with h3 | h3
    · rw [lineOps_cons_of_short v h3, ← List.append_assoc]
      exact ih h _
    · rw [lineOps_cons_of_repeat h3 hops, ← List.append_assoc]
      exact ((rawChunks_stream lit).append (repeatOps_stream (by omega) hops)).append (ih h [])

theorem lineOps_runsOf_stream {line : List Byte} (h : Encodable (runsOf line)) :
    OpStream (lineOps (runsOf line) []) line := by
  have := lineOps_stream h []
  rwa [List.nil_append, expandRuns_runsOf] at this

/-! ### Puts into a ready buffer -/

/-- All of a state that the byte put reads. -/
def State.putSide (s : State) : (Memory × Nat × Nat × Model) × Chan × List FlushUnit := (s.accSide, s.chan, s.sink)

theorem State.putSide_withPut {s s' : State} (h : s'.putSide = s.putSide) (m : Memory) (p : Nat) (u : List FlushUnit) :
    (s'.withPut m p u).putSide = (s.withPut m p u).putSide := by
  simp only [State.putSide, State.accSide, Prod.mk.injEq] at h
  obtain ⟨⟨-, -, hw, hm⟩, hc, -⟩ := h
  simp [State.putSide, State.accSide, hw, hm, hc]

theorem State.PutReady.of_accSide {s t : State} (h : s.PutReady) (ht : t.accSide = s.accSide) : t.PutReady := by
  have hfill := (State.accFilled_congr ht).2 h.filled
  simp only [State.accSide, Prod.mk.injEq] at ht
  obtain ⟨-, hpos, hw, -⟩ := ht
  exact ⟨hw ▸ h.wide, hpos ▸ hw ▸ h.pos, hfill⟩

/-- A ready buffer takes a byte and is ready again: no flush lacks a byte, and no address is outside. -/
theorem State.PutReady.putByte {s : State} (h : s.PutReady) (v : Byte) :
    ∃ m p u, putByte v s = .ok () (s.withPut m p (s.sink ++ u)) ∧ (s.withPut m p (s.sink ++ u)).PutReady := by
  obtain ⟨hw, hpos, hfill⟩ := h
  have hwrite := hfill.write (accAddr_lt s.model hpos) v
  rcases Nat.lt_or_ge (s.accPos + 1) (2 * s.w) with hlt | hge
  · exact ⟨_, _, [], by rw [putByte_of_lt v hlt, List.append_nil], by rw [List.append_nil]; exact ⟨hw, hlt, hwrite⟩⟩
  · have hfull : s.accPos + 1 = 2 * s.w := by omega
    rcases flushAcc_cases (s.withPut (s.acc.write (accAddr s.model s.w s.accPos) v) (s.accPos + 1) s.sink) with
      ⟨u, -, e⟩ | ⟨hnone, -⟩
    · exact ⟨[], 0, _, by rw [putByte_of_eq v hfull, e]; rfl, hw, by simpa using hw, State.accFilled_of_empty rfl rfl⟩
    · simp only [State.withPut_acc, State.withPut_w] at hnone
      have hsome := Memory.readAll_isSome.2 fun a ha => (hwrite.2 (0 + a) (by simpa using ha)).2 (by
        obtain ⟨p, hp, e⟩ := accAddr_surjective s.model ha
        exact ⟨p, by simp only [State.withPut_accPos]; omega, by simpa using e⟩)
      rw [State.withPut_acc, hnone] at hsome
      cases hsome

theorem State.PutReady.putAll {s : State} (h : s.PutReady) (bs : List Byte) :
    ∃ m p u, putAll bs s = .ok () (s.withPut m p (s.sink ++ u)) ∧ (s.withPut m p (s.sink ++ u)).PutReady := by
  induction bs generalizing s with
  | nil => exact ⟨s.acc, s.accPos, [], by rw [List.append_nil]; rfl, by rw [List.append_nil]; exact h⟩
  | cons b bs ih =>
    obtain ⟨m, p, u, hput, h1⟩ := h.putByte b
    obtain ⟨m', p', u', hputs, h2⟩ := ih h1
    refine ⟨m', p', u ++ u', ?_, by simpa using h2⟩
    rw [putAll_cons, hput, Flow.bind_ok, hputs]
    simp

theorem State.withPut_inj {s : State} {m m' : Memory} {p p' : Nat} {u u' : List FlushUnit}
    (h : s.withPut m p u = s.withPut m' p' u') : m = m' ∧ p = p' ∧ u = u' :=
  ⟨congrArg State.acc h, congrArg State.accPos h, congrArg State.sink h⟩

/-- A byte put depends on nothing but `putSide`. -/
theorem putByte_congr {s s' : State} (h : s'.putSide = s.putSide) {v : Byte} {m : Memory} {p : Nat}
    {u : List FlushUnit} (hput : putByte v s = .ok () (s.withPut m p u)) :
    putByte v s' = .ok () (s'.withPut m p u) := by
  simp only [State.putSide, State.accSide, Prod.mk.injEq] at h
  obtain ⟨⟨hacc, hpos, hw, hm⟩, hc, hsink⟩ := h
  rcases putByte_cases v s with ⟨h1, h2, e⟩ | ⟨u', h1, h2, h3, e⟩ | ⟨-, -, -, e⟩ | ⟨-, e⟩ <;> rw [e] at hput
  · obtain ⟨rfl, rfl, rfl⟩ := State.withPut_inj (Flow.ok.inj hput).2
    simp [putByte, hacc, hpos, hw, hm, hsink, h1, h2]
  · obtain ⟨rfl, rfl, rfl⟩ := State.withPut_inj (Flow.ok.inj hput).2
    simp [putByte, flushAcc, hacc, hpos, hw, hm, hc, hsink, h1, h2, h3]
  · cases hput
  · cases hput

theorem putAll_congr {s s' : State} (h : s'.putSide = s.putSide) {bs : List Byte} {m : Memory} {p : Nat}
    {u : List FlushUnit} (hput : putAll bs s = .ok () (s.withPut m p u)) :
    putAll bs s' = .ok () (s'.withPut m p u) := by
  induction bs generalizing s s' with
  | nil =>
    obtain ⟨hm, hp, hu⟩ := State.withPut_inj (s := s) (Flow.ok.inj hput).2
    simp only [State.putSide, State.accSide, Prod.mk.injEq] at h
    obtain ⟨⟨hacc, hpos, -, -⟩, -, hsink⟩ := h
    rw [← hm, ← hp, ← hu, ← hacc, ← hpos, ← hsink]
    rfl
  | cons b bs ih =>
    obtain ⟨_, s1, h1, h2⟩ := Flow.bind_eq_ok.1 hput
    obtain ⟨m', p', u', rfl⟩ := putByte_ok h1
    rw [putAll_cons, putByte_congr h h1, Flow.bind_ok]
    exact ih (State.putSide_withPut h m' p' _) h2

/-! ### One opcode of a line (R199, R202, R203) -/

/-- In a line, the next step decodes what stands at `cur` (R29). -/
theorem fetch_of_drop {s : State} {bytes : List Byte} (hc : s.ctx ≠ .frame) (h : s.d.drop s.cur = bytes) :
    fetch s = decode s.cfg s.ctx bytes := by
  subst h
  cases hctx : s.ctx with
  | frame => exact absurd hctx hc
  | _ => simp only [fetch, State.window, hctx]

theorem nextByte_of_drop {s : State} {b : Byte} {rest : List Byte} (h : s.d.drop s.cur = b :: rest) :
    nextByte s = .ok b (s.setCur (s.cur + 1)) := by
  have hb : s.d[s.cur]? = some b := by rw [← List.head?_drop, h, List.head?_cons]
  simp only [nextByte, hb]

/-- Two selecting bits and a count below 64 make an opcode: checked for each of the 256. -/
theorem opcode_or_ofNat (k : BitVec 2) {n : Nat} (h : n < 64) :
    (k ++ 0#6) ||| BitVec.ofNat 8 n = k ++ BitVec.ofNat 6 n := by
  have hbits : ∀ (k : BitVec 2) (fld : BitVec 6), (k ++ 0#6) ||| fld.setWidth 8 = k ++ fld := by decide
  have hfld : BitVec.ofNat 8 n = (BitVec.ofNat 6 n).setWidth 8 := by
    apply BitVec.eq_of_toNat_eq
    rw [BitVec.toNat_setWidth, BitVec.toNat_ofNat, BitVec.toNat_ofNat]
    omega
  rw [hfld, hbits]

theorem decodeOp_ofNat {n : Nat} (h : n < 64) : decodeOp (BitVec.ofNat 8 n) = .raw (BitVec.ofNat 6 n) := by
  have hop := opcode_or_ofNat 0b00#2 h
  rw [show 0b00#2 ++ 0#6 = 0#8 from rfl, BitVec.zero_or] at hop
  rw [hop, decodeOp_append]
  rfl

theorem decodeOp_rep {n : Nat} (h : n < 64) : decodeOp (0x80 ||| BitVec.ofNat 8 n) = .rep (BitVec.ofNat 6 n) := by
  rw [show (0x80 : Byte) = 0b10#2 ++ 0#6 from rfl, opcode_or_ofNat 0b10#2 h, decodeOp_append]
  rfl

theorem decodeOp_lrep {n : Nat} (h : n < 64) : decodeOp (0xC0 ||| BitVec.ofNat 8 n) = .lrep (BitVec.ofNat 6 n) := by
  rw [show (0xC0 : Byte) = 0b11#2 ++ 0#6 from rfl, opcode_or_ofNat 0b11#2 h, decodeOp_append]
  rfl

theorem toNat_field {n : Nat} (h : n < 64) : (BitVec.ofNat 6 n).toNat = n := by
  rw [BitVec.toNat_ofNat]
  exact Nat.mod_eq_of_lt h

/-- REP and LREP: n puts of the byte after the opcode. -/
theorem repeatByte_pastOpcode {s : State} {op v : Byte} {rest : List Byte} (h : s.d.drop s.cur = op :: v :: rest)
    (n : Nat) : repeatByte n s.pastOpcode =
      (putAll (List.replicate n v) s).bind fun _ t => addProduced n (t.setCur (s.cur + 2)) := by
  have hv : s.pastOpcode.d.drop s.pastOpcode.cur = v :: rest := by
    simp only [State.pastOpcode, State.setCur_d, State.setCur_cur, ← List.drop_drop, h, List.drop_succ_cons,
      List.drop_zero]
  rw [repeatByte, nextByte_of_drop hv, Flow.bind_ok, putCopies_eq, State.pastOpcode, State.setCur_setCur,
    putAll_setCur, Flow.bind_assoc]
  rfl

/-- RAW: the puts of the literals after the opcode. -/
theorem putLiterals_pastOpcode {s : State} {op : Byte} {lit rest : List Byte}
    (h : s.d.drop s.cur = op :: (lit ++ rest)) :
    putLiterals lit.length s.pastOpcode =
      (putAll lit s).bind fun _ t => .ok () (t.setCur (s.cur + (lit.length + 1))) := by
  have hlit : s.d.drop (s.cur + 1) = lit ++ rest := by rw [← List.drop_drop, h]; rfl
  have hlen : s.pastOpcode.cur + lit.length ≤ s.pastOpcode.d.length := by
    have := congrArg List.length h
    simp only [List.length_drop, List.length_append, List.length_cons] at this
    simp only [State.pastOpcode, State.setCur_d, State.setCur_cur]
    omega
  rw [putLiterals_eq hlen]
  simp only [State.pastOpcode, State.setCur_d, State.setCur_cur, hlit, List.take_left', putAll_setCur, Flow.bind_assoc,
    Flow.bind_ok, State.setCur_setCur, Nat.add_assoc, Nat.add_comm 1]

/-- The step of one of the encoder's opcodes: its puts, and `cur` past it. -/
theorem step_of_opCode {s : State} {x bs rest : List Byte} (hr : s.runState = .run) (hd : s.cfg.dir = .decode)
    (hc : s.ctx = .op) (h : OpCode x bs) (hw : s.d.drop s.cur = x ++ rest) :
    step s = Flow.outcome ((putAll bs s).bind fun _ t => addProduced bs.length (t.setCur (s.cur + x.length))) := by
  have hstep {op : Byte} {tail : List Byte} {i : Instr} (hop : s.d.drop s.cur = op :: tail) (hi : decodeOp op = i)
      (hne : i.context = .op) : step s = exec i s := by
    have hf : fetch s = .ok i tail := by
      rw [fetch_of_drop (by simp [hc]) hop, hc, decode, hi]
    rw [step_of_decode hr hd]
    refine decodeStep_of_fetch hf fun present tlen e => ?_
    subst e
    cases hne
  cases h with
  | raw _ h0 h64 =>
    have hpos := List.length_pos_of_ne_nil h0
    have hchunk : rawChunk bs = BitVec.ofNat 8 (bs.length - 1) :: bs := by
      rw [rawChunk, Nat.min_eq_right h64, List.take_of_length_le h64]
    have hcount : rawCount (BitVec.ofNat 6 (bs.length - 1)) = bs.length := by
      rw [rawCount, toNat_field (by omega)]
      omega
    rw [hchunk] at hw ⊢
    rw [hstep hw (decodeOp_ofNat (by omega)) rfl, exec, execRaw, hcount, putLiterals_pastOpcode hw, Flow.bind_assoc]
    rfl
  | rep v n h0 h64 =>
    rw [hstep hw (decodeOp_rep h64) rfl, exec, execRep, repCount, toNat_field h64, repeatByte_pastOpcode hw,
      List.length_replicate]
    rfl
  | lrep v n h0 h64 =>
    rw [hstep hw (decodeOp_lrep h64) rfl, exec, execLrep, lrepCount, toNat_field h64, repeatByte_pastOpcode hw,
      List.length_replicate]
    rfl

/-! ### The opcodes of a line (R198, R204) -/

/-- `s` stands at opcodes that are the rest of D and put the bytes its last line still lacks; once D is consumed, the
row length is the one declared. -/
structure State.AtOps (s : State) (ops out : List Byte) : Prop where
  running : s.runState = .run
  decoding : s.cfg.dir = .decode
  ctx : s.ctx = .op
  ready : s.PutReady
  lastLine : s.linesLeft = 1
  bytes : s.cur + ops.length = s.d.length
  window : s.d.drop s.cur = ops
  lacks : s.produced + out.length = s.leff
  row : ∀ r, s.padRow = some r → rowUsed s.cfg.rowLenMode (s.d.length - s.lstart) s.padLen = r

/-- `s` at the end of its block's last line: D consumed, and ACC, ACCPOS and the new flush units as given. -/
def State.lineDone (s : State) (m : Memory) (p : Nat) (u : List FlushUnit) : State :=
  { s.opDone m p u s.d.length s.leff with linesLeft := 0, ctx := .frame }

section
variable (s : State) (m : Memory) (p : Nat) (u : List FlushUnit)

@[simp] theorem State.lineDone_acc : (s.lineDone m p u).acc = m := rfl

@[simp] theorem State.lineDone_accPos : (s.lineDone m p u).accPos = p := rfl

@[simp] theorem State.lineDone_sink : (s.lineDone m p u).sink = s.sink ++ u := rfl

@[simp] theorem State.lineDone_cur : (s.lineDone m p u).cur = s.d.length := rfl

@[simp] theorem State.lineDone_ctx : (s.lineDone m p u).ctx = .frame := rfl

@[simp] theorem State.lineDone_linesLeft : (s.lineDone m p u).linesLeft = 0 := rfl

@[simp] theorem State.lineDone_warns : (s.lineDone m p u).warns = s.warns := rfl

@[simp] theorem State.lineDone_nblkFatal : (s.lineDone m p u).nblkFatal = s.nblkFatal := rfl

@[simp] theorem State.lineDone_fcode : (s.lineDone m p u).fcode = s.fcode := rfl

@[simp] theorem State.lineDone_runState : (s.lineDone m p u).runState = s.runState := rfl

end

theorem rowMismatch_eq_false {s : State}
    (h : ∀ r, s.padRow = some r → rowUsed s.cfg.rowLenMode (s.cur - s.lstart) s.padLen = r) :
    rowMismatch s = false := by
  unfold rowMismatch
  split
  · rfl
  · next r hr => exact decide_eq_false (not_not.2 (h r hr))

/-- The last line of a block that ends as it should: nothing is reported (R204, R190). -/
theorem endLine_last {s : State} (hprod : s.produced = s.leff) (hlast : s.linesLeft = 1) (hcur : s.cur = s.d.length)
    (hrow : rowMismatch s = false) : endLine s = .ok () { s with linesLeft := 0, ctx := .frame } := by
  simp [endLine, hprod, hlast, hrow, State.warnIf, linesLoop, endData, hcur, State.resumeLoop]

theorem run_succ_of_step {k : Nat} {s t u : State} (h : step s = .next t)
    (hrun : Host.Core.run Sys2Proof.core k t = .next u) : Host.Core.run Sys2Proof.core (k + 1) s = .next u := by
  have h : Sys2Proof.core.step s = .next t := h
  simp only [Host.Core.run, h, hrun]

/-- `s` past an opcode that did not complete its line: n bytes put, ACC, ACCPOS and the new flush units as given. -/
def State.midLine (s : State) (m : Memory) (p : Nat) (u : List FlushUnit) (cur n : Nat) : State :=
  { s.opDone m p u cur (s.produced + n) with ctx := .op }

section
variable (s : State) (m : Memory) (p : Nat) (u : List FlushUnit) (cur n : Nat)

@[simp] theorem State.midLine_cfg : (s.midLine m p u cur n).cfg = s.cfg := rfl

@[simp] theorem State.midLine_d : (s.midLine m p u cur n).d = s.d := rfl

@[simp] theorem State.midLine_lstart : (s.midLine m p u cur n).lstart = s.lstart := rfl

@[simp] theorem State.midLine_padRow : (s.midLine m p u cur n).padRow = s.padRow := rfl

@[simp] theorem State.midLine_padLen : (s.midLine m p u cur n).padLen = s.padLen := rfl

@[simp] theorem State.midLine_cur : (s.midLine m p u cur n).cur = cur := rfl

@[simp] theorem State.midLine_produced : (s.midLine m p u cur n).produced = s.produced + n := rfl

@[simp] theorem State.midLine_leff : (s.midLine m p u cur n).leff = s.leff := rfl

@[simp] theorem State.midLine_sink : (s.midLine m p u cur n).sink = s.sink ++ u := rfl

end

section
variable {s : State} {x bs ops out : List Byte}

/-- The puts of an opcode end, and the opcode loop's test follows. -/
theorem State.AtOps.step (hs : s.AtOps (x ++ ops) (bs ++ out)) (hx : OpCode x bs) :
    ∃ m p u, putAll bs s = .ok () (s.withPut m p (s.sink ++ u)) ∧ (s.withPut m p (s.sink ++ u)).PutReady ∧
      Machine.step s = Flow.outcome (opLoop (s.opDone m p u (s.cur + x.length) (s.produced + bs.length))) := by
  obtain ⟨m, p, u, hput, hready⟩ := hs.ready.putAll bs
  refine ⟨m, p, u, hput, hready, ?_⟩
  rw [step_of_opCode hs.running hs.decoding hs.ctx hx hs.window, hput]
  rfl

/-- The opcode that completes the line ends the block. -/
theorem State.AtOps.last (hs : s.AtOps x bs) (hx : OpCode x bs) :
    ∃ m p u, Machine.step s = .next (s.lineDone m p u) ∧ putAll bs s = .ok () (s.withPut m p (s.sink ++ u)) := by
  obtain ⟨m, p, u, hput, -, hstep⟩ := State.AtOps.step (ops := []) (out := []) (by simpa using hs) hx
  rw [hs.bytes, hs.lacks] at hstep
  refine ⟨m, p, u, ?_, hput⟩
  rcases opLoop_cases (s.opDone m p u s.d.length s.leff) with ⟨hlt, -⟩ | ⟨-, e⟩
  · exact absurd hlt (Nat.lt_irrefl _)
  · have hrow : rowMismatch (s.opDone m p u s.d.length s.leff) = false := rowMismatch_eq_false hs.row
    have hend := endLine_last (s := s.opDone m p u s.d.length s.leff) rfl hs.lastLine rfl hrow
    rw [hstep, e, hend]
    rfl

/-- After any other opcode the rest of the opcodes stands for the rest of the line. -/
theorem State.AtOps.next (hs : s.AtOps (x ++ ops) (bs ++ out)) (hx : OpCode x bs) (hout : out ≠ []) :
    ∃ m p u, Machine.step s = .next (s.midLine m p u (s.cur + x.length) bs.length) ∧
      putAll bs s = .ok () (s.withPut m p (s.sink ++ u)) ∧
      (s.midLine m p u (s.cur + x.length) bs.length).AtOps ops out := by
  obtain ⟨m, p, u, hput, hready, hstep⟩ := hs.step hx
  have hbytes := hs.bytes
  have hlacks := hs.lacks
  rw [List.length_append, ← Nat.add_assoc] at hbytes hlacks
  refine ⟨m, p, u, ?_, hput, ?_⟩
  · have hpos := List.length_pos_of_ne_nil hout
    rcases opLoop_cases (s.opDone m p u (s.cur + x.length) (s.produced + bs.length)) with ⟨-, e⟩ | ⟨hge, -⟩
    · rw [hstep, e]
      rfl
    · have hge : s.leff ≤ s.produced + bs.length := hge
      omega
  · exact
      { running := hs.running
        decoding := hs.decoding
        ctx := rfl
        ready := hready.of_accSide rfl
        lastLine := hs.lastLine
        bytes := by rwa [State.midLine_cur, State.midLine_d]
        window := by rw [State.midLine_cur, State.midLine_d, ← List.drop_drop, hs.window, List.drop_left]
        lacks := by rwa [State.midLine_produced, State.midLine_leff]
        row := by simpa using hs.row }

end

theorem OpStream.eq_nil {ops out : List Byte} (h : OpStream ops out) (hout : out = []) : ops = [] := by
  cases h with
  | nil => rfl
  | cons hx _ => exact absurd (List.append_eq_nil_iff.1 hout).1 hx.puts_ne_nil

/-- A sequence of opcodes, each of which puts something, runs to the end of its line and puts its bytes in order. -/
theorem OpStream.run {ops out : List Byte} (h : OpStream ops out) {s : State} (hs : s.AtOps ops out) (hne : out ≠ []) :
    ∃ k m p u, Host.Core.run Sys2Proof.core k s = .next (s.lineDone m p u) ∧
      putAll out s = .ok () (s.withPut m p (s.sink ++ u)) := by
  induction h generalizing s with
  | nil => exact absurd rfl hne
  | @cons x bs ops out hx t ih =>
    by_cases hout : out = []
    · rw [hout, t.eq_nil hout, List.append_nil, List.append_nil] at hs
      obtain ⟨m, p, u, hstep, hput⟩ := hs.last hx
      exact ⟨1, m, p, u, run_succ_of_step hstep rfl, by rwa [hout, List.append_nil]⟩
    · obtain ⟨m, p, u, hstep, hput, hnext⟩ := hs.next hx hout
      obtain ⟨k, m', p', u', hrun, hputs⟩ := ih hnext hout
      refine ⟨k + 1, m', p', u ++ u', run_succ_of_step hstep ?_, ?_⟩
      · rw [hrun]
        simp [State.lineDone, State.midLine, State.opDone, State.withPut, State.leff]
      · have hput' := putAll_congr (s' := s.withPut m p (s.sink ++ u))
          (s := s.midLine m p u (s.cur + x.length) bs.length) rfl hputs
        rw [putAll_append, hput, Flow.bind_ok, hput']
        simp

/-! ### The line headers the encoder writes (R168, R170, R192 to R194) -/

/-- `s` at the first opcode of a line with an empty table, with PADROW, pad_len, the header's table length and `cur` as
given. -/
def State.firstOp (s : State) (row : Option Nat) (padLen hdrTlen cur : Nat) : State :=
  { s with
    lstart := s.cur
    padRow := row
    padLen := padLen
    hdrTlen := hdrTlen
    cur := cur
    tlen := 0
    tbl := []
    produced := 0
    ctx := .op }

section
variable (s : State) (row : Option Nat) (padLen hdrTlen cur : Nat)

@[simp] theorem State.firstOp_runState : (s.firstOp row padLen hdrTlen cur).runState = s.runState := rfl

@[simp] theorem State.firstOp_fcode : (s.firstOp row padLen hdrTlen cur).fcode = s.fcode := rfl

@[simp] theorem State.firstOp_nblkFatal : (s.firstOp row padLen hdrTlen cur).nblkFatal = s.nblkFatal := rfl

@[simp] theorem State.firstOp_warns : (s.firstOp row padLen hdrTlen cur).warns = s.warns := rfl

@[simp] theorem State.firstOp_d : (s.firstOp row padLen hdrTlen cur).d = s.d := rfl

@[simp] theorem State.firstOp_sink : (s.firstOp row padLen hdrTlen cur).sink = s.sink := rfl

end

theorem startOps_zero {n : Nat} {s : State} (hn : n = 0) (h : 0 < s.leff) :
    startOps n s = .ok () { s with tlen := 0, tbl := [], produced := 0, ctx := .op } := by
  subst hn
  rcases startOps_cases 0 s with ⟨hlt, -⟩ | ⟨-, e⟩
  · exact absurd hlt (by decide)
  · rw [e, loadTable, Flow.bind_ok]
    exact if_pos h

/-- Filler of 0xFF is read without a warning (R194). -/
theorem readFiller_of_drop {n : Nat} {s : State} {rest : List Byte}
    (h : s.d.drop s.cur = List.replicate n 0xFF ++ rest) : readFiller n s = .ok () (s.setCur (s.cur + n)) := by
  induction n generalizing s with
  | zero => rfl
  | succ n ih =>
    rw [List.replicate_succ, List.cons_append] at h
    have hrest : (s.setCur (s.cur + 1)).d.drop (s.setCur (s.cur + 1)).cur = List.replicate n 0xFF ++ rest := by
      simp only [State.setCur_d, State.setCur_cur, ← List.drop_drop, h, List.drop_succ_cons, List.drop_zero]
    have hih := ih hrest
    rw [State.setCur_setCur, State.setCur_cur, Nat.add_assoc, Nat.add_comm 1] at hih
    rw [readFiller, nextByte_of_drop h, Flow.bind_ok]
    exact hih

/-- The header byte the encoder writes, read back: PRESENT, and an empty table. -/
theorem fetch_lhdr {s : State} (hc : s.ctx = .lhdr) (padp : Bool) {rest : List Byte}
    (h : s.d.drop s.cur = encodeLhdr s.cfg.padpBit true padp 0 :: rest) : fetch s = .ok (.lhdr true padp 0) rest := by
  rw [fetch_of_drop (by simp [hc]) h, hc, decode]
  exact congrArg (Decoded.ok · rest) (decodeLhdr_encodeLhdr s.cfg.padpBit true padp (BitVec.zero_and ..))

/-- The step of a line header without padding. -/
theorem step_plainHeader {s : State} {ops : List Byte} (hr : s.runState = .run) (hd : s.cfg.dir = .decode)
    (hc : s.ctx = .lhdr) (hw : s.d.drop s.cur = encodeLhdr s.cfg.padpBit true false 0 :: ops) (hleff : 0 < s.leff) :
    step s = .next (s.firstOp none 0 s.hdrTlen (s.cur + 1)) := by
  have hstart := startOps_zero (s := { s with lstart := s.cur, padRow := none, padLen := 0, cur := s.cur + 1 })
    (show (0 : BitVec 7).toNat = 0 from rfl) hleff
  rw [step_of_decode hr hd, decodeStep_of_fetch (fetch_lhdr hc false hw) (by simp)]
  exact congrArg Flow.outcome hstart

/-- PADHDR with good filler, after a header with an empty table (R194). -/
theorem execPadhdr_filled {s : State} {p : BitVec 2} {rest : List Byte} (r : BitVec 14)
    (hw : s.d.drop (s.cur + 2) = List.replicate p.toNat 0xFF ++ rest) (htlen : s.hdrTlen = 0) (hleff : 0 < s.leff) :
    execPadhdr p r s = .next { s with
      padRow := some r.toNat
      padLen := p.toNat
      cur := s.cur + 2 + p.toNat
      tlen := 0
      tbl := []
      produced := 0
      ctx := .op } := by
  have hfill := readFiller_of_drop
    (s := { s with padRow := some r.toNat, padLen := p.toNat, cur := s.cur + 2 }) hw
  have hstart := startOps_zero
    (s := { s with padRow := some r.toNat, padLen := p.toNat, cur := s.cur + 2 + p.toNat }) htlen hleff
  rw [execPadhdr, hfill, Flow.bind_ok]
  exact congrArg Flow.outcome hstart

/-- The step of a line header with padding: header byte, pad header and filler. -/
theorem step_paddedHeader {s : State} {p : BitVec 2} {r : BitVec 14} {ops : List Byte}
    (hl : PadLayout.Lawful s.cfg.padLayout) (hr : s.runState = .run) (hd : s.cfg.dir = .decode) (hc : s.ctx = .lhdr)
    (hw : s.d.drop s.cur = encodeLhdr s.cfg.padpBit true true 0 ::
      (wordBytes (s.cfg.padLayout.pack p r) ++ (List.replicate p.toNat 0xFF ++ ops))) (hleff : 0 < s.leff) :
    step s = .next (s.firstOp (some r.toNat) p.toNat 0 (s.cur + 1 + 2 + p.toNat)) := by
  have hbody : s.d.drop (s.cur + 1) =
      wordBytes (s.cfg.padLayout.pack p r) ++ (List.replicate p.toNat 0xFF ++ ops) := by
    rw [← List.drop_drop, hw]
    rfl
  have hfiller : s.d.drop (s.cur + 1 + 2) = List.replicate p.toNat 0xFF ++ ops := by
    rw [← List.drop_drop, hbody]
    rfl
  have hdecode := decode_padhdr_wordBytes s.cfg (s.cfg.padLayout.pack p r) (List.replicate p.toNat 0xFF ++ ops)
  rw [hl, ← hbody, ← State.awaitPadhdr_window s true 0] at hdecode
  rw [step_of_decode hr hd, decodeStep_of_fetch_padded (fetch_lhdr hc true hw), decodeOne_of_ok hdecode]
  exact execPadhdr_filled (s := s.awaitPadhdr true 0) r hfiller rfl hleff

/-- What the encoder's padded stream is made of: the encodings of an LHDR with padding and of its PADHDR, filler, and
the opcodes. -/
theorem paddedStream_eq (c : Cfg) (ops : List Byte) : paddedStream c ops =
    encodeLhdr c.padpBit true true 0 ::
      (wordBytes (c.padLayout.pack (BitVec.ofNat 2 (padLenFor (ops.length + 1)))
        (BitVec.ofNat 14 (rowLenFor c.rowLenMode (ops.length + 1)))) ++
        (List.replicate (BitVec.ofNat 2 (padLenFor (ops.length + 1))).toNat 0xFF ++ ops)) := by
  have hbyte : encodeLhdr c.padpBit true true 0 = 0x80 ||| BitVec.twoPow 8 c.padpBit.index := by simp [encodeLhdr]
  rw [hbyte, BitVec.toNat_ofNat, Nat.mod_eq_of_lt (padLenFor_lt _)]
  rfl

/-! ### The statement -/

section
variable {s : State} {line : List Byte}

/-- The first opcode of a line whose opcodes are the rest of D. -/
theorem State.firstOp_atOps {ops : List Byte} {row : Option Nat} {padLen hdrTlen cur : Nat} (hr : s.runState = .run)
    (hd : s.cfg.dir = .decode) (hready : s.PutReady) (hlast : s.linesLeft = 1) (hlen : line.length = s.leff)
    (hbytes : cur + ops.length = s.d.length) (hw : s.d.drop cur = ops)
    (hrow : ∀ r, row = some r → rowUsed s.cfg.rowLenMode (s.d.length - s.cur) padLen = r) :
    (s.firstOp row padLen hdrTlen cur).AtOps ops line where
  running := hr
  decoding := hd
  ctx := rfl
  ready := hready.of_accSide rfl
  lastLine := hlast
  bytes := hbytes
  window := hw
  lacks := (Nat.zero_add _).trans hlen
  row := hrow

/-- The row length a padded stream declares is what the end of its line compares with (R204, R13). -/
theorem rowUsed_paddedStream (mode : RowLenMode) (n : Nat) :
    rowUsed mode (n + 2 + padLenFor n) (padLenFor n) = rowLenFor mode n := by
  cases mode with
  | total => rfl
  | unpadded => simp only [rowUsed, rowLenFor]; omega

/-- A line's step reaches its first opcode, and the rest of the stream is the opcodes of the line. -/
theorem exists_firstOp {bs : List Byte} (hl : PadLayout.Lawful s.cfg.padLayout) (hd : s.cfg.dir = .decode)
    (hr : s.runState = .run) (hc : s.ctx = .lhdr) (hready : s.PutReady) (hlast : s.linesLeft = 1)
    (hlen : line.length = s.leff) (hleff : 0 < s.leff) (henc : encodeLine s.cfg s.model line = .stream bs)
    (hbytes : s.cur + bs.length = s.d.length) (hw : s.d.drop s.cur = bs) :
    ∃ row padLen hdrTlen cur, step s = .next (s.firstOp row padLen hdrTlen cur) ∧
      (s.firstOp row padLen hdrTlen cur).AtOps (lineOps (runsOf line) []) line := by
  by_cases hm : s.model = .m3
  · obtain ⟨hrow, rfl⟩ := eq_of_encodeLine_m3 (hm ▸ henc)
    generalize lineOps (runsOf line) [] = ops at *
    have hpadLen := padLenFor_lt (ops.length + 1)
    have hpad : (BitVec.ofNat 2 (padLenFor (ops.length + 1))).toNat = padLenFor (ops.length + 1) :=
      (BitVec.toNat_ofNat ..).trans (Nat.mod_eq_of_lt hpadLen)
    have hrowLen : (BitVec.ofNat 14 (rowLenFor s.cfg.rowLenMode (ops.length + 1))).toNat =
        rowLenFor s.cfg.rowLenMode (ops.length + 1) :=
      (BitVec.toNat_ofNat ..).trans (Nat.mod_eq_of_lt (Nat.lt_succ_of_le hrow))
    rw [paddedStream_length] at hbytes
    rw [paddedStream_eq] at hw
    have hstep := step_paddedHeader hl hr hd hc hw hleff
    rw [hpad, hrowLen] at hstep
    refine ⟨_, _, _, _, hstep, State.firstOp_atOps hr hd hready hlast hlen (by omega) ?_ fun r hr => ?_⟩
    · rw [← List.drop_drop, ← List.drop_drop, ← List.drop_drop, hw]
      exact List.drop_left' (List.length_replicate.trans hpad)
    · have hused : s.d.length - s.cur = ops.length + 1 + 2 + padLenFor (ops.length + 1) := by omega
      rw [hused, rowUsed_paddedStream]
      exact Option.some.inj hr
  · cases eq_of_encodeLine_of_ne_m3 hm henc
    have hbyte : encodeLhdr s.cfg.padpBit true false 0 = 0x80 := by simp [encodeLhdr]
    rw [List.length_cons] at hbytes
    refine ⟨_, _, _, _, step_plainHeader hr hd hc (hbyte ▸ hw) hleff,
      State.firstOp_atOps hr hd hready hlast hlen (by omega) ?_ (by simp)⟩
    rw [← List.drop_drop, hw]
    rfl

end

/-- Settles O55: the line's first step reads its header, and the steps after it run its opcodes, which stand for the
line. -/
theorem lineRoundTrip : Obligations.LineRoundTrip := by
  intro s line bs hl hd hr hc hready hlast hlen henc hbytes hw
  have hleff : 0 < s.leff := by
    have := hready.wide
    rw [State.leff, lineLen]
    split <;> omega
  obtain ⟨row, padLen, hdrTlen, cur, hstep, hops⟩ :=
    exists_firstOp hl hd hr hc hready hlast hlen hleff henc hbytes hw
  have hstream := lineOps_runsOf_stream (encodable_of_encodeLine henc)
  obtain ⟨k, m, p, u, hrun, hput⟩ := hstream.run hops (List.ne_nil_of_length_pos (by omega))
  have hputLine := putAll_congr (s' := s) (s := s.firstOp row padLen hdrTlen cur) rfl hput
  exact ⟨k + 1, _, m, p, u, run_succ_of_step hstep hrun, hputLine, by simp [hr]⟩

end Sys2Proof.Machine

namespace Sys2Proof.Machine

/-! PROOFS. The line header and the pad header (R192 to R197): what the table load and the filler loop read when D holds
all their bytes and when it ends among them, and the tests around them. -/

/-! ### The dictionary table (R197) -/

/-- A write behind every cell appends its cell. -/
theorem Memory.write_of_forall_lt {m : Memory} {x : Nat} (b : Byte) (h : ∀ c ∈ m, c.1 < x) :
    m.write x b = m ++ [(x, b)] := by
  induction m with
  | nil => rfl
  | cons c m ih =>
    obtain ⟨a, v⟩ := c
    have ha : a < x := h (a, v) List.mem_cons_self
    have hm := ih fun c hc => h c (List.mem_cons_of_mem _ hc)
    rw [Memory.write, if_neg (Nat.lt_asymm ha), if_neg ha.ne, hm, List.cons_append]

theorem tableCells_lt {bs : List Byte} : ∀ c ∈ tableCells bs, c.1 < bs.length :=
  fun _ hc => List.mem_range.1 (List.of_mem_zip hc).1

/-- The next entry loaded. -/
theorem tableCells_write (bs : List Byte) (b : Byte) : (tableCells bs).write bs.length b = tableCells (bs ++ [b]) := by
  rw [Memory.write_of_forall_lt b tableCells_lt, tableCells, tableCells, List.length_append, List.length_singleton,
    List.range_succ, List.zip_append List.length_range]
  rfl

/-- A table load is the load of its first entries and then of the others. -/
theorem loadTable_add (i k n : Nat) (s : State) :
    loadTable i (k + n) s = (loadTable i k s).bind fun _ t => loadTable (i + k) n t := by
  induction k generalizing i s with
  | zero => rw [Nat.zero_add]; rfl
  | succ k ih =>
    have hi : i + (k + 1) = i + 1 + k := by omega
    rw [Nat.add_right_comm, loadTable, loadTable, Flow.bind_assoc, hi]
    simp only [ih]

/-- The table load when D holds its bytes. -/
theorem loadTable_of_le {n : Nat} {s : State} {bs : List Byte} (ht : s.tbl = tableCells bs)
    (h : s.cur + n ≤ s.d.length) : loadTable bs.length n s =
      .ok () { s with cur := s.cur + n, tbl := tableCells (bs ++ (s.d.drop s.cur).take n) } := by
  induction n generalizing s bs with
  | zero => simp [loadTable, ← ht]
  | succ n ih =>
    have hlt : s.cur < s.d.length := by omega
    have htbl : s.tbl.write bs.length s.d[s.cur] = tableCells (bs ++ [s.d[s.cur]]) := ht ▸ tableCells_write bs _
    have hnext := ih (s := { s with cur := s.cur + 1, tbl := s.tbl.write bs.length s.d[s.cur] })
      (bs := bs ++ [s.d[s.cur]]) htbl (by simp only; omega)
    rw [List.length_append, List.length_singleton] at hnext
    rw [loadTable, nextByte_of_lt hlt, Flow.bind_ok, List.drop_eq_getElem_cons hlt, List.take_succ_cons]
    refine hnext.trans ?_
    simp [Nat.add_assoc, Nat.add_comm 1 n]

theorem loadTable_of_ge {i n : Nat} {s : State} (h : s.d.length ≤ s.cur) :
    loadTable i (n + 1) s = .raised (s.raise (.lineTrunc s.cur)) := by
  rw [loadTable, nextByte_of_ge h, Flow.bind_raised]

/-- The table load when D ends among its bytes: the entries that are there are loaded. -/
theorem loadTable_truncated {n : Nat} {s : State} (ht : s.tbl = []) (hcur : s.cur ≤ s.d.length)
    (h : s.d.length < s.cur + n) : loadTable 0 n s = .raised (State.raise (.lineTrunc s.d.length)
      { s with cur := s.d.length, tbl := tableCells (s.d.drop s.cur) }) := by
  obtain ⟨k, hk⟩ := Nat.exists_eq_add_of_le hcur
  obtain ⟨j, rfl⟩ : ∃ j, n = k + (j + 1) := ⟨n - k - 1, by omega⟩
  have hload := loadTable_of_le (s := s) (bs := []) ht hk.ge
  rw [← hk, List.nil_append, List.take_of_length_le (by simp; omega)] at hload
  rw [loadTable_add]
  exact (congrArg (Flow.bind · _) hload).trans (loadTable_of_ge (Nat.le_refl _))

/-! ### From the table-length test to the first opcode (R192, R196, R197) -/

theorem startOps_of_gt {n : Nat} {s : State} (h : 16 < n) : startOps n s = .raised (s.raise (.tableLen n)) := by
  rcases startOps_cases n s with ⟨-, e⟩ | ⟨hle, -⟩
  · exact e
  · omega

theorem startOps_of_le {n : Nat} {s : State} (h : n ≤ 16) : startOps n s =
    (loadTable 0 n { s with tlen := n, tbl := [] }).bind fun _ t => opLoop { t with produced := 0 } := by
  rcases startOps_cases n s with ⟨hgt, -⟩ | ⟨-, e⟩
  · omega
  · exact e

theorem startOps_of_loaded {n : Nat} {s : State} (hn : n ≤ 16) (h : s.cur + n ≤ s.d.length) (hleff : 0 < s.leff) :
    startOps n s = .ok () { s with
      cur := s.cur + n
      tlen := n
      tbl := tableCells ((s.d.drop s.cur).take n)
      produced := 0
      ctx := .op } := by
  have hload := loadTable_of_le (s := { s with tlen := n, tbl := [] }) (bs := []) rfl h
  rw [startOps_of_le hn]
  exact (congrArg (Flow.bind · _) hload).trans (if_pos hleff)

theorem startOps_truncated {n : Nat} {s : State} (hn : n ≤ 16) (hcur : s.cur ≤ s.d.length)
    (h : s.d.length < s.cur + n) : startOps n s = .raised (State.raise (.lineTrunc s.d.length)
      { s with cur := s.d.length, tlen := n, tbl := tableCells (s.d.drop s.cur) }) := by
  have hload := loadTable_truncated (s := { s with tlen := n, tbl := [] }) rfl hcur h
  rw [startOps_of_le hn]
  exact congrArg (Flow.bind · _) hload

/-! ### The header byte (R192, R193) -/

/-- `s` once the header byte is read. -/
def State.lhdrRead (s : State) (present : Bool) : State :=
  { s with
    lstart := s.cur
    padRow := none
    padLen := 0
    cur := s.cur + 1
    warns := if present then s.warns else s.warns.raise .lineFlag }

theorem execLhdr_plain (s : State) (present : Bool) (tlen : BitVec 7) :
    execLhdr present false tlen s = (startOps tlen.toNat (s.lhdrRead present)).outcome := by cases present <;> rfl

/-- With padding the header's table length waits for the pad header. -/
theorem State.awaitPadhdr_eq (s : State) (present : Bool) (tlen : BitVec 7) :
    s.awaitPadhdr present tlen = { s.lhdrRead present with hdrTlen := tlen.toNat, ctx := .padhdr } := by
  cases present <;> rfl

/-- Settles O20: without padding the table load and the loop's test follow the header byte, with padding nothing
does. -/
theorem lhdrStartsTheLine : Obligations.LhdrStartsTheLine := by
  refine ⟨fun s present tlen hn hd hleff => ?_, fun s present tlen => ?_⟩
  · have hstart := startOps_of_loaded (s := s.lhdrRead present) hn hd hleff
    rw [exec, execLhdr_plain, hstart]
    rfl
  · rw [exec, execLhdr_padded, State.awaitPadhdr_eq]
    rfl

/-! ### The pad header and its filler (R194) -/

/-- The warnings after a run of filler bytes: one W_PAD for each that is not 0xFF. -/
def fillerWarns (filler : List Byte) (ws : Warnings) : Warnings :=
  (fun ws => Warnings.raise ws .pad)^[(filler.filter (· ≠ 0xFF)).length] ws

theorem fillerWarns_cons (x : Byte) (filler : List Byte) (ws : Warnings) :
    fillerWarns (x :: filler) ws = fillerWarns filler (if decide (x ≠ 0xFF) then ws.raise .pad else ws) := by
  rw [fillerWarns, List.filter_cons]
  split
  · rfl
  · rfl

/-- The filler loop reads its first bytes and then the others. -/
theorem readFiller_add (k n : Nat) (s : State) :
    readFiller (k + n) s = (readFiller k s).bind fun _ t => readFiller n t := by
  induction k generalizing s with
  | zero => rw [Nat.zero_add]; rfl
  | succ k ih =>
    rw [Nat.add_right_comm, readFiller, readFiller, Flow.bind_assoc]
    simp only [ih]

/-- The filler loop when D holds its bytes. A loop of no byte reads nothing wherever the cursor is. -/
theorem readFiller_of_le {n : Nat} {s : State} (h : n = 0 ∨ s.cur + n ≤ s.d.length) : readFiller n s =
    .ok () { s with cur := s.cur + n, warns := fillerWarns ((s.d.drop s.cur).take n) s.warns } := by
  induction n generalizing s with
  | zero => rfl
  | succ n ih =>
    have hlt : s.cur < s.d.length := by omega
    have hnext := ih (s := (s.setCur (s.cur + 1)).warnIf (decide (s.d[s.cur] ≠ 0xFF)) .pad)
      (.inr (by simp only [State.warnIf_cur, State.warnIf_d, State.setCur_cur, State.setCur_d]; omega))
    obtain ⟨ws, e⟩ := State.warnIf_eq (decide (s.d[s.cur] ≠ 0xFF)) .pad (s.setCur (s.cur + 1))
    have hws : (if decide (s.d[s.cur] ≠ 0xFF) then s.warns.raise .pad else s.warns) = ws := by
      rw [← State.setCur_warns (s.cur + 1) s, ← State.warnIf_warns, e]
    rw [readFiller, nextByte_of_lt hlt, Flow.bind_ok, hnext, List.drop_eq_getElem_cons hlt, List.take_succ_cons,
      fillerWarns_cons, hws, e]
    simp [State.setCur, Nat.add_assoc, Nat.add_comm 1 n]

theorem readFiller_of_ge {n : Nat} {s : State} (h : s.d.length ≤ s.cur) :
    readFiller (n + 1) s = .raised (s.raise (.lineTrunc s.cur)) := by
  rw [readFiller, nextByte_of_ge h, Flow.bind_raised]

/-- The filler loop when D ends among its bytes: those that are there are checked. -/
theorem readFiller_truncated {n : Nat} {s : State} (hcur : s.cur ≤ s.d.length) (h : s.d.length < s.cur + n) :
    readFiller n s = .raised (State.raise (.lineTrunc s.d.length)
      { s with cur := s.d.length, warns := fillerWarns (s.d.drop s.cur) s.warns }) := by
  obtain ⟨k, hk⟩ := Nat.exists_eq_add_of_le hcur
  obtain ⟨j, rfl⟩ : ∃ j, n = k + (j + 1) := ⟨n - k - 1, by omega⟩
  have hfill := readFiller_of_le (s := s) (.inr hk.ge)
  rw [← hk, List.take_of_length_le (by simp; omega)] at hfill
  rw [readFiller_add, hfill]
  exact readFiller_of_ge (Nat.le_refl _)

/-- `s` once the pad header and its filler are read. -/
def State.padhdrRead (s : State) (p : BitVec 2) (r : BitVec 14) : State :=
  { s with
    padRow := some r.toNat
    padLen := p.toNat
    cur := s.cur + 2 + p.toNat
    warns := fillerWarns ((s.d.drop (s.cur + 2)).take p.toNat) s.warns }

/-- Behind its filler a pad header goes on as a line header without padding does. -/
theorem execPadhdr_of_filler {s : State} {p : BitVec 2} (r : BitVec 14)
    (h : p = 0 ∨ s.cur + 2 + p.toNat ≤ s.d.length) :
    execPadhdr p r s = (startOps s.hdrTlen (s.padhdrRead p r)).outcome := by
  have hfill := readFiller_of_le (n := p.toNat)
    (s := { s with padRow := some r.toNat, padLen := p.toNat, cur := s.cur + 2 })
    (h.imp_left (congrArg BitVec.toNat))
  rw [execPadhdr, hfill]
  rfl

/-- Settles O21: the filler, the table load and the loop's test. -/
theorem padHeaderReadsItsFiller : Obligations.PadHeaderReadsItsFiller := by
  intro s p r hn hd hleff
  have hstart := startOps_of_loaded (s := s.padhdrRead p r) hn hd hleff
  rw [exec, execPadhdr_of_filler r (.inr (by omega)), hstart]
  rfl

/-! ### A table length above 16 (R196) -/

/-- A block-fatal fault inside a line (R283, R284). -/
theorem State.raise_in_line {s : State} {t : Trap} (hr : s.runState = .run) (hd : s.cfg.dir = .decode)
    (hc : s.ctx ≠ .frame) (ht : t.runFatal = false) : s.raise t =
      { s with
        fcode := t.code
        finfo := some t
        fpos := .decode s.ip (some s.cur)
        fblk := s.nblk - 1
        nblkFatal := s.nblkFatal + 1
        ctx := .frame } := by
  simp [State.raise, State.recordFault, State.faultPos, State.resumeLoop, hr, hd, hc, ht]

/-- Settles O22: the test stands before the table load, behind the header byte or behind the filler. -/
theorem tableLengthAboveSixteenEndsTheBlock : Obligations.TableLengthAboveSixteenEndsTheBlock := by
  refine ⟨fun s present tlen hn hr hd hc => ?_, fun s p r hn hr hd hc hfill => ?_⟩
  · have hraise := State.raise_in_line (s := s.lhdrRead present) (t := .tableLen tlen.toNat) hr hd
      (by simp [State.lhdrRead, hc]) rfl
    rw [exec, execLhdr_plain, startOps_of_gt hn, hraise]
    rfl
  · have hraise := State.raise_in_line (s := s.padhdrRead p r) (t := .tableLen s.hdrTlen) hr hd
      (by simp [State.padhdrRead, hc]) rfl
    rw [exec, execPadhdr_of_filler r hfill, startOps_of_gt hn, hraise]
    rfl

end Sys2Proof.Machine

namespace Sys2Proof.Machine

/-! PROOFS. The opcodes (R198 to R203): each is the puts of the bytes it stands for, and then PRODUCED, the
opcode loop's test and the end of the line. -/

/-! ### One byte put (R205, R68) -/

/-- Settles O29: the last put of a buffer flushes it, since a ready buffer refuses no put. -/
theorem putByteWritesOneByte : Obligations.PutByteWritesOneByte := by
  refine fun s v hs => ⟨fun hlt => ⟨_, putByte_of_lt v hlt, fun a => Memory.read_write _ _ a v⟩, fun hfull => ?_⟩
  obtain ⟨m, p, u, hput, -⟩ := hs.putByte v
  rcases putByte_cases v s with ⟨-, hne, -⟩ | ⟨unit, -, -, hunit, e⟩ | ⟨-, -, -, e⟩ | ⟨-, e⟩
  · exact absurd hfull hne
  · refine ⟨unit, e, Memory.readAll_length hunit, fun a ha => ?_⟩
    rw [Memory.readAll_get hunit a ha, Nat.zero_add, Memory.read_write]
  · cases e.symm.trans hput
  · cases e.symm.trans hput

/-! ### What follows an opcode's puts (R198, R204) -/

theorem endLine_of_ne {s : State} (h : s.produced ≠ s.leff) :
    endLine s = .raised (s.raise (.lineLen s.produced s.leff)) := if_pos h

theorem endLine_of_eq {s : State} (h : s.produced = s.leff) :
    endLine s = .ok () (linesLoop { s.warnIf (rowMismatch s) .pad with linesLeft := s.linesLeft - 1 }) := by
  rw [endLine, if_neg (not_not.2 h), ← State.warnIf_linesLeft (rowMismatch s) .pad s]

theorem opLoop_of_lt {s : State} (h : s.produced < s.leff) : opLoop s = .ok () { s with ctx := .op } := if_pos h

theorem opLoop_of_ge {s : State} (h : s.leff ≤ s.produced) : opLoop s = endLine s := if_neg (Nat.not_lt.2 h)

/-- An instruction that puts `bs` into a ready buffer and then adds n to PRODUCED: below L_eff the next opcode follows,
at L_eff the line ends, above it F_LINE_LEN is raised. -/
theorem exec_puts_then_counts {s : State} {i : Instr} {bs : List Byte} {cur n : Nat} (hs : s.PutReady)
    (h : exec i s = ((putAll bs s).bind fun _ t => addProduced n (t.setCur cur)).outcome) :
    ∃ m p u, putAll bs s = .ok () (s.withPut m p (s.sink ++ u)) ∧
      (s.produced + n < s.leff → exec i s = .next { s.opDone m p u cur (s.produced + n) with ctx := .op }) ∧
      (s.produced + n = s.leff → ∃ t, endLine (s.opDone m p u cur (s.produced + n)) = .ok () t ∧
        exec i s = .next t) ∧
      (s.leff < s.produced + n → exec i s =
        .next ((s.opDone m p u cur (s.produced + n)).raise (.lineLen (s.produced + n) s.leff))) := by
  obtain ⟨m, p, u, hput, -⟩ := hs.putAll bs
  have hexec : exec i s = (opLoop (s.opDone m p u cur (s.produced + n))).outcome := by rw [h, hput]; rfl
  refine ⟨m, p, u, hput, fun hlt => ?_, fun heq => ?_, fun hgt => ?_⟩
  · rw [hexec, opLoop_of_lt hlt, Flow.outcome_ok]
  · have hend := endLine_of_eq (s := s.opDone m p u cur (s.produced + n)) heq
    exact ⟨_, hend, by rw [hexec, opLoop_of_ge heq.ge, hend, Flow.outcome_ok]⟩
  · have hend := endLine_of_ne (s := s.opDone m p u cur (s.produced + n)) hgt.ne'
    rw [hexec, opLoop_of_ge hgt.le, hend, Flow.outcome_raised]
    rfl

/-- What follows some puts runs in a state that differs from theirs in ACC, ACCPOS and SINK only. -/
theorem putAll_bind_congr {α : Type} {bs : List Byte} {s : State} {k l : Unit → State → Flow α}
    (h : ∀ m p u, k () (s.withPut m p u) = l () (s.withPut m p u)) : (putAll bs s).bind k = (putAll bs s).bind l := by
  rcases hput : putAll bs s with ⟨_, t⟩ | t | f | r
  · obtain ⟨m, p, u, rfl⟩ := putAll_ok hput
    exact h m p _
  · rfl
  · rfl
  · rfl

/-- A move of `cur` before some puts is as well made after them. -/
theorem putAll_setCur_bind {α : Type} (bs : List Byte) (s : State) (c : Nat) (k : Unit → State → Flow α) :
    (putAll bs (s.setCur c)).bind k = (putAll bs s).bind fun _ t => k () (t.setCur c) := by
  rw [putAll_setCur, Flow.bind_assoc]
  rfl

theorem putByte_bind {α : Type} (b : Byte) (s : State) (k : Unit → State → Flow α) :
    (putByte b s).bind k = (putAll [b] s).bind k := by
  rw [putAll_cons, Flow.bind_assoc]
  rfl

/-! ### RAW (R199) -/

/-- RAW's loop puts its first bytes and then the others. -/
theorem putLiterals_add (k n : Nat) (s : State) :
    putLiterals (k + n) s = (putLiterals k s).bind fun _ t => putLiterals n t := by
  induction k generalizing s with
  | zero => rw [Nat.zero_add]; rfl
  | succ k ih =>
    rw [Nat.add_right_comm]
    simp only [putLiterals, Flow.bind_assoc, ih]

/-- RAW once the first k of its literals are put. -/
theorem exec_raw_after {s : State} {fld : BitVec 6} (k n : Nat) (hn : fld.toNat + 1 = k + n)
    (h : s.cur + 1 + k ≤ s.d.length) : exec (.raw fld) s =
      ((putAll ((s.d.drop (s.cur + 1)).take k) s).bind fun _ t =>
        (putLiterals n (t.setCur (s.cur + 1 + k))).bind fun _ t' => addProduced (k + n) t').outcome := by
  rw [exec, execRaw, rawCount, hn, putLiterals_add, putLiterals_eq h, State.pastOpcode, putAll_setCur_bind,
    Flow.bind_assoc, Flow.bind_assoc]
  rfl

theorem exec_raw_of_le {s : State} {fld : BitVec 6} {n : Nat} (hn : n = fld.toNat + 1)
    (h : s.cur + 1 + n ≤ s.d.length) : exec (.raw fld) s =
      ((putAll ((s.d.drop (s.cur + 1)).take n) s).bind fun _ t =>
        addProduced n (t.setCur (s.cur + 1 + n))).outcome :=
  exec_raw_after n 0 hn.symm h

/-- Settles O23: with all its literals in D, RAW is their puts and then the count. -/
theorem rawPutsItsLiterals : Obligations.RawPutsItsLiterals :=
  fun _ _ _ hs hn hd => exec_puts_then_counts hs (exec_raw_of_le hn hd)

/-! ### REP and LREP (R202, R203) -/

/-- The shared form of the two: the value byte, n puts of it, PRODUCED. -/
theorem repeatByte_of_value {s : State} {v : Byte} (h : s.d[s.cur + 1]? = some v) (n : Nat) :
    repeatByte n s.pastOpcode =
      (putAll (List.replicate n v) s).bind fun _ t => addProduced n (t.setCur (s.cur + 2)) := by
  obtain ⟨hlt, rfl⟩ := List.getElem?_eq_some_iff.1 h
  refine repeatByte_pastOpcode (op := s.d[s.cur]) (rest := s.d.drop (s.cur + 2)) ?_ n
  rw [List.drop_eq_getElem_cons (Nat.lt_of_succ_lt hlt), List.drop_eq_getElem_cons hlt]

/-- Settles O25: the two opcodes differ in the number of copies alone. -/
theorem repeatsPutTheirByte : Obligations.RepeatsPutTheirByte := by
  rintro s fld v i n hs hv (⟨rfl, rfl⟩ | ⟨rfl, rfl⟩)
  · exact exec_puts_then_counts hs (congrArg Flow.outcome (repeatByte_of_value hv _))
  · exact exec_puts_then_counts hs (congrArg Flow.outcome (repeatByte_of_value hv _))

/-! ### The nibbles of an index byte (R106, R200) -/

theorem highNibble_eq (x : Byte) : highNibble x = x.toNat / 16 := by
  have hx := x.isLt
  simp only [highNibble, BitVec.extractLsb'_toNat, Nat.shiftRight_eq_div_pow]
  omega

theorem lowNibble_eq (x : Byte) : lowNibble x = x.toNat % 16 := by
  simp [lowNibble, BitVec.extractLsb'_toNat]

theorem firstIndex_eq (c : Cfg) (x : Byte) :
    firstIndex c x = if c.tblHighFirst then x.toNat / 16 else x.toNat % 16 := by
  rw [firstIndex, highNibble_eq, lowNibble_eq]

theorem secondIndex_eq (c : Cfg) (x : Byte) :
    secondIndex c x = if c.tblHighFirst then x.toNat % 16 else x.toNat / 16 := by
  rw [secondIndex, highNibble_eq, lowNibble_eq]

/-- What one index byte looks up, in the order of its two nibbles. -/
theorem State.lookups_cons (s : State) (x : Byte) (xs : List Byte) : s.lookups (x :: xs) =
    [s.tableByte (firstIndex s.cfg x), s.tableByte (secondIndex s.cfg x)] ++ s.lookups xs := by
  rw [firstIndex_eq, secondIndex_eq, State.lookups, List.flatMap_cons, ← State.lookups]
  split
  · rfl
  · rfl

/-- Both nibbles of a good index byte name entries of T. -/
theorem State.indexed_cons {s : State} {x : Byte} {xs : List Byte} (h : s.indexed (x :: xs)) :
    (firstIndex s.cfg x < s.tlen ∧ secondIndex s.cfg x < s.tlen) ∧ s.indexed xs := by
  obtain ⟨⟨hhigh, hlow⟩, hxs⟩ := List.forall_mem_cons.1 h
  rw [firstIndex_eq, secondIndex_eq]
  split
  · exact ⟨⟨hhigh, hlow⟩, hxs⟩
  · exact ⟨⟨hlow, hhigh⟩, hxs⟩

/-! ### TBL (R200, R201) -/

theorem tRead_of_loaded {s : State} {i : Nat} (ht : s.tableLoaded) (hi : i < s.tlen) :
    tRead i s = .ok (s.tableByte i) s := by
  obtain ⟨b, hb⟩ := Option.isSome_iff_exists.1 (ht i hi)
  simp [tRead, State.tableByte, hi, hb]

theorem tRead_of_ge {s : State} {i : Nat} (hi : s.tlen ≤ i) : tRead i s = .raised (s.raise (.tableIndex i)) :=
  if_neg (Nat.not_lt.2 hi)

/-- The index loop handles its first bytes and then the others. -/
theorem putLookups_add (k n : Nat) (s : State) :
    putLookups (k + n) s = (putLookups k s).bind fun _ t => putLookups n t := by
  induction k generalizing s with
  | zero => rw [Nat.zero_add]; rfl
  | succ k ih =>
    rw [Nat.add_right_comm]
    simp only [putLookups, Flow.bind_assoc, ih]

section
variable {s : State} {x : Byte} {n : Nat}

/-- An index byte whose first nibble names no entry. -/
theorem putLookups_first_bad (hx : s.d[s.cur]? = some x) (hbad : s.tlen ≤ firstIndex s.cfg x) :
    putLookups (n + 1) s = .raised ((s.setCur (s.cur + 1)).raise (.tableIndex (firstIndex s.cfg x))) := by
  have hnext : nextByte s = .ok x (s.setCur (s.cur + 1)) := by rw [nextByte, hx]
  have hread := tRead_of_ge (s := s.setCur (s.cur + 1)) hbad
  rw [putLookups, hnext, Flow.bind_ok, State.setCur_cfg, hread, Flow.bind_raised]

/-- An index byte whose first nibble names an entry: its byte is put, and the second nibble is looked up. -/
theorem putLookups_first_good (ht : s.tableLoaded) (hx : s.d[s.cur]? = some x) (hgood : firstIndex s.cfg x < s.tlen) :
    putLookups (n + 1) s = (putAll [s.tableByte (firstIndex s.cfg x)] s).bind fun _ t =>
      (tRead (secondIndex s.cfg x) (t.setCur (s.cur + 1))).bind fun b t' =>
        (putAll [b] t').bind fun _ t'' => putLookups n t'' := by
  have hnext : nextByte s = .ok x (s.setCur (s.cur + 1)) := by rw [nextByte, hx]
  have hread := tRead_of_loaded (s := s.setCur (s.cur + 1)) ht hgood
  simp only [putLookups, hnext, Flow.bind_ok, State.setCur_cfg, hread, putByte_bind, putAll_setCur_bind]
  exact putAll_bind_congr fun _ _ _ => rfl

/-- An index byte whose second nibble alone names no entry. -/
theorem putLookups_second_bad (ht : s.tableLoaded) (hx : s.d[s.cur]? = some x) (hgood : firstIndex s.cfg x < s.tlen)
    (hbad : s.tlen ≤ secondIndex s.cfg x) :
    putLookups (n + 1) s = (putAll [s.tableByte (firstIndex s.cfg x)] s).bind fun _ t =>
      .raised ((t.setCur (s.cur + 1)).raise (.tableIndex (secondIndex s.cfg x))) := by
  rw [putLookups_first_good ht hx hgood]
  refine putAll_bind_congr fun m p u => ?_
  have hread := tRead_of_ge (s := (s.withPut m p u).setCur (s.cur + 1)) hbad
  rw [hread, Flow.bind_raised]

/-- An index byte whose nibbles both name entries: their bytes are put. -/
theorem putLookups_good (ht : s.tableLoaded) (hx : s.d[s.cur]? = some x) (hfirst : firstIndex s.cfg x < s.tlen)
    (hsecond : secondIndex s.cfg x < s.tlen) : putLookups (n + 1) s =
      (putAll [s.tableByte (firstIndex s.cfg x), s.tableByte (secondIndex s.cfg x)] s).bind fun _ t =>
        putLookups n (t.setCur (s.cur + 1)) := by
  have hpair := putAll_append [s.tableByte (firstIndex s.cfg x)] [s.tableByte (secondIndex s.cfg x)] s
  rw [List.singleton_append] at hpair
  rw [putLookups_first_good ht hx hfirst, hpair, Flow.bind_assoc]
  refine putAll_bind_congr fun m p u => ?_
  have hread := tRead_of_loaded (s := (s.withPut m p u).setCur (s.cur + 1)) ht hsecond
  rw [hread, Flow.bind_ok, putAll_setCur_bind]
  rfl

end

/-- The index loop when D holds its bytes and each of them names entries of T. -/
theorem putLookups_eq {n : Nat} {s : State} (ht : s.tableLoaded) (h : s.cur + n ≤ s.d.length)
    (hi : s.indexed ((s.d.drop s.cur).take n)) : putLookups n s =
      (putAll (s.lookups ((s.d.drop s.cur).take n)) s).bind fun _ t => .ok () (t.setCur (s.cur + n)) := by
  induction n generalizing s with
  | zero => rfl
  | succ n ih =>
    have hlt : s.cur < s.d.length := by omega
    rw [List.drop_eq_getElem_cons hlt, List.take_succ_cons] at hi ⊢
    obtain ⟨⟨hfirst, hsecond⟩, hrest⟩ := State.indexed_cons hi
    rw [putLookups_good ht (List.getElem?_eq_getElem hlt) hfirst hsecond, State.lookups_cons, putAll_append,
      Flow.bind_assoc]
    refine putAll_bind_congr fun m p u => ?_
    have hnext := ih (s := (s.withPut m p u).setCur (s.cur + 1)) ht (by simp; omega) hrest
    rw [hnext, putAll_setCur_bind, Nat.add_comm n 1, ← Nat.add_assoc]
    rfl

/-- TBL once the first k of its index bytes are handled, each of which names entries of T. -/
theorem exec_tbl_after {s : State} {fld : BitVec 6} (k n : Nat) (ht : s.tableLoaded)
    (hn : fld.toNat + s.cfg.tblBias.val = k + n) (h : s.cur + 1 + k ≤ s.d.length)
    (hi : s.indexed ((s.d.drop (s.cur + 1)).take k)) : exec (.tbl fld) s =
      ((putAll (s.lookups ((s.d.drop (s.cur + 1)).take k)) s).bind fun _ t =>
        (putLookups n (t.setCur (s.cur + 1 + k))).bind fun _ t' => addProduced (2 * (k + n)) t').outcome := by
  have hloop := putLookups_eq (s := s.pastOpcode) ht h hi
  rw [State.pastOpcode, putAll_setCur_bind] at hloop
  rw [exec, execTbl, tblCount, hn, putLookups_add, State.pastOpcode, hloop, Flow.bind_assoc, Flow.bind_assoc]
  rfl

theorem exec_tbl_of_le {s : State} {fld : BitVec 6} {n : Nat} {xs : List Byte} (ht : s.tableLoaded)
    (hn : n = fld.toNat + s.cfg.tblBias.val) (h : s.cur + 1 + n ≤ s.d.length)
    (hxs : xs = (s.d.drop (s.cur + 1)).take n) (hi : s.indexed xs) : exec (.tbl fld) s =
      ((putAll (s.lookups xs) s).bind fun _ t => addProduced (2 * n) (t.setCur (s.cur + 1 + n))).outcome := by
  subst hxs
  exact exec_tbl_after n 0 ht hn.symm h hi

/-- Settles O24: with all its index bytes in D and good, TBL is the puts of their lookups and then the count. -/
theorem tblPutsItsLookups : Obligations.TblPutsItsLookups :=
  fun _ _ _ _ hs ht hn hd hxs hi => exec_puts_then_counts hs (exec_tbl_of_le ht hn hd hxs hi)

end Sys2Proof.Machine

namespace Sys2Proof.Machine

/-! PROOFS. How a line ends: with its warnings and the line loop's test (R204, R190), in a table index out of range
(R201), or where D ends (R191). -/

/-! ### The end of a line (R204, R190) -/

theorem State.warnIf_eq_warnUnless (b : Bool) (k : Warning) (s : State) :
    s.warnIf b k = { s with warns := warnUnless (!b) k s.warns } := by
  cases b <;> rfl

theorem rowUsed_eq (mode : RowLenMode) (used padLen : Nat) :
    rowUsed mode used padLen = if mode = .total then used else used - 2 - padLen := by
  cases mode <;> rfl

/-- The row length of a line with a pad header is compared with the bytes used. -/
theorem rowMismatch_iff {s : State} {used : Nat}
    (hused : used = rowUsed s.cfg.rowLenMode (s.cur - s.lstart) s.padLen) :
    rowMismatch s = true ↔ s.padRow ≠ none ∧ s.padRow ≠ some used := by
  subst hused
  cases hrow : s.padRow with
  | none => simp [rowMismatch, hrow]
  | some r => simpa [rowMismatch, hrow] using ne_comm

/-- A line that produced L_eff bytes: the two warnings it can raise, and where the line loop goes. -/
theorem endLine_eq {s : State} (h : s.produced = s.leff) : endLine s = .ok () { s with
    linesLeft := s.linesLeft - 1
    ctx := if s.linesLeft ≤ 1 then .frame else .lhdr
    warns := warnUnless (!decide (s.linesLeft ≤ 1 ∧ s.cur < s.d.length)) .trailing
      (warnUnless (!rowMismatch s) .pad s.warns) } := by
  rw [endLine_of_eq h, State.warnIf_eq_warnUnless]
  rcases Nat.lt_or_ge 1 s.linesLeft with hmore | hlast
  · have hne : s.linesLeft - 1 ≠ 0 := by omega
    simp [linesLoop, hne, Nat.not_le.2 hmore, warnUnless]
  · have hzero : s.linesLeft - 1 = 0 := by omega
    simp [linesLoop, endData, State.resumeLoop, State.warnIf_eq_warnUnless, hzero, hlast]

/-- The register of a warning raised exactly when P holds. -/
theorem warnUnless_get_raisedBy {b : Bool} {P : Prop} [Decidable P] (h : b = true ↔ P) (k : Warning) (ws : Warnings) :
    (warnUnless (!b) k ws).get k = (ws.get k).raisedBy (if P then 1 else 0) := by
  rw [warnUnless_get_same]
  by_cases hp : P
  · simp [h.2 hp, hp, WarnReg.raised, WarnReg.raisedBy]
  · simp [Bool.eq_false_iff.2 (mt h.1 hp), hp, WarnReg.raisedBy]

/-- Settles O26: the two checks at the end of a line write a warning register each. -/
theorem lineEndCountsDown : Obligations.LineEndCountsDown := by
  refine ⟨fun s used hprod hused => ⟨_, endLine_eq hprod, ?_, ?_, fun k hpad htrailing => ?_⟩, fun s => endLine_of_ne⟩
  · have hrow := rowMismatch_iff (hused.trans (rowUsed_eq ..).symm)
    exact (warnUnless_get_of_ne (by decide) _ _).trans (warnUnless_get_raisedBy hrow .pad s.warns)
  · have hpad : (warnUnless (!rowMismatch s) .pad s.warns).get .trailing = s.warns.trailing :=
      warnUnless_get_of_ne (by decide) _ _
    exact hpad ▸ warnUnless_get_raisedBy decide_eq_true_iff .trailing _
  · rw [warnUnless_get_of_ne htrailing, warnUnless_get_of_ne hpad]

/-! ### A table index out of range (R201) -/

/-- Settles O27: the lookups of the index bytes before the bad one are put, and the bad one's first nibble faults, or
its second behind the put of the first. -/
theorem tableIndexOutOfRangeFaults : Obligations.TableIndexOutOfRangeFaults := by
  intro s fld k first second xs x hs ht hk hx hxs hi hfirst hsecond
  rw [← firstIndex_eq] at hfirst
  rw [← secondIndex_eq] at hsecond
  subst hxs hfirst hsecond
  obtain ⟨hlt, -⟩ := List.getElem?_eq_some_iff.1 hx
  obtain ⟨j, hj⟩ := Nat.exists_eq_add_of_lt hk
  have hexec := exec_tbl_after k (j + 1) ht hj hlt.le hi
  obtain ⟨m, p, u, hput, hready⟩ := hs.putAll (s.lookups ((s.d.drop (s.cur + 1)).take k))
  have hcur : s.cur + 2 + k = s.cur + 1 + k + 1 := by omega
  rw [hput, Flow.bind_ok] at hexec
  refine ⟨fun hbad => ⟨_, hput, ?_⟩, fun hgood hbad => ?_⟩
  · have hloop := putLookups_first_bad (s := (s.withPut m p (s.sink ++ u)).setCur (s.cur + 1 + k)) (n := j) hx hbad
    rw [hexec, hloop, hcur]
    rfl
  · have hloop := putLookups_second_bad (s := (s.withPut m p (s.sink ++ u)).setCur (s.cur + 1 + k)) (n := j) ht hx
      hgood hbad
    obtain ⟨m', p', u', hput', -⟩ := hready.putAll [s.tableByte (firstIndex s.cfg x)]
    refine ⟨_, by rw [putAll_append, hput, Flow.bind_ok, hput'], ?_⟩
    rw [putAll_setCur_bind] at hloop
    have hloop := hloop.trans (congrArg (Flow.bind · _) hput')
    rw [hexec, hloop, hcur]
    rfl

/-! ### D ends inside an opcode (R191) -/

section
variable {s : State} {n : Nat}

theorem putLiterals_of_ge (h : s.d.length ≤ s.cur) :
    putLiterals (n + 1) s = .raised (s.raise (.lineTrunc s.cur)) := by
  rw [putLiterals, nextByte_of_ge h, Flow.bind_raised]

theorem putLookups_of_ge (h : s.d.length ≤ s.cur) :
    putLookups (n + 1) s = .raised (s.raise (.lineTrunc s.cur)) := by
  rw [putLookups, nextByte_of_ge h, Flow.bind_raised]

theorem repeatByte_of_ge (h : s.d.length ≤ s.cur) : repeatByte n s = .raised (s.raise (.lineTrunc s.cur)) := by
  rw [repeatByte, nextByte_of_ge h, Flow.bind_raised]

end

section
variable {s : State} {fld : BitVec 6}

/-- How many of an opcode's n operand bytes are there when D ends among them. -/
theorem exists_operands_left {n : Nat} (hcur : s.cur < s.d.length) (h : s.d.length < s.cur + 1 + n) :
    ∃ k j, n = k + (j + 1) ∧ s.cur + 1 + k = s.d.length ∧ (s.d.drop (s.cur + 1)).take k = s.d.drop (s.cur + 1) := by
  obtain ⟨k, hk⟩ := Nat.exists_eq_add_of_le (Nat.succ_le_of_lt hcur)
  refine ⟨k, n - k - 1, by omega, hk.symm, List.take_of_length_le ?_⟩
  rw [List.length_drop]
  omega

theorem exec_raw_truncated (hs : s.PutReady) (hcur : s.cur < s.d.length)
    (h : s.d.length < s.cur + 1 + (fld.toNat + 1)) : ∃ t, putAll (s.d.drop (s.cur + 1)) s = .ok () t ∧
      exec (.raw fld) s = .next ((t.setCur s.d.length).raise (.lineTrunc s.d.length)) := by
  obtain ⟨k, j, hn, hk, htake⟩ := exists_operands_left hcur h
  have hexec := exec_raw_after k (j + 1) hn hk.le
  obtain ⟨m, p, u, hput, -⟩ := hs.putAll (s.d.drop (s.cur + 1))
  have hend := putLiterals_of_ge (s := (s.withPut m p (s.sink ++ u)).setCur s.d.length) (n := j) (Nat.le_refl _)
  rw [htake, hput, Flow.bind_ok, hk, hend] at hexec
  exact ⟨_, hput, hexec⟩

theorem exec_tbl_truncated (hs : s.PutReady) (hcur : s.cur < s.d.length)
    (h : s.d.length < s.cur + 1 + (fld.toNat + s.cfg.tblBias.val)) (ht : s.tableLoaded)
    (hi : s.indexed (s.d.drop (s.cur + 1))) : ∃ t, putAll (s.lookups (s.d.drop (s.cur + 1))) s = .ok () t ∧
      exec (.tbl fld) s = .next ((t.setCur s.d.length).raise (.lineTrunc s.d.length)) := by
  obtain ⟨k, j, hn, hk, htake⟩ := exists_operands_left hcur h
  have hexec := exec_tbl_after k (j + 1) ht hn hk.le (htake.symm ▸ hi)
  obtain ⟨m, p, u, hput, -⟩ := hs.putAll (s.lookups (s.d.drop (s.cur + 1)))
  have hend := putLookups_of_ge (s := (s.withPut m p (s.sink ++ u)).setCur s.d.length) (n := j) (Nat.le_refl _)
  rw [htake, hput, Flow.bind_ok, hk, hend] at hexec
  exact ⟨_, hput, hexec⟩

theorem repeatByte_truncated (h : s.d.length = s.cur + 1) (n : Nat) : (repeatByte n s.pastOpcode).outcome =
    .next ((s.setCur s.d.length).raise (.lineTrunc s.d.length)) := by
  rw [State.pastOpcode, repeatByte_of_ge h.le, Flow.outcome_raised, h]
  rfl

end

/-! ### D ends before an opcode or a line header, or inside a pad header (R191, R192, R194) -/

/-- In a line, a step with no byte left. -/
theorem step_of_no_line_byte {s : State} (hr : s.runState = .run) (hd : s.cfg.dir = .decode) (hc : s.ctx ≠ .frame)
    (h : s.d.length ≤ s.cur) : step s = .next (truncatedLine s) := by
  have hdrop : s.d.drop s.cur = [] := List.drop_of_length_le h
  have hfetch : fetch s = .endOfStream := by
    rw [fetch_of_drop hc hdrop]
    cases hctx : s.ctx with
    | frame => exact absurd hctx hc
    | _ => rfl
  have hone : decodeOne s = .next (truncatedLine s) := by simp [decodeOne, hfetch, atEnd, hc]
  rw [step_of_decode hr hd, decodeStep_of_next hone (by simp [truncatedLine_ctx])]

theorem truncatedLine_of_op {s : State} (hc : s.ctx = .op) (h : s.d.length ≤ s.cur) :
    truncatedLine s = s.raise (.lineTrunc s.cur) := by
  simp [truncatedLine, hc, Nat.max_eq_left h, State.setCur_self]

theorem truncatedLine_of_lhdr {s : State} (hc : s.ctx = .lhdr) (h : s.d.length ≤ s.cur) :
    truncatedLine s = State.raise (.lineTrunc s.cur) { s with lstart := s.cur, padRow := none, padLen := 0 } := by
  simp [truncatedLine, hc, beginLine, Nat.max_eq_left h, State.setCur]

/-- One byte or none where a pad header is read. -/
theorem decodeOne_short_padhdr {s : State} (hc : s.ctx = .padhdr) (h : s.window.length < 2) :
    decodeOne s = .next (truncatedLine s) := by
  rcases hw : s.window with _ | ⟨b, _ | ⟨b', rest⟩⟩
  · simp [decodeOne, fetch, hc, hw, decode, atEnd]
  · simp [decodeOne, fetch, hc, hw, decode, atTruncation]
  · rw [hw, List.length_cons, List.length_cons] at h
    omega

/-- The step of an LHDR with padding when D ends inside its pad header. -/
theorem step_truncated_padhdr {s : State} {present : Bool} {tlen : BitVec 7} {rest : List Byte}
    (hr : s.runState = .run) (hd : s.cfg.dir = .decode) (hc : s.ctx = .lhdr)
    (h : decode s.cfg .lhdr s.window = .ok (.lhdr present true tlen) rest) (hrest : rest.length < 2) :
    step s = .next (truncatedLine (s.awaitPadhdr present tlen)) ∧ s.cur + 1 ≤ s.d.length := by
  have hw : s.window = s.d.drop s.cur := by rw [State.window, hc]
  have hwindow : (s.awaitPadhdr present tlen).window = rest := by
    rw [State.awaitPadhdr_window, decode_lhdr_rest h, hw, List.drop_drop]
  have hfetch : fetch s = .ok (.lhdr present true tlen) rest := by rw [fetch, hc, h]
  refine ⟨?_, Nat.succ_le_of_lt (Nat.lt_of_not_le fun hge => ?_)⟩
  · rw [step_of_decode hr hd, decodeStep_of_fetch_padded hfetch, decodeOne_short_padhdr rfl (hwindow.symm ▸ hrest)]
  · rw [hw, List.drop_of_length_le hge] at h
    cases h

theorem truncatedLine_awaitPadhdr {s : State} (present : Bool) (tlen : BitVec 7) (h : s.cur + 1 ≤ s.d.length) :
    truncatedLine (s.awaitPadhdr present tlen) = State.raise (.lineTrunc s.d.length)
      { s.lhdrRead present with cur := s.d.length, hdrTlen := tlen.toNat, ctx := .padhdr } := by
  simp [truncatedLine, State.awaitPadhdr_eq, State.lhdrRead, State.setCur, Nat.max_eq_right h]

/-- A pad header whose filler is not all there. -/
theorem execPadhdr_truncated_filler {s : State} {p : BitVec 2} (r : BitVec 14) (hcur : s.cur + 2 ≤ s.d.length)
    (h : s.d.length < s.cur + 2 + p.toNat) : execPadhdr p r s = .next (State.raise (.lineTrunc s.d.length)
      { s with
        padRow := some r.toNat
        padLen := p.toNat
        cur := s.d.length
        warns := fillerWarns (s.d.drop (s.cur + 2)) s.warns }) := by
  have hfill := readFiller_truncated
    (s := { s with padRow := some r.toNat, padLen := p.toNat, cur := s.cur + 2 }) hcur h
  rw [execPadhdr, hfill]
  rfl

/-- Settles O28: a lemma for each place where D can end inside a line. -/
theorem truncatedOpcodeEndsTheBlock : Obligations.TruncatedOpcodeEndsTheBlock := by
  refine ⟨fun s fld hs hcur => ⟨exec_raw_truncated hs hcur, exec_tbl_truncated hs hcur, fun hend =>
      ⟨repeatByte_truncated hend _, repeatByte_truncated hend _⟩⟩,
    fun s hr hd hend => ⟨fun hc => ?_, fun hc => ?_⟩, fun s present tlen hn hcur hend => ?_,
    fun s present tlen rest hr hd hc h hrest => ?_, fun s p r => execPadhdr_truncated_filler r,
    fun s p r hn hcur hend => ?_⟩
  · rw [step_of_no_line_byte hr hd (by simp [hc]) hend, truncatedLine_of_op hc hend]
  · rw [step_of_no_line_byte hr hd (by simp [hc]) hend, truncatedLine_of_lhdr hc hend]
  · have hstart := startOps_truncated (s := s.lhdrRead present) hn hcur hend
    rw [exec, execLhdr_plain, hstart]
    rfl
  · obtain ⟨hstep, hlt⟩ := step_truncated_padhdr hr hd hc h hrest
    rw [hstep, truncatedLine_awaitPadhdr present tlen hlt]
    rfl
  · have hstart := startOps_truncated (s := s.padhdrRead p r) hn hcur hend
    rw [exec, execPadhdr_of_filler r (.inr hcur), hstart]
    rfl

end Sys2Proof.Machine

namespace Sys2Proof.Machine

/-! PROOFS. The plane splitter (R230 to R238): the groups of a plane and its logical lines, where the encoder goes after
a page's header, a line and a group, and the steps that emit a Page block, encode a line and emit a Data block. -/

/-! ### The groups of a plane (R231, R232) -/

theorem linesPerBlock_pos {total : Nat} (h : 0 < total) : 0 < linesPerBlock total := Nat.div_pos (by omega) (by omega)

/-- A plane has one more group after its first k exactly when these leave a line. -/
theorem lt_groupCount_iff (total k : Nat) : k < groupCount total ↔ k * linesPerBlock total < total := by
  unfold groupCount ceilDiv
  split
  · next h => simp [h]
  · next h =>
    have hpos := linesPerBlock_pos (Nat.pos_of_ne_zero h)
    rw [Nat.lt_iff_add_one_le, Nat.le_div_iff_mul_le hpos, Nat.add_one_mul]
    omega

theorem groupEnd_of_lt {total k : Nat} (h : k < groupCount total) : groupEnd total k = k * linesPerBlock total :=
  Nat.min_eq_left ((lt_groupCount_iff total k).1 h).le

theorem groupEnd_of_le {total k : Nat} (h : groupCount total ≤ k) : groupEnd total k = total :=
  Nat.min_eq_right (Nat.le_of_not_lt (mt (lt_groupCount_iff total k).2 h.not_gt))

/-- Settles O56: the groups before the last end at multiples of `lpb`, and the last one at the last line. -/
theorem groupsCoverThePlane : Obligations.GroupsCoverThePlane := by
  refine fun total => ⟨groupCount_le_eight total, groupEnd_of_le (Nat.le_refl _), fun k hk hlast => ?_⟩
  obtain ⟨j, rfl⟩ : ∃ j, k = j + 1 := ⟨k - 1, by omega⟩
  have hstart := (lt_groupCount_iff total j).1 hlast
  have hlpb : linesPerBlock total = (total + 7) / 8 := rfl
  have hpos := linesPerBlock_pos (Nat.zero_lt_of_lt hstart)
  rw [Nat.add_sub_cancel, groupEnd_of_lt hlast, ← hlpb]
  have hend : groupEnd total (j + 1) = min (j * linesPerBlock total + linesPerBlock total) total := by
    rw [groupEnd, Nat.add_one_mul]
  refine ⟨by omega, by omega, fun hmore => ?_⟩
  rw [groupEnd_of_lt hmore, Nat.add_one_mul, Nat.add_sub_cancel_left]

/-! ### Logical lines (R230) -/

theorem totalLines_eq_zero_iff (m : Model) (height : Nat) : totalLines m height = 0 ↔ height = 0 := by
  unfold totalLines ceilDiv
  split <;> omega

theorem physicalLine_of_getElem? {w i : Nat} {plane : List (List Byte)} {a : List Byte} (h : plane[i]? = some a)
    (hw : a.length = w) : physicalLine w plane i = some a := by
  simp [physicalLine, h, hw]

theorem logicalLine_of_ne_m2 {m : Model} (hm : m ≠ .m2) (w height t : Nat) (plane : List (List Byte)) :
    logicalLine m w height plane t = physicalLine w plane t := if_neg hm

theorem logicalLine_m2_pair {w height t : Nat} {plane : List (List Byte)} {a b : List Byte}
    (ha : physicalLine w plane (2 * t) = some a) (hb : physicalLine w plane (2 * t + 1) = some b)
    (h : 2 * t + 1 < height) : logicalLine .m2 w height plane t = some (interleave a b) := by
  simp [logicalLine, ha, hb, h]

/-- The last line of an odd page stands alone. -/
theorem logicalLine_m2_single {w height t : Nat} {plane : List (List Byte)} {a : List Byte}
    (ha : physicalLine w plane (2 * t) = some a) (h : height ≤ 2 * t + 1) :
    logicalLine .m2 w height plane t = some (interleave a (List.replicate w 0)) := by
  simp [logicalLine, ha, Nat.not_lt.2 h]

/-! ### The shape and the colour of a page (R238, R323) -/

theorem planeShaped_eq_false_iff {w height : Nat} {p : List (List Byte)} :
    planeShaped w height p = false ↔ p.length ≠ height ∨ ∃ l ∈ p, l.length ≠ w := by
  rw [planeShaped, Bool.and_eq_false_iff, decide_eq_false_iff_not, List.all_eq_false]
  simp

theorem Page.shaped_eq_false_iff {pg : Page} :
    pg.shaped = false ↔
      ∃ p, (p = pg.planeK ∨ pg.isColor = true ∧ p ∈ [pg.planeY, pg.planeM, pg.planeC]) ∧
        planeShaped pg.width pg.height.toNat p = false := by
  have hcolor : (∃ p ∈ [pg.planeY, pg.planeM, pg.planeC], planeShaped pg.width pg.height.toNat p = false) ↔
      (planeShaped pg.width pg.height.toNat pg.planeY && planeShaped pg.width pg.height.toNat pg.planeM &&
        planeShaped pg.width pg.height.toNat pg.planeC) = false := by
    simp only [List.exists_mem_cons_iff, List.not_mem_nil, false_and, exists_false, or_false, Bool.and_eq_false_iff,
      or_assoc]
  rw [Page.shaped, Bool.and_eq_false_iff, Bool.or_eq_false_iff, ← hcolor]
  simp only [or_and_right, exists_or, exists_eq_left, and_assoc, exists_and_left, Bool.not_eq_false']

theorem Page.hasColor_iff {pg : Page} :
    pg.hasColor = true ↔ ∃ l ∈ pg.planeY ++ pg.planeM ++ pg.planeC, ∃ b ∈ l, b ≠ 0 := by
  simp only [Page.hasColor, List.any_eq_true, decide_eq_true_eq]

/-! ### Payloads in the reference layouts (R256, R257) -/

theorem serialisePage_reference (f : PageFields) :
    Layouts.serialisePage Layouts.reference f =
      le16 f.pixelWidth.toNat ++ le16 f.height.toNat ++ [f.colorMode, f.paperSize, f.tray, f.copies, f.duplex] := rfl

theorem serialiseData_reference (f : DataFields) :
    Layouts.serialiseData Layouts.reference f =
      [f.channel, f.blockNumber] ++ le32 f.compressedLen ++ le16 f.lineCount.toNat := rfl

theorem serialiseData_reference_length (f : DataFields) :
    (Layouts.serialiseData Layouts.reference f).length = 8 := rfl

/-- `le16` keeps the two low bytes of a number, as a 16-bit register does. -/
theorem le16_toNat_ofNat (n : Nat) : le16 (BitVec.ofNat 16 n).toNat = le16 n := by
  have hbyte {a b : Nat} (h : a % 256 = b % 256) : BitVec.ofNat 8 a = BitVec.ofNat 8 b :=
    BitVec.eq_of_toNat_eq (by simpa using h)
  rw [BitVec.toNat_ofNat, le16, le16, hbyte (a := n % 2 ^ 16) (b := n) (by omega),
    hbyte (a := n % 2 ^ 16 / 256) (b := n / 256) (by omega)]

theorem State.groupDesc_reference {s : State} (h : s.cfg.layouts = Layouts.reference) :
    s.groupDesc = [channelByte s.cfg.channelCode s.encChan, BitVec.ofNat 8 s.blkNum] ++ le32 s.encBuf.length ++
      le16 (groupEnd s.totalLines s.blkNum - groupEnd s.totalLines (s.blkNum - 1)) := by
  rw [State.groupDesc, h, serialiseData_reference, State.groupFields, le16_toNat_ofNat]

/-! ### Emitting a frame -/

/-- `s` after `write_block` has emitted a frame (R131, R132). -/
def State.wrote (ty : Byte) (payload : List Byte) (s : State) : State :=
  { s with out := s.out ++ frameBytes ty (goodFrame ty s.carriedSeq payload), seq := s.seq + 1 }

theorem writeBlock_of_le {ty : Byte} {payload : List Byte} (h : payload.length ≤ 65535) (s : State) :
    writeBlock ty payload s = .ok () (s.wrote ty payload) := by
  rcases writeBlock_cases ty payload s with ⟨-, e⟩ | ⟨hlong, -⟩
  · exact e
  · exact absurd h hlong.not_ge

theorem writeBlock_of_lt {ty : Byte} {payload : List Byte} (h : 65535 < payload.length) (s : State) :
    writeBlock ty payload s = .raised (s.raise (.encPayload payload.length)) := by
  rcases writeBlock_cases ty payload s with ⟨hshort, -⟩ | ⟨-, e⟩
  · exact absurd h hshort.not_gt
  · exact e

/-! ### Where the encoder goes next (R233, R238, R260) -/

theorem toPlane_of_no_line {s : State} (h : s.totalLines = 0) (ch : Channel) :
    toPlane ch s = toPage (s.encPage + 1) { s with encChan := ch, encLine := 0, encByte := 0 } := if_pos h

theorem toPlane_of_lines {s : State} (h : s.totalLines ≠ 0) (ch : Channel) :
    toPlane ch s = toGroup 1 { s with encChan := ch, encLine := 0, encByte := 0 } := if_neg h

theorem afterPlane_of_k {s : State} (h : s.encChan = .k) : afterPlane s = toPage (s.encPage + 1) s := by
  rw [afterPlane, h]

/-- The order of the planes of a colour page, K last. -/
theorem afterPlane_of_color {s : State} {ch next : Channel}
    (hnext : (ch, next) ∈ [(Channel.y, Channel.m), (.m, .c), (.c, .k)]) (h : s.encChan = ch) :
    afterPlane s = toPlane next s := by
  simp only [List.mem_cons, Prod.mk.injEq, List.not_mem_nil, or_false] at hnext
  rcases hnext with ⟨rfl, rfl⟩ | ⟨rfl, rfl⟩ | ⟨rfl, rfl⟩ <;> rw [afterPlane, h]

/-- Where the encoder goes after a group's Data block: to the next group of the plane, or on from the plane. -/
def afterGroup (s : State) : State :=
  if s.blkNum < groupCount s.totalLines then toGroup (s.blkNum + 1) s else afterPlane s

theorem afterGroup_of_lt {s : State} (h : s.blkNum < groupCount s.totalLines) :
    afterGroup s = toGroup (s.blkNum + 1) s := if_pos h

theorem afterGroup_of_le {s : State} (h : groupCount s.totalLines ≤ s.blkNum) : afterGroup s = afterPlane s :=
  if_neg h.not_gt

/-- `t` is `s` with the encoder standing elsewhere: no frame is emitted on the way, and ENCBUF is at most emptied. -/
structure State.MovesTo (s t : State) : Prop where
  seq : t.seq = s.seq
  out : t.out = s.out
  encBuf : s.encBuf = [] → t.encBuf = []

theorem toPage_moves (n : Nat) (s : State) : s.MovesTo (toPage n s) := ⟨rfl, rfl, id⟩

theorem toGroup_moves (k : Nat) (s : State) : s.MovesTo (toGroup k s) := ⟨rfl, rfl, fun _ => rfl⟩

theorem toPlane_moves (ch : Channel) (s : State) : s.MovesTo (toPlane ch s) := by
  by_cases h : s.totalLines = 0
  · rw [toPlane_of_no_line h]; exact ⟨rfl, rfl, id⟩
  · rw [toPlane_of_lines h]; exact ⟨rfl, rfl, fun _ => rfl⟩

theorem afterPlane_moves (s : State) : s.MovesTo (afterPlane s) := by
  unfold afterPlane
  split
  · exact toPlane_moves .m s
  · exact toPlane_moves .c s
  · exact toPlane_moves .k s
  · exact toPage_moves _ s

theorem afterGroup_moves (s : State) : s.MovesTo (afterGroup s) := by
  unfold afterGroup
  split
  · exact toGroup_moves _ s
  · exact afterPlane_moves s

/-! ### The start of a page (R238) -/

/-- The payload of a page's Page block (R256). -/
def Page.payload (pg : Page) (codes : ColorCodes) (color : Bool) : List Byte :=
  le16 pg.pixelWidth.toNat ++ le16 pg.height.toNat ++
    [if color then codes.color else codes.mono, pg.paperSize, pg.tray, pg.copies, pg.duplex]

/-- `s` with the geometry and the final colour mode of a page, and its Page block emitted. -/
def State.pageEmitted (pg : Page) (color : Bool) (s : State) : State :=
  State.wrote 0x51 (pg.payload s.cfg.colorCode color)
    { s with
      w := pg.width
      height := pg.height.toNat
      upgraded := color
      colorMode := if color then .color else .mono }

theorem State.pageEmitted_totalLines_eq_zero_iff (pg : Page) (color : Bool) (s : State) :
    (s.pageEmitted pg color).totalLines = 0 ↔ pg.height = 0 :=
  (totalLines_eq_zero_iff s.model pg.height.toNat).trans (BitVec.toNat_inj (y := 0))

theorem encodePageBlock_eq {pg : Page} {s : State} {color : Bool} (hl : s.cfg.layouts = Layouts.reference)
    (hcolor : (pg.isColor && pg.hasColor) = color) :
    encodePageBlock pg s = .ok () (toPlane (if color then .y else .k) (s.pageEmitted pg color)) := by
  have hpayload : Layouts.serialisePage s.cfg.layouts
      (pg.fields (colorByte s.cfg.colorCode (if color then .color else .mono))) = pg.payload s.cfg.colorCode color := by
    rw [hl, serialisePage_reference]
    cases color <;> rfl
  have hlen : (pg.payload s.cfg.colorCode color).length ≤ 65535 := Nat.le_of_ble_eq_true rfl
  simp only [encodePageBlock, hcolor, hpayload, writeBlock_of_le hlen, Flow.bind_ok]
  rfl

theorem step_page {s : State} {pg : Page} (hr : s.runState = .run) (hd : s.cfg.dir = .encode) (hp : s.phase = .page)
    (hpg : s.job.pages[s.encPage]? = some pg) :
    step s = Flow.outcome (if pg.shaped then encodePageBlock pg s else .refused .scanlineShape) := by
  simp only [step_of_encode hr hd, encodeStep, hp, encodePage, hpg]

/-- Settles O58: the step of a shaped page is its Page block and the move to its first plane; a page of height 0 has no
line in any plane. -/
theorem pageBlockCarriesTheFinalColorMode : Obligations.PageBlockCarriesTheFinalColorMode := by
  refine ⟨fun s pg color q hr hd hp hl hq hpg hshaped hcolor => ?_, fun s pg hr hd hp hpg hshaped => ?_,
    fun pg => ?_⟩
  · have hcolor : (pg.isColor && pg.hasColor) = color := by
      rw [Bool.eq_iff_iff, Bool.and_eq_true, Page.hasColor_iff, hcolor]
    have hstep := step_page hr hd hp hpg
    rw [if_pos hshaped, encodePageBlock_eq hl hcolor, Flow.outcome_ok] at hstep
    have hlines := s.pageEmitted_totalLines_eq_zero_iff pg color
    obtain rfl : q = s.carriedSeq := hq
    by_cases h0 : pg.height = 0
    · rw [toPlane_of_no_line (hlines.2 h0)] at hstep
      exact ⟨_, hstep, rfl, rfl, rfl, rfl, rfl, rfl, fun h => absurd h0 h, fun _ => ⟨rfl, rfl⟩⟩
    · rw [toPlane_of_lines (mt hlines.1 h0)] at hstep
      exact ⟨_, hstep, rfl, rfl, rfl, rfl, rfl, rfl, fun _ => ⟨rfl, rfl, rfl, rfl⟩, fun h => absurd h h0⟩
  · rw [step_page hr hd hp hpg, hshaped]
    rfl
  · rw [Page.shaped_eq_false_iff]
    exact exists_congr fun p => and_congr_right fun _ => planeShaped_eq_false_iff

/-! ### The Data block of a group (R233, R235) -/

/-- The bytes of `EmitData`: the data in the frame, or behind it (R235). -/
def State.dataBytes (desc data : List Byte) (s : State) : List Byte :=
  match s.cfg.placement with
  | .inside => frameBytes 0x52 (goodFrame 0x52 s.carriedSeq (desc ++ data))
  | .trailing => frameBytes 0x52 (goodFrame 0x52 s.carriedSeq desc) ++ data

theorem State.dataBytes_of_inside {s : State} (h : s.cfg.placement = .inside) (desc data : List Byte) :
    s.dataBytes desc data = frameBytes 0x52 (goodFrame 0x52 s.carriedSeq (desc ++ data)) := by
  rw [State.dataBytes, h]

theorem State.dataBytes_of_trailing {s : State} (h : s.cfg.placement = .trailing) (desc data : List Byte) :
    s.dataBytes desc data = frameBytes 0x52 (goodFrame 0x52 s.carriedSeq desc) ++ data := by
  rw [State.dataBytes, h]

theorem emitData_of_fits {s : State} {desc data : List Byte} (hdesc : desc.length = 8)
    (h : s.cfg.placement = .trailing ∨ data.length ≤ 65527) :
    emitData desc data s = .ok () { s with out := s.out ++ s.dataBytes desc data, seq := s.seq + 1 } := by
  cases hp : s.cfg.placement with
  | inside =>
    have hdata : data.length ≤ 65527 := h.resolve_left (by simp [hp])
    have hlen : (desc ++ data).length ≤ 65535 := by rw [List.length_append]; omega
    simp only [emitData, hp, State.dataBytes_of_inside hp, writeBlock_of_le hlen]
    rfl
  | trailing =>
    have hlen : desc.length ≤ 65535 := by omega
    simp only [emitData, hp, State.dataBytes_of_trailing hp, writeBlock_of_le hlen, Flow.bind_ok, ← List.append_assoc]
    rfl

theorem emitData_of_long {s : State} {desc data : List Byte} (hdesc : desc.length = 8)
    (hp : s.cfg.placement = .inside) (h : 65527 < data.length) :
    emitData desc data s = .raised (s.raise (.encPayload (8 + data.length))) := by
  have hlen : (desc ++ data).length = 8 + data.length := by rw [List.length_append, hdesc]
  simp only [emitData, hp]
  rw [writeBlock_of_lt (by omega), hlen]

/-- `s` with the Data block of its group emitted and ENCBUF emptied (R42). -/
def State.groupEmitted (s : State) : State :=
  { s with out := s.out ++ s.dataBytes s.groupDesc s.encBuf, seq := s.seq + 1, encBuf := [] }

theorem step_data {s : State} (hr : s.runState = .run) (hd : s.cfg.dir = .encode) (hp : s.phase = .data) :
    step s = Flow.outcome
      ((emitData s.groupDesc s.encBuf s).bind fun _ t => .ok () (afterGroup { t with encBuf := [] })) := by
  simp only [step_of_encode hr hd, encodeStep, hp]
  rfl

/-- Settles O59: the step is `EmitData`, the emptied ENCBUF, and the move past the group, which emits nothing more. -/
theorem dataBlockCarriesItsGroup : Obligations.DataBlockCarriesItsGroup := by
  intro s q desc hr hd hp hl hq hdesc
  obtain rfl : q = s.carriedSeq := hq
  obtain rfl : desc = s.groupDesc := hdesc.trans (State.groupDesc_reference hl).symm
  have hdesc : s.groupDesc.length = 8 := by rw [State.groupDesc, hl, serialiseData_reference_length]
  have hstep := step_data hr hd hp
  refine ⟨fun hfits => ?_, fun hin hlong => ?_⟩
  · rw [emitData_of_fits hdesc hfits, Flow.bind_ok, Flow.outcome_ok] at hstep
    have hmove := afterGroup_moves s.groupEmitted
    refine ⟨afterGroup s.groupEmitted, hstep, hmove.seq, hmove.encBuf rfl, fun hin => ?_, fun htrail => ?_,
      fun hmore => ?_, fun hlast hlines => ⟨fun ch next hnext hch => ?_, fun hch => ?_⟩⟩
    · rw [hmove.out, State.groupEmitted, State.dataBytes_of_inside hin]
    · rw [hmove.out, State.groupEmitted, State.dataBytes_of_trailing htrail, List.append_assoc]
    · rw [afterGroup_of_lt (s := s.groupEmitted) hmore]
      exact ⟨rfl, rfl, rfl, rfl, rfl⟩
    · rw [afterGroup_of_le (s := s.groupEmitted) hlast, afterPlane_of_color (s := s.groupEmitted) hnext hch,
        toPlane_of_lines (s := s.groupEmitted) hlines]
      exact ⟨rfl, rfl, rfl, rfl, rfl⟩
    · rw [afterGroup_of_le (s := s.groupEmitted) hlast, afterPlane_of_k (s := s.groupEmitted) hch]
      exact ⟨rfl, rfl⟩
  · obtain ⟨blk, hraise⟩ := State.raise_of_runFatal (t := .encPayload (8 + s.encBuf.length)) hr rfl
    rw [emitData_of_long hdesc hin hlong, Flow.bind_raised, hraise, Flow.outcome_raised] at hstep
    exact ⟨_, hstep, rfl, rfl, rfl, rfl, rfl, fun _ => rfl⟩

/-! ### One line of a group (R233, R234) -/

theorem pastCap_eq_false_iff {c : Option Nat} {n : Nat} : pastCap c n = false ↔ ∀ cap, c = some cap → n ≤ cap := by
  cases c <;> simp [pastCap]

/-- `s` with the stream of a line appended to ENCBUF. -/
def State.lineAppended (line bs : List Byte) (s : State) : State :=
  { s with lineBuf := line, encByte := line.length, encBuf := s.encBuf ++ bs }

theorem afterLine_of_line {s : State} (hp : s.phase = .line) :
    afterLine s = { s with
      encLine := s.encLine + 1
      phase := if groupEnd s.totalLines s.blkNum ≤ s.encLine + 1 then .data else .line } := by
  by_cases h : groupEnd s.totalLines s.blkNum ≤ s.encLine + 1
  · rw [if_pos h]; exact if_pos h
  · rw [if_neg h, ← hp]; exact if_neg h

theorem encodeLogical_of_fail {s : State} {line : List Byte} {f : Trap} {i : Nat}
    (h : encodeLine s.cfg s.model line = .fail f i) :
    encodeLogical line s = .raised (State.raise f { s with lineBuf := line, encByte := i }) := by
  simp only [encodeLogical, h, Flow.trap_eq]

theorem encodeLogical_of_fits {s : State} {line bs : List Byte} (h : encodeLine s.cfg s.model line = .stream bs)
    (hcap : pastCap s.cfg.encBufCap (s.encBuf.length + bs.length) = false) :
    encodeLogical line s = .ok () (afterLine (s.lineAppended line bs)) := by
  simp [encodeLogical, h, appendEnc, hcap, State.lineAppended]

theorem encodeLogical_of_overflow {s : State} {line bs : List Byte} (h : encodeLine s.cfg s.model line = .stream bs)
    (hcap : pastCap s.cfg.encBufCap (s.encBuf.length + bs.length) = true) :
    encodeLogical line s = .raised (State.raise .encOverflow { s with lineBuf := line, encByte := line.length }) := by
  simp [encodeLogical, h, appendEnc, hcap]

theorem step_line {s : State} {pg : Page} {line : List Byte} (hr : s.runState = .run) (hd : s.cfg.dir = .encode)
    (hp : s.phase = .line) (hpg : s.job.pages[s.encPage]? = some pg)
    (hline : logicalLine s.model s.w s.height (pg.plane s.encChan) s.encLine = some line) :
    step s = Flow.outcome (encodeLogical line s) := by
  simp only [step_of_encode hr hd, encodeStep, hp, encodeLineStep, hpg, hline]

/-- Settles O60: `EncodeLine` fails, or its stream fits ENCBUF, or it does not; then the two kinds of logical lines. -/
theorem lineStepAppendsItsStream : Obligations.LineStepAppendsItsStream := by
  refine ⟨fun s pg line hr hd hp hpg hline => ?_, fun m w height t plane a hm ha hw => ?_,
    fun w height t plane a ha hw => ?_⟩
  · have hstep := step_line hr hd hp hpg hline
    cases hcode : encodeLine s.cfg s.model line with
    | fail f i =>
      obtain ⟨blk, hraise⟩ := State.raise_of_runFatal (s := { s with lineBuf := line, encByte := i }) hr
        (encodeLine_fail_runFatal hcode)
      rw [encodeLogical_of_fail hcode, hraise, Flow.outcome_raised] at hstep
      refine ⟨_, hstep, rfl, rfl, rfl, nofun, nofun, fun f' i' he => ?_⟩
      cases he
      exact ⟨rfl, rfl, rfl, rfl, rfl⟩
    | stream bs =>
      cases hcap : pastCap s.cfg.encBufCap (s.encBuf.length + bs.length) with
      | false =>
        rw [encodeLogical_of_fits hcode hcap, Flow.outcome_ok,
          afterLine_of_line (s := s.lineAppended line bs) hp] at hstep
        refine ⟨_, hstep, rfl, rfl, rfl, fun bs' he _ => ?_, fun bs' cap he hc hlt => ?_, nofun⟩
        · cases he
          exact ⟨rfl, rfl, hr, rfl, (Ne.ite_eq_left_iff (by decide)).symm⟩
        · cases he
          exact absurd (pastCap_eq_false_iff.1 hcap cap hc) hlt.not_ge
      | true =>
        obtain ⟨blk, hraise⟩ := State.raise_of_runFatal (t := .encOverflow)
          (s := { s with lineBuf := line, encByte := line.length }) hr rfl
        rw [encodeLogical_of_overflow hcode hcap, hraise, Flow.outcome_raised] at hstep
        refine ⟨_, hstep, rfl, rfl, rfl, fun bs' he hfits => ?_, fun _ _ _ _ _ => ⟨rfl, rfl, rfl⟩, nofun⟩
        cases he
        rw [pastCap_eq_false_iff.2 hfits] at hcap
        cases hcap
  · exact ⟨if_neg hm, (logicalLine_of_ne_m2 hm w height t plane).trans (physicalLine_of_getElem? ha hw)⟩
  · have hfirst := physicalLine_of_getElem? ha hw
    exact ⟨if_pos rfl, fun b h hb hbw => logicalLine_m2_pair hfirst (physicalLine_of_getElem? hb hbw) h,
      logicalLine_m2_single hfirst⟩

end Sys2Proof.Machine

namespace Sys2Proof.Machine

/-! PROOFS. The document's blocks (R252 to R262): the code tables, which fields `parse` takes of a payload, how a frame
reaches its handler, and the handlers of BEGIN, PARAMS, ENDPART and END. -/

/-! ### Code tables (R252, R257) -/

theorem Cfg.modelCodes_ne {c : Cfg} (h : c.codesInjective = true) :
    c.modelCode.m1 ≠ c.modelCode.m2 ∧ c.modelCode.m1 ≠ c.modelCode.m3 ∧ c.modelCode.m2 ≠ c.modelCode.m3 := by
  simp only [Cfg.codesInjective, Bool.and_eq_true, decide_eq_true_eq] at h
  simpa [and_assoc] using h.1.1

theorem Cfg.channelCodes_ne {c : Cfg} (h : c.codesInjective = true) :
    (c.channelCode.k ≠ c.channelCode.c ∧ c.channelCode.k ≠ c.channelCode.m ∧ c.channelCode.k ≠ c.channelCode.y) ∧
      (c.channelCode.c ≠ c.channelCode.m ∧ c.channelCode.c ≠ c.channelCode.y) ∧
      c.channelCode.m ≠ c.channelCode.y := by
  simp only [Cfg.codesInjective, Bool.and_eq_true, decide_eq_true_eq] at h
  simpa [and_assoc] using h.1.2

/-- A model's code gives back the model. -/
theorem modelOf_of_modelByte {c : Cfg} (h : c.codesInjective = true) {m : Model} {b : Byte}
    (hm : modelByte c.modelCode m = some b) : modelOf c.modelCode b = m := by
  obtain ⟨h12, h13, h23⟩ := Cfg.modelCodes_ne h
  cases m with
  | m1 => cases hm; exact if_pos rfl
  | m2 => cases hm; simp [modelOf, h12.symm]
  | m3 => cases hm; simp [modelOf, h13.symm, h23.symm]
  | unknown => cases hm

theorem modelOf_of_no_code {t : ModelCodes} {b : Byte} (h : ∀ m, modelByte t m ≠ some b) : modelOf t b = .unknown := by
  have hne (m : Model) {x : Byte} (hx : modelByte t m = some x) : b ≠ x := fun e => h m (e ▸ hx)
  rw [modelOf, if_neg (hne .m1 rfl), if_neg (hne .m2 rfl), if_neg (hne .m3 rfl)]

theorem chanOf_channelByte {c : Cfg} (h : c.codesInjective = true) (ch : Channel) :
    chanOf c.channelCode (channelByte c.channelCode ch) = .known ch := by
  obtain ⟨⟨hkc, hkm, hky⟩, ⟨hcm, hcy⟩, hmy⟩ := Cfg.channelCodes_ne h
  cases ch with
  | k => exact if_pos rfl
  | c => simp [chanOf, channelByte, hkc.symm]
  | m => simp [chanOf, channelByte, hkm.symm, hcm.symm]
  | y => simp [chanOf, channelByte, hky.symm, hcy.symm, hmy.symm]

theorem chanOf_of_no_code {t : ChannelCodes} {b : Byte} (h : ∀ ch, channelByte t ch ≠ b) : chanOf t b = .raw b := by
  have hne (ch : Channel) : b ≠ channelByte t ch := (h ch).symm
  exact (if_neg (hne .k)).trans ((if_neg (hne .c)).trans ((if_neg (hne .m)).trans (if_neg (hne .y))))

/-- Settles O19: the search through the table finds the first code that is the byte, and the codes differ. -/
theorem channelCodeOrRawByte : Obligations.ChannelCodeOrRawByte :=
  fun _ h => ⟨chanOf_channelByte h, fun _ hb => chanOf_of_no_code hb⟩

/-! ### What a layout with fixed offsets takes of a payload (R254 to R258, R262) -/

theorem parseFields_eq_ite {α : Type} (len : Nat) (p : List Byte) (x : α) :
    parseFields len p x = if len ≤ p.length then some x else none := by
  simp only [parseFields, ← Nat.not_lt, ite_not]

theorem parseFields_isSome {α : Type} (len : Nat) (p : List Byte) (x : α) :
    (parseFields len p x).isSome = decide (len ≤ p.length) := by
  rw [parseFields_eq_ite]
  split <;> simp_all

theorem fieldU16_toNat (p : List Byte) (o : Nat) :
    (fieldU16 p o).toNat = leVal (p.getD o 0) (p.getD (o + 1) 0) := by
  have hlow := (fieldU8 p o).isLt
  rw [fieldU16, BitVec.toNat_append, ← Nat.shiftLeft_add_eq_or_of_lt hlow, Nat.shiftLeft_eq, leVal]
  simp only [fieldU8]
  omega

section
variable {l : Layouts} (p : List Byte)

theorem parseBegin_of_fields {x : BeginLayout} (h : l.begin = .fields x) :
    Layouts.parseBegin l p = parseFields x.len p (fieldU8 p x.model) := by rw [Layouts.parseBegin, h]

theorem parseParams_of_fields {x : ParamsLayout} (h : l.params = .fields x) :
    Layouts.parseParams l p = parseFields x.len p (fieldU16 p x.resolution) := by rw [Layouts.parseParams, h]

theorem parsePage_of_fields {x : PageLayout} (h : l.page = .fields x) :
    Layouts.parsePage l p = parseFields x.len p
      { pixelWidth := fieldU16 p x.pixelWidth
        height := fieldU16 p x.height
        colorMode := fieldU8 p x.colorMode
        paperSize := fieldU8 p x.paperSize
        tray := fieldU8 p x.tray
        copies := fieldU8 p x.copies
        duplex := fieldU8 p x.duplex } := by rw [Layouts.parsePage, h]

theorem parseData_of_fields {x : DataLayout} (h : l.data = .fields x) :
    Layouts.parseData l p = parseFields x.len p
      ({ channel := fieldU8 p x.channel
         blockNumber := fieldU8 p x.blockNumber
         compressedLen := fieldU32 p x.compressedLen
         lineCount := fieldU16 p x.lineCount }, x.len) := by rw [Layouts.parseData, h]

theorem parseEndPart_of_fields {x : EndPartLayout} (h : l.endPart = .fields x) :
    Layouts.parseEndPart l p = parseFields x.len p (fieldU8 p x.reason) := by rw [Layouts.parseEndPart, h]

end

/-- In the reference layouts a payload parses when it has the bytes of its fields. -/
theorem parses_reference (b : BlockType) (p : List Byte) :
    BlockType.parses Layouts.reference b p = decide (b.payloadLen Layouts.reference ≤ p.length) := by
  cases b with
  | begin => exact parseFields_isSome 1 p _
  | end_ => exact (decide_eq_true (Nat.zero_le _)).symm
  | params => exact parseFields_isSome 2 p _
  | page => exact parseFields_isSome 9 p _
  | data => exact parseFields_isSome 8 p _
  | endPart => exact parseFields_isSome 1 p _

/-! ### From the frame to its handler (R250) -/

/-- The handler of a block type (R250). -/
def blockHandler : BlockType → List Byte → State → Flow Unit
  | .begin => onBegin
  | .end_ => onEnd
  | .params => onParams
  | .page => onPage
  | .data => onData
  | .endPart => onEndPart

theorem exec_instr (b : BlockType) (f : Frame) (s : State) : exec (b.instr f) s = runFrame b (blockHandler b) f s := by
  cases b <;> rfl

/-- A dispatched frame's step ends as its handler does, after the frame's own bookkeeping. -/
theorem exec_of_handler {b : BlockType} {f : Frame} {s : State} {x : Flow Unit} (hok : Frame.dispatched s.cfg b.code f)
    (h : blockHandler b f.payload (s.afterFrame b.code f) = x) : exec (b.instr f) s = x.outcome := by
  rw [exec_instr, runFrame_of_dispatched hok, h]

/-- A block-fatal fault of a handler records `ip` alone and goes on with the next frame (R283, R284). -/
theorem State.raise_in_frame {s : State} {t : Trap} (hr : s.runState = .run) (hd : s.cfg.dir = .decode)
    (hc : s.ctx = .frame) (ht : t.runFatal = false) : s.raise t =
      { s with
        fcode := t.code
        finfo := some t
        fpos := .decode s.ip none
        fblk := s.nblk - 1
        nblkFatal := s.nblkFatal + 1 } := by
  simp [State.raise, State.recordFault, State.faultPos, State.resumeLoop, hr, hd, hc, ht]

/-- A payload that its layout does not parse raises F_DESC, before the handler has written anything (R262). -/
theorem handler_of_not_parses {b : BlockType} {p : List Byte} {s : State}
    (h : BlockType.parses s.cfg.layouts b p = false) : blockHandler b p s = .raised (s.raise (.desc b.code)) := by
  have none_of {α : Type} {o : Option α} (ho : o.isSome = false) : o = none := by simpa using ho
  cases b with
  | begin => simp only [blockHandler, onBegin, none_of h, Flow.trap_eq]
  | end_ => cases h
  | params => simp only [blockHandler, onParams, none_of h, Flow.trap_eq]
  | page => simp only [blockHandler, onPage, none_of h, Flow.trap_eq]
  | data => simp only [blockHandler, onData, none_of h, Flow.trap_eq]
  | endPart => simp only [blockHandler, onEndPart, none_of h, Flow.trap_eq]

/-! ### BEGIN, PARAMS, ENDPART and END (R252, R253, R258, R259) -/

theorem onBegin_of_known {p : List Byte} {s : State} {b : Byte} {m : Model}
    (hparse : Layouts.parseBegin s.cfg.layouts p = some b) (hm : modelOf s.cfg.modelCode b = m)
    (hknown : m ≠ .unknown) : onBegin p s = .ok () { s with model := m } := by
  simp only [onBegin, hparse, hm, hknown, decide_false]
  rfl

theorem onBegin_of_unknown {p : List Byte} {s : State} {b : Byte}
    (hparse : Layouts.parseBegin s.cfg.layouts p = some b) (hm : modelOf s.cfg.modelCode b = .unknown) :
    onBegin p s = .ok () { s with model := .unknown, warns := s.warns.raise .model } := by
  simp only [onBegin, hparse, hm, decide_true]
  rfl

theorem onParams_of_parse {p : List Byte} {s : State} (h : (Layouts.parseParams s.cfg.layouts p).isSome = true) :
    onParams p s = .ok () s := by
  obtain ⟨r, hr⟩ := Option.isSome_iff_exists.1 h
  simp only [onParams, hr]

theorem onEndPart_of_parse {p : List Byte} {s : State} (h : (Layouts.parseEndPart s.cfg.layouts p).isSome = true) :
    onEndPart p s = .ok () s := by
  obtain ⟨r, hr⟩ := Option.isSome_iff_exists.1 h
  simp only [onEndPart, hr]

/-- Settles O12: the byte that `parse` takes is looked up among the model codes. -/
theorem beginSetsTheModel : Obligations.BeginSetsTheModel := by
  refine ⟨fun s f b hok hinj hparse => ⟨fun m hm => ?_, fun hnone => ?_⟩, fun l x p hl => ?_⟩
  · have hknown : m ≠ .unknown := by rintro rfl; cases hm
    exact exec_of_handler (b := .begin) hok (onBegin_of_known hparse (modelOf_of_modelByte hinj hm) hknown)
  · exact exec_of_handler (b := .begin) hok (onBegin_of_unknown hparse (modelOf_of_no_code hnone))
  · rw [parseBegin_of_fields p hl, parseFields_eq_ite]
    rfl

/-- Settles O13: a handler that parses its payload and does nothing with it. -/
theorem paramsEndPartEndChangeNothing : Obligations.ParamsEndPartEndChangeNothing := by
  refine ⟨fun s f => ⟨fun hok hparse => exec_of_handler (b := .params) hok (onParams_of_parse hparse),
      fun hok hparse => exec_of_handler (b := .endPart) hok (onEndPart_of_parse hparse),
      fun hok => exec_of_handler (b := .end_) hok rfl⟩, fun l x p hl => ?_, fun l x p hl => ?_⟩
  · rw [parseParams_of_fields p hl, parseFields_isSome, decide_eq_true_iff]
  · rw [parseEndPart_of_fields p hl, parseFields_isSome, decide_eq_true_iff]

end Sys2Proof.Machine

namespace Sys2Proof.Machine

/-! PROOFS. The Page and the Data handler (R256, R257): the new geometry behind the residue of the old one, and where D
comes from, under either placement, before its first line (R190). Then the block-fatal faults of a handler (R279, R280). -/

/-! ### PAGE (R256, R251) -/

/-- What is done with a residue, W_RESIDUAL and the flush unit alone (R251). -/
theorem residue_eq_units (s : State) : residue s = { s with
    warns := if s.accPos = 0 then s.warns else s.warns.raise .residual
    sink := s.sink ++ s.residueUnits } := by
  have hfinish : residue s = { finish s with runState := s.runState } := by
    obtain ⟨ws, u, e⟩ := residue_eq s
    rw [finish, e]
  rw [hfinish, finish_eq]

theorem State.sink_append_residueUnits (s : State) : s.sink ++ s.residueUnits =
    if s.accPos ≠ 0 ∧ s.cfg.residualFlush = true then
      s.sink ++ [{ chan := s.chan, bytes := (List.range (2 * s.w)).map fun a => (s.acc.read a).getD 0 }]
    else s.sink := by
  unfold State.residueUnits
  split
  · rfl
  · exact List.append_nil _

theorem onPage_of_parse {p : List Byte} {s : State} {g : PageFields}
    (hparse : Layouts.parsePage s.cfg.layouts p = some g) : onPage p s = .ok () { s with
      w := (g.pixelWidth.toNat + 7) / 8
      height := g.height.toNat
      colorMode := if g.colorMode = s.cfg.colorCode.color then .color else .mono
      acc := []
      accPos := 0
      warns := if s.accPos = 0 then s.warns else s.warns.raise .residual
      sink := s.sink ++ s.residueUnits } := by
  simp only [onPage, hparse, residue_eq_units]
  rfl

/-- Settles O14: the handler writes the new geometry behind the residue of the old one. -/
theorem pageSetsTheGeometry : Obligations.PageSetsTheGeometry := by
  refine ⟨fun s f g hok hparse => ?_, fun l x p hl hlen => ?_⟩
  · rw [← State.sink_append_residueUnits]
    exact exec_of_handler (b := .page) hok (onPage_of_parse hparse)
  · exact ⟨_, (parsePage_of_fields p hl).trans (parseFields_of_le hlen _), fieldU16_toNat .., fieldU16_toNat .., rfl⟩

/-! ### DATA (R257, R190) -/

theorem warnUnless_not_decide (P : Prop) [Decidable P] (k : Warning) (ws : Warnings) :
    warnUnless (!decide P) k ws = if P then ws.raise k else ws := by
  by_cases h : P <;> simp [warnUnless, h]

theorem State.warnIf_decide (P : Prop) [Decidable P] (k : Warning) (s : State) :
    s.warnIf (decide P) k = { s with warns := if P then s.warns.raise k else s.warns } := by
  rw [State.warnIf_eq_warnUnless, warnUnless_not_decide]

theorem WarnReg.raisedBy_raisedBy (r : WarnReg) (m n : Nat) : (r.raisedBy m).raisedBy n = r.raisedBy (m + n) := by
  simp [WarnReg.raisedBy, Bool.or_assoc, Nat.add_assoc]

/-- A warning raised twice, each time exactly when its condition holds. -/
theorem warnUnless_twice_get_raisedBy (P Q : Prop) [Decidable P] [Decidable Q] (k : Warning) (ws : Warnings) :
    (warnUnless (!decide Q) k (warnUnless (!decide P) k ws)).get k =
      (ws.get k).raisedBy ((if P then 1 else 0) + (if Q then 1 else 0)) := by
  rw [warnUnless_get_raisedBy decide_eq_true_iff, warnUnless_get_raisedBy decide_eq_true_iff, WarnReg.raisedBy_raisedBy]

theorem checkWarns_get_trailing (ty : Byte) (f : Frame) (ws : Warnings) :
    (checkWarns ty f ws).get .trailing = ws.trailing :=
  checkWarns_get_other ty f ws fun k => by cases k <;> simp [FrameCheck.warning]

/-- `s` once a Data frame has been read and its channel set, which comes before the checks (assumption log 19). -/
def State.dataRead (s : State) (f : Frame) (g : DataFields) : State :=
  { s.afterFrame 0x52 f with chan := chanOf s.cfg.channelCode g.channel }

/-- A block with a geometry starts its lines, and one of no lines ends at once, with D unread. -/
theorem decodeData_of_geometry {s : State} (hw : s.w ≠ 0) (d : List Byte) (n : BitVec 16) :
    decodeData d n.toNat s = .ok () { s with
      d := d
      cur := 0
      linesLeft := n.toNat
      ctx := if n = 0 then .frame else .lhdr
      warns := if n = 0 ∧ 0 < d.length then s.warns.raise .trailing else s.warns } := by
  have hn : n.toNat = 0 ↔ n = 0#16 := BitVec.toNat_inj (y := 0)
  rw [decodeData, if_neg hw, startData]
  by_cases h0 : n = 0#16
  · simp [linesLoop, endData, State.resumeLoop, State.warnIf_decide, h0]
  · simp [linesLoop, hn, h0]

theorem decodeData_of_no_geometry {s : State} (hw : s.w = 0) (d : List Byte) (n : Nat) :
    decodeData d n s = .raised (s.raise .noGeometry) := if_pos hw

theorem onDataInside_of_le {body : List Byte} {clen : Nat} (h : clen ≤ body.length) (n : Nat) (s : State) :
    onDataInside body clen n s = decodeData (body.take clen) n
      { s with warns := if clen < body.length then s.warns.raise .trailing else s.warns } := by
  rw [onDataInside, if_neg h.not_gt, State.warnIf_decide]

theorem onDataInside_of_lt {body : List Byte} {clen : Nat} (h : body.length < clen) (n : Nat) (s : State) :
    onDataInside body clen n s = .raised (s.raise (.desc 0x52)) := if_pos h

/-- The data behind a frame: the bytes of IN that are there, at most as many as the descriptor says. -/
theorem onDataTrailing_eq {s : State} {avail : Nat} (h : avail = s.inp.length - s.ip) (clen n : Nat) :
    onDataTrailing clen n s = decodeData ((s.inp.drop s.ip).take clen) n { s with
      ip := s.ip + min clen avail
      warns := if avail < clen then s.warns.raise .trunc else s.warns } := by
  simp only [onDataTrailing, State.warnIf_decide, List.length_take, List.length_drop, h]

section
variable {s : State} {f : Frame} {g : DataFields} {len : Nat}

theorem onData_of_inside {p : List Byte} (hp : s.cfg.placement = .inside)
    (hparse : Layouts.parseData s.cfg.layouts p = some (g, len)) :
    onData p s = onDataInside (p.drop len) g.compressedLen g.lineCount.toNat
      { s with chan := chanOf s.cfg.channelCode g.channel } := by
  simp only [onData, hparse, hp]

theorem onData_of_trailing {p : List Byte} (hp : s.cfg.placement = .trailing)
    (hparse : Layouts.parseData s.cfg.layouts p = some (g, len)) :
    onData p s = onDataTrailing g.compressedLen g.lineCount.toNat
      { s with chan := chanOf s.cfg.channelCode g.channel } := by
  simp only [onData, hparse, hp]

theorem exec_data_inside (hok : Frame.dispatched s.cfg 0x52 f) (hp : s.cfg.placement = .inside)
    (hparse : Layouts.parseData s.cfg.layouts f.payload = some (g, len)) :
    exec (.blkData f) s = Flow.outcome
      (onDataInside (f.payload.drop len) g.compressedLen g.lineCount.toNat (s.dataRead f g)) :=
  exec_of_handler (b := .data) hok (onData_of_inside hp hparse)

theorem exec_data_trailing (hok : Frame.dispatched s.cfg 0x52 f) (hp : s.cfg.placement = .trailing)
    (hparse : Layouts.parseData s.cfg.layouts f.payload = some (g, len)) :
    exec (.blkData f) s = Flow.outcome (onDataTrailing g.compressedLen g.lineCount.toNat (s.dataRead f g)) :=
  exec_of_handler (b := .data) hok (onData_of_trailing hp hparse)

end

/-- Settles O15: the two places that can raise W_TRAILING, behind the frame checks. -/
theorem dataInsideStartsItsLines : Obligations.DataInsideStartsItsLines := by
  refine ⟨fun s f g len body hok hp hw hparse hbody hlen => ?_, fun l x p hl hlen => ?_⟩
  · subst hbody
    have hexec := exec_data_inside hok hp hparse
    have hd : ((f.payload.drop len).take g.compressedLen).length = g.compressedLen := List.length_take_of_le hlen
    rw [onDataInside_of_le hlen, decodeData_of_geometry (by exact hw), hd, Flow.outcome_ok] at hexec
    simp only [← warnUnless_not_decide] at hexec
    refine ⟨_, hexec, ?_, fun k hk => ?_⟩
    · rw [← checkWarns_get_trailing 0x52 f s.warns]
      exact warnUnless_twice_get_raisedBy _ _ .trailing (checkWarns 0x52 f s.warns)
    · exact (warnUnless_get_of_ne hk _ _).trans (warnUnless_get_of_ne hk _ _)
  · exact ⟨_, (parseData_of_fields p hl).trans (parseFields_of_le hlen _), rfl, rfl, fieldU16_toNat ..⟩

/-- Settles O16: the same test of the line loop, behind the move of `ip` past the data that is there. -/
theorem dataTrailingStartsItsLines : Obligations.DataTrailingStartsItsLines := by
  intro s f g len avail ws hok hp hw hparse havail hws
  rw [exec_data_trailing hok hp hparse, onDataTrailing_eq (s := s.dataRead f g) havail,
    decodeData_of_geometry (by exact hw)]
  subst hws havail
  simp only [List.length_take, List.length_drop]
  rfl

/-! ### The block-fatal faults of a handler (R279, R280) -/

/-- Settles O18: the geometry is tested behind the descriptor's checks. -/
theorem dataWithoutGeometryIsSkipped : Obligations.DataWithoutGeometryIsSkipped := by
  intro s f g len hok hr hd hc hw hparse
  refine ⟨fun hp hlen => ?_, fun avail past hp havail hpast => ?_⟩
  · rw [exec_data_inside hok hp hparse, onDataInside_of_le hlen, decodeData_of_no_geometry (by exact hw),
      State.raise_in_frame (by exact hr) (by exact hd) (by exact hc) rfl, Flow.outcome_raised]
    rfl
  · subst hpast
    rw [exec_data_trailing hok hp hparse, onDataTrailing_eq (s := s.dataRead f g) havail,
      decodeData_of_no_geometry (by exact hw), State.raise_in_frame (by exact hr) (by exact hd) (by exact hc) rfl,
      Flow.outcome_raised]
    rfl

/-- Settles O17: a payload that does not parse, and a descriptor that asks for more than the payload holds. -/
theorem shortPayloadIsSkipped : Obligations.ShortPayloadIsSkipped := by
  refine ⟨fun s b f hok hr hd hc h => ?_, fun b p => ?_, fun s f g len hok hr hd hc hp hparse hlen => ?_⟩
  · rw [exec_of_handler hok (handler_of_not_parses (by exact h)),
      State.raise_in_frame (by exact hr) (by exact hd) (by exact hc) rfl]
    rfl
  · rw [parses_reference]
    cases b <;> rfl
  · rw [exec_data_inside hok hp hparse, onDataInside_of_lt hlen,
      State.raise_in_frame (by exact hr) (by exact hd) (by exact hc) rfl]
    rfl

end Sys2Proof.Machine

namespace Sys2Proof.Machine

/-! PROOFS. The frames of an encode session outside its pages (R252, R253, R258 to R260): Begin, Params, EndPart, End. -/

/-! ### What each step emits, in the reference layouts -/

theorem serialiseBegin_reference (b : Byte) : Layouts.serialiseBegin Layouts.reference b = [b] := rfl

theorem serialiseParams_reference (r : BitVec 16) :
    Layouts.serialiseParams Layouts.reference r = le16 r.toNat := rfl

theorem serialiseEndPart_reference (b : Byte) : Layouts.serialiseEndPart Layouts.reference b = [b] := rfl

section
variable {s : State}

theorem encodeBegin_of_code {b : Byte} (hl : s.cfg.layouts = Layouts.reference)
    (hb : modelByte s.cfg.modelCode s.model = some b) :
    encodeBegin s = .ok () { s.wrote 0x40 [b] with phase := .params } := by
  have hlen : [b].length ≤ 65535 := Nat.le_of_ble_eq_true rfl
  simp only [encodeBegin, hb, hl, serialiseBegin_reference, writeBlock_of_le hlen]
  rfl

theorem encodeBegin_of_unknown (h : s.model = .unknown) : encodeBegin s = .refused .encodeModel := by
  rw [encodeBegin, h]
  rfl

theorem encodeParams_eq (hl : s.cfg.layouts = Layouts.reference) :
    encodeParams s = .ok () (toPage s.encPage (s.wrote 0x50 (le16 s.job.resolution.toNat))) := by
  have hlen : (le16 s.job.resolution.toNat).length ≤ 65535 := Nat.le_of_ble_eq_true rfl
  rw [encodeParams, hl, serialiseParams_reference, writeBlock_of_le hlen]
  rfl

theorem encodeEndPart_eq (hl : s.cfg.layouts = Layouts.reference) :
    encodeEndPart s = .ok () { s.wrote 0x55 [s.cfg.endPartReason] with phase := .end_ } := by
  have hlen : [s.cfg.endPartReason].length ≤ 65535 := Nat.le_of_ble_eq_true rfl
  rw [encodeEndPart, hl, serialiseEndPart_reference, writeBlock_of_le hlen]
  rfl

theorem encodeEnd_eq (s : State) : encodeEnd s = .ok () { s.wrote 0x41 [] with runState := .done } := by
  rw [encodeEnd, writeBlock_of_le (Nat.zero_le _)]
  rfl

theorem encodeStep_of_params (hp : s.phase = .params) : encodeStep s = encodeParams s := by rw [encodeStep, hp]

theorem encodeStep_of_endPart (hp : s.phase = .endPart) : encodeStep s = encodeEndPart s := by rw [encodeStep, hp]

theorem encodeStep_of_end (hp : s.phase = .end_) : encodeStep s = encodeEnd s := by rw [encodeStep, hp]

theorem State.stopped_of_done (h : s.runState = .done) : s.Stopped := by
  intro t ht
  cases h.symm.trans (runState_of_step ht)

end

/-! ### The first step of a session -/

theorem Model.eq_unknown_of_not_mem {m : Model} (h : m ∉ [Model.m1, .m2, .m3]) : m = .unknown := by
  revert h
  cases m <;> decide

/-- The first step of a session that encodes is its Begin block. -/
theorem step_resetFor_encode {c : Cfg} (h : c.dir = .encode) (input : List Byte) (job : Job) :
    step (State.resetFor c input job) = Flow.outcome (encodeBegin (State.resetFor c input job)) :=
  step_of_encode rfl h

theorem State.resetFor_model_encode {c : Cfg} (h : c.dir = .encode) (input : List Byte) (job : Job) :
    (State.resetFor c input job).model = job.model := by
  simp only [State.resetFor, h]

/-- Settles O57: each of these steps is one frame and a move on to the next phase. -/
theorem encodeStreamBeginsWithBeginAndEndsWithEnd : Obligations.EncodeStreamBeginsWithBeginAndEndsWithEnd := by
  refine ⟨fun c job b q hd hl hb hq => ?_, fun c input job hd hjob => ?_, fun s q hr hd hl hq => ?_⟩
  · obtain rfl : q = (State.resetFor c [] job).carriedSeq := hq
    have hmodel := State.resetFor_model_encode hd [] job
    rw [step_resetFor_encode hd, encodeBegin_of_code hl (hmodel ▸ hb)]
    rfl
  · have hmodel := State.resetFor_model_encode hd input job
    rw [step_resetFor_encode hd, encodeBegin_of_unknown (hmodel.trans (Model.eq_unknown_of_not_mem hjob))]
    rfl
  · obtain rfl : q = s.carriedSeq := hq
    refine ⟨fun hp => ?_, fun hp => ?_, fun hp => ⟨_, ?_, rfl, State.stopped_of_done rfl⟩⟩
    · rw [step_of_encode hr hd, encodeStep_of_params hp, encodeParams_eq hl]
      rfl
    · rw [step_of_encode hr hd, encodeStep_of_endPart hp, encodeEndPart_eq hl]
      rfl
    · rw [step_of_encode hr hd, encodeStep_of_end hp, encodeEnd_eq]
      rfl

end Sys2Proof.Machine

namespace Sys2Proof.Machine

/-! PROOFS. Taking a fault: the record and the entry of each severity as whole states (R283 to R285). The records and
entries of a running session are known up to FBLK; here FBLK and FPOS are given for each direction. -/

section
variable {s : State}

/-- FPOS of a decoder: `ip`, and `cur` in the three line contexts. -/
theorem State.faultPos_decode (hd : s.cfg.dir = .decode) :
    s.faultPos = .decode s.ip (if s.ctx = .frame then none else some s.cur) := by
  rw [State.faultPos, hd]

/-- FPOS of an encoder: the cursors. -/
theorem State.faultPos_encode (hd : s.cfg.dir = .encode) :
    s.faultPos = .encode s.encPage s.encChan s.encLine := by
  rw [State.faultPos, hd]

/-- FBLK after a fault of a running decoder. -/
theorem State.raise_fblk_decode (hr : s.runState = .run) (hd : s.cfg.dir = .decode) (t : Trap) :
    (s.raise t).fblk = s.nblk - 1 :=
  (State.raise_fblk t s).trans (State.recordFault_fblk_decode (by simp [hr]) hd t)

/-- No fault of an encoder writes FBLK. -/
theorem State.raise_fblk_encode (hd : s.cfg.dir = .encode) (t : Trap) : (s.raise t).fblk = s.fblk :=
  (State.raise_fblk t s).trans (State.recordFault_fblk_encode hd t)

/-- The entry of a block-fatal fault, in the decode direction (R284). -/
theorem State.raise_decode_blockFatal {t : Trap} (hr : s.runState = .run) (hd : s.cfg.dir = .decode)
    (ht : t.runFatal = false) : s.raise t =
      { s with
        fcode := t.code
        finfo := some t
        fpos := .decode s.ip (if s.ctx = .frame then none else some s.cur)
        fblk := s.nblk - 1
        nblkFatal := s.nblkFatal + 1
        ctx := .frame } := by
  obtain ⟨blk, e⟩ := State.raise_of_blockFatal hr ht
  obtain rfl : s.nblk - 1 = blk := (State.raise_fblk_decode hr hd t).symm.trans (congrArg State.fblk e)
  rw [e, State.faultPos_decode hd]

/-- The entry of a run-fatal fault, in the decode direction (R285). -/
theorem State.raise_decode_runFatal {t : Trap} (hr : s.runState = .run) (hd : s.cfg.dir = .decode)
    (ht : t.runFatal = true) : s.raise t =
      { s with
        fcode := t.code
        finfo := some t
        fpos := .decode s.ip (if s.ctx = .frame then none else some s.cur)
        fblk := s.nblk - 1
        runState := .halt
        exit := .nonzero } := by
  obtain ⟨blk, e⟩ := State.raise_of_runFatal hr ht
  obtain rfl : s.nblk - 1 = blk := (State.raise_fblk_decode hr hd t).symm.trans (congrArg State.fblk e)
  rw [e, State.faultPos_decode hd]

/-- The entry of a run-fatal fault, in the encode direction (R285). -/
theorem State.raise_encode_runFatal {t : Trap} (hr : s.runState = .run) (hd : s.cfg.dir = .encode)
    (ht : t.runFatal = true) : s.raise t =
      { s with
        fcode := t.code
        finfo := some t
        fpos := .encode s.encPage s.encChan s.encLine
        runState := .halt
        exit := .nonzero } := by
  obtain ⟨blk, e⟩ := State.raise_of_runFatal hr ht
  obtain rfl : s.fblk = blk := (State.raise_fblk_encode hd t).symm.trans (congrArg State.fblk e)
  rw [e, State.faultPos_encode hd]

end

/-- Settles O34: the entry of each severity in each direction; in HALT the record stands. -/
theorem faultEntryBySeverity : Obligations.FaultEntryBySeverity := by
  refine ⟨fun s f hr hd hf => State.raise_decode_blockFatal hr hd hf, fun s f hr hf => ?_,
    fun s f h => State.recordFault_of_halt h f⟩
  cases hd : s.cfg.dir with
  | decode => exact State.raise_decode_runFatal hr hd hf
  | encode => exact State.raise_encode_runFatal hr hd hf

end Sys2Proof.Machine

namespace Sys2Proof.Machine

/-! PROOFS. Where the model stops a decode session: a flush that lacks a byte is refused (R331, U19). Only the byte put
can stop the model, and into a buffer filled by its puts it does not, so a legal running session has a next state
(R322). -/

/-! ### A flush that lacks a byte (R331) -/

/-- A range with an address that holds no value is not readable. -/
theorem Memory.readAll_eq_none {m : Memory} {n a : Nat} (ha : a < n) (h : m.read a = none) : m.readAll 0 n = none := by
  rw [← Option.not_isSome_iff_eq_none, Memory.readAll_isSome]
  intro hall
  have hsome := hall a ha
  rw [Nat.zero_add, h] at hsome
  cases hsome

/-- Settles O33: the put writes one address, so the other stays without a value when the full buffer is flushed. -/
theorem flushOfUnwrittenByteIsRefused : Obligations.FlushOfUnwrittenByteIsRefused := by
  intro s v a hfull ha hread hne _
  have hnone : (s.acc.write (accAddr s.model s.w s.accPos) v).readAll 0 (2 * s.w) = none :=
    Memory.readAll_eq_none ha (by rw [Memory.read_write, if_neg hne, hread])
  rw [putByte_of_eq v hfull, flushAcc]
  simp only [State.withPut_acc, State.withPut_w, hnone]

/-! ### Pseudocode the model does not stop in -/

/-- A piece of pseudocode goes on or takes a fault of R272; the model does not stop. -/
def Flow.NeverStops {α : Type} (x : Flow α) : Prop := x.Good (fun _ _ => True) fun _ => True

theorem Flow.NeverStops.bind {α β : Type} {x : Flow α} {k : α → State → Flow β} (hx : x.NeverStops)
    (hk : ∀ a t, (k a t).NeverStops) : (x.bind k).NeverStops :=
  Flow.good_bind hx fun a t _ => hk a t

theorem Flow.NeverStops.next {x : Flow Unit} (hx : x.NeverStops) : ∃ t, x.outcome = .next t := by
  obtain ⟨t, ht, -⟩ := Flow.good_next (P := fun _ => True) hx
  exact ⟨t, ht⟩

theorem nextByte_neverStops (s : State) : (nextByte s).NeverStops := by
  rcases nextByte_cases s with ⟨b, -, e⟩ | ⟨-, e⟩ <;> rw [e] <;> trivial

theorem loadTable_neverStops (i n : Nat) (s : State) : (loadTable i n s).NeverStops := by
  induction n generalizing i s with
  | zero => trivial
  | succ n ih => exact (nextByte_neverStops s).bind fun _ _ => ih _ _

theorem readFiller_neverStops (n : Nat) (s : State) : (readFiller n s).NeverStops := by
  induction n generalizing s with
  | zero => trivial
  | succ n ih => exact (nextByte_neverStops s).bind fun _ _ => ih _

theorem endLine_neverStops (s : State) : (endLine s).NeverStops := by
  unfold endLine
  split <;> trivial

theorem opLoop_neverStops (s : State) : (opLoop s).NeverStops := by
  rcases opLoop_cases s with ⟨-, e⟩ | ⟨-, e⟩ <;> rw [e]
  · trivial
  · exact endLine_neverStops s

theorem addProduced_neverStops (n : Nat) (s : State) : (addProduced n s).NeverStops := opLoop_neverStops _

theorem startOps_neverStops (n : Nat) (s : State) : (startOps n s).NeverStops := by
  rcases startOps_cases n s with ⟨-, e⟩ | ⟨-, e⟩ <;> rw [e]
  · trivial
  · exact (loadTable_neverStops 0 n _).bind fun _ _ => opLoop_neverStops _

theorem frameCheck_neverStops (k : FrameCheck) (good : Bool) (s : State) : (frameCheck k good s).NeverStops := by
  unfold frameCheck
  split
  · trivial
  · split <;> trivial

theorem acceptFrame_neverStops (ty : Byte) (f : Frame) (s : State) : (acceptFrame ty f s).NeverStops :=
  (frameCheck_neverStops .magic _ _).bind fun _ _ =>
    (frameCheck_neverStops .typeInv _ _).bind fun _ _ => frameCheck_neverStops .checksum _ _

theorem acceptUnknown_neverStops (ty : Byte) (f : Frame) (s : State) : (acceptUnknown ty f s).NeverStops :=
  (acceptFrame_neverStops ty f s).bind fun _ _ => trivial

theorem decodeData_neverStops (d : List Byte) (n : Nat) (s : State) : (decodeData d n s).NeverStops := by
  unfold decodeData
  split <;> trivial

theorem onData_neverStops (p : List Byte) (s : State) : (onData p s).NeverStops := by
  unfold onData
  split
  · trivial
  · dsimp only
    split
    · unfold onDataInside
      split
      · trivial
      · exact decodeData_neverStops _ _ _
    · exact decodeData_neverStops _ _ _

/-- No handler stops the model: a payload that does not parse is F_DESC (R262). -/
theorem blockHandler_neverStops (b : BlockType) (p : List Byte) (s : State) : (blockHandler b p s).NeverStops := by
  cases b with
  | begin => simp only [blockHandler, onBegin]; split <;> trivial
  | end_ => trivial
  | params => simp only [blockHandler, onParams]; split <;> trivial
  | page => simp only [blockHandler, onPage]; split <;> trivial
  | data => exact onData_neverStops p s
  | endPart => simp only [blockHandler, onEndPart]; split <;> trivial

/-! ### Pseudocode that puts into a ready buffer (R205, R69) -/

/-- A piece of pseudocode goes on with a ready buffer, or takes a fault; the model does not stop. -/
def Flow.StaysReady {α : Type} (x : Flow α) : Prop := x.Good (fun _ t => t.PutReady) fun _ => True

theorem Flow.StaysReady.bind {α β : Type} {x : Flow α} {k : α → State → Flow β} (hx : x.StaysReady)
    (hk : ∀ a t, t.PutReady → (k a t).StaysReady) : (x.bind k).StaysReady :=
  Flow.good_bind hx hk

theorem Flow.StaysReady.bind_neverStops {α β : Type} {x : Flow α} {k : α → State → Flow β} (hx : x.StaysReady)
    (hk : ∀ a t, (k a t).NeverStops) : (x.bind k).NeverStops :=
  Flow.good_bind hx fun a t _ => hk a t

section
variable {s : State}

theorem nextByte_staysReady (h : s.PutReady) : (nextByte s).StaysReady := by
  rcases nextByte_cases s with ⟨b, -, e⟩ | ⟨-, e⟩ <;> rw [e]
  · exact h.of_accSide rfl
  · trivial

theorem tRead_staysReady (h : s.PutReady) (i : Nat) : (tRead i s).StaysReady := by
  rcases tRead_cases i s with ⟨b, -, -, e⟩ | ⟨-, e⟩ <;> rw [e]
  · exact h
  · trivial

theorem putByte_staysReady (h : s.PutReady) (v : Byte) : (putByte v s).StaysReady := by
  obtain ⟨m, p, u, e, hready⟩ := h.putByte v
  rw [e]
  exact hready

theorem putCopies_staysReady (h : s.PutReady) (n : Nat) (v : Byte) : (putCopies n v s).StaysReady := by
  induction n generalizing s with
  | zero => exact h
  | succ n ih => exact (putByte_staysReady h v).bind fun _ _ h1 => ih h1

theorem putLiterals_staysReady (h : s.PutReady) (n : Nat) : (putLiterals n s).StaysReady := by
  induction n generalizing s with
  | zero => exact h
  | succ n ih =>
    exact (nextByte_staysReady h).bind fun b _ h1 => (putByte_staysReady h1 b).bind fun _ _ h2 => ih h2

theorem putLookups_staysReady (h : s.PutReady) (n : Nat) : (putLookups n s).StaysReady := by
  induction n generalizing s with
  | zero => exact h
  | succ n ih =>
    exact (nextByte_staysReady h).bind fun x s1 h1 =>
      (tRead_staysReady h1 (firstIndex s1.cfg x)).bind fun b _ h2 =>
      (putByte_staysReady h2 b).bind fun _ s3 h3 =>
      (tRead_staysReady h3 (secondIndex s3.cfg x)).bind fun b' _ h4 =>
      (putByte_staysReady h4 b').bind fun _ _ h5 => ih h5

theorem repeatByte_neverStops (h : s.PutReady) (n : Nat) : (repeatByte n s).NeverStops :=
  Flow.good_bind (nextByte_staysReady h) fun v _ h1 =>
    (putCopies_staysReady h1 n v).bind_neverStops fun _ _ => addProduced_neverStops n _

end

/-! ### The instructions -/

theorem exec_frame_next (b : BlockType) (f : Frame) (s : State) : ∃ t, exec (b.instr f) s = .next t := by
  rw [exec_instr]
  exact ((acceptFrame_neverStops b.code f s).bind fun _ _ => blockHandler_neverStops b _ _).next

theorem execLhdr_next (present padp : Bool) (tlen : BitVec 7) (s : State) :
    ∃ t, execLhdr present padp tlen s = .next t := by
  cases padp with
  | false => exact (startOps_neverStops _ _).next
  | true => exact ⟨_, execLhdr_padded present tlen s⟩

theorem execPadhdr_next (padLen : BitVec 2) (rowLen : BitVec 14) (s : State) :
    ∃ t, execPadhdr padLen rowLen s = .next t :=
  ((readFiller_neverStops _ _).bind fun _ _ => startOps_neverStops _ _).next

section
variable {s : State}

/-- One instruction; an opcode puts bytes, and needs a ready buffer for them. -/
theorem exec_next {i : Instr} (h : i.context = .op → s.PutReady) : ∃ t, exec i s = .next t := by
  have ready (hi : i.context = .op) : s.pastOpcode.PutReady := (h hi).of_accSide rfl
  by_cases hframe : i.context = .frame
  · obtain ⟨b, f, rfl⟩ := Instr.eq_instr_of_context hframe
    exact exec_frame_next b f s
  · cases i with
    | lhdr present padp tlen => exact execLhdr_next present padp tlen s
    | padhdr padLen rowLen => exact execPadhdr_next padLen rowLen s
    | raw fld =>
      have hputs := putLiterals_staysReady (ready rfl) (rawCount fld)
      exact (hputs.bind_neverStops fun _ _ => addProduced_neverStops _ _).next
    | tbl fld =>
      have hputs := putLookups_staysReady (ready rfl) (tblCount s.cfg fld)
      exact (hputs.bind_neverStops fun _ _ => addProduced_neverStops _ _).next
    | rep fld => exact (repeatByte_neverStops (ready rfl) _).next
    | lrep fld => exact (repeatByte_neverStops (ready rfl) _).next
    | _ => exact absurd rfl hframe

theorem decodeOne_next (h : s.ctx = .op → s.PutReady) : ∃ t, decodeOne s = .next t := by
  unfold decodeOne
  split
  · next i rest he => exact exec_next fun hi => h ((decode_context he).symm.trans hi)
  · exact ⟨_, rfl⟩
  · exact ⟨_, rfl⟩
  · exact (acceptUnknown_neverStops _ _ _).next

/-- In the opcode context a legal state with a filled buffer is ready for a put. -/
theorem State.Legal.putReady (h : s.Legal) (hfill : s.accFilled) (hc : s.ctx = .op) : s.PutReady := by
  obtain ⟨hw, -⟩ := h.inBlock (by simp [hc])
  have hpos := h.accPos
  exact ⟨hw, by omega, hfill⟩

end

/-- Settles O44: the byte put is the only pseudocode that can stop the model, and it runs in the opcode context only;
the PADHDR of an LHDR's step puts nothing. -/
theorem decodeAlwaysHasANextStep : Obligations.DecodeAlwaysHasANextStep := by
  intro s hl hfill hr hd
  rw [step_of_decode hr hd]
  rcases decodeStep_cases s with e | ⟨u, -, -, hu, e⟩ <;> rw [e]
  · exact decodeOne_next (hl.putReady hfill)
  · exact decodeOne_next (by simp [hu])

end Sys2Proof.Machine

namespace Sys2Proof.Machine

/-! PROOFS. Every decode run ends (R332): between frames `ip` moves on in IN, which is never written, and inside a Data
block `cur` moves on in D. -/

/-! ### Runs that end -/

theorem State.stopped_of_ne_run {s : State} (h : s.runState ≠ .run) : s.Stopped := fun _ ht => h (runState_of_step ht)

theorem Terminates.of_stopped {s : State} (h : s.Stopped) : Terminates s := by
  refine ⟨1, fun t ht => ?_⟩
  cases hs : Sys2Proof.core.step s with
  | next u => exact h u hs
  | fault f => simp only [Host.Core.run, hs] at ht; cases ht
  | refused r => simp only [Host.Core.run, hs] at ht; cases ht

theorem Terminates.of_step {s t : State} (h : step s = .next t) (ht : Terminates t) : Terminates s := by
  obtain ⟨k, hk⟩ := ht
  have hs : Sys2Proof.core.step s = .next t := h
  exact ⟨k + 1, fun u hu => hk u (by simpa only [Host.Core.run, hs] using hu)⟩

/-- A session whose steps keep `P` ends if each of them stops it or makes a well-founded rank smaller. -/
theorem terminates_of_rank {α : Type} [LT α] [WellFoundedLT α] (rank : State → α) {P : State → Prop}
    (h : ∀ s t, P s → step s = .next t → P t ∧ (t.Stopped ∨ rank t < rank s)) {s : State} (hs : P s) :
    Terminates s := by
  induction hr : rank s using WellFoundedLT.induction generalizing s with
  | ind r ih =>
    by_cases hstop : s.Stopped
    · exact .of_stopped hstop
    · obtain ⟨t, ht⟩ : ∃ t, step s = .next t := by simpa [State.Stopped] using hstop
      obtain ⟨hp, hstopped | hlt⟩ := h s t hs ht
      · exact .of_step ht (.of_stopped hstopped)
      · exact .of_step ht (ih _ (hr ▸ hlt) hp rfl)

/-! ### The pseudocode inside a line moves `cur` on in D (R29, R191) -/

/-- `t` has the same D as `s`, with `cur` not further back. -/
def State.ReadsOn (s t : State) : Prop := t.d = s.d ∧ s.cur ≤ t.cur

theorem State.ReadsOn.refl (s : State) : s.ReadsOn s := ⟨rfl, Nat.le_refl _⟩

theorem State.ReadsOn.trans {s t u : State} (h : s.ReadsOn t) (h' : t.ReadsOn u) : s.ReadsOn u := by
  obtain ⟨hd, hcur⟩ := h
  obtain ⟨hd', hcur'⟩ := h'
  exact ⟨hd'.trans hd, hcur.trans hcur'⟩

theorem State.ReadsOn.raise (s : State) (f : Trap) : s.ReadsOn (s.raise f) := ⟨by simp, by simp⟩

theorem State.ReadsOn.warnIf (s : State) (b : Bool) (k : Warning) : s.ReadsOn (s.warnIf b k) := ⟨by simp, by simp⟩

/-- A piece of pseudocode run from `s` ends, in a fault that is taken or not, with `cur` not further back in the same
D. -/
def Flow.ReadsOn {α : Type} (x : Flow α) (s : State) : Prop := x.Post (fun _ t => s.ReadsOn t) s.ReadsOn

theorem Flow.ReadsOn.after {α : Type} {x : Flow α} {s t : State} (hx : x.ReadsOn t) (h : s.ReadsOn t) : x.ReadsOn s :=
  Flow.post_mono hx (fun _ _ => h.trans) fun _ => h.trans

theorem Flow.ReadsOn.bind {α β : Type} {x : Flow α} {k : α → State → Flow β} {s : State} (hx : x.ReadsOn s)
    (hk : ∀ a t, (k a t).ReadsOn t) : (x.bind k).ReadsOn s :=
  Flow.post_bind hx fun a t h => (hk a t).after h

theorem nextByte_readsOn (s : State) : (nextByte s).ReadsOn s := by
  rcases nextByte_cases s with ⟨b, -, e⟩ | ⟨-, e⟩ <;> rw [e]
  · exact ⟨rfl, Nat.le_succ _⟩
  · exact State.ReadsOn.raise s _

theorem tRead_readsOn (i : Nat) (s : State) : (tRead i s).ReadsOn s := by
  rcases tRead_cases i s with ⟨b, -, -, e⟩ | ⟨-, e⟩ <;> rw [e]
  · exact State.ReadsOn.refl s
  · exact State.ReadsOn.raise s _

theorem putByte_readsOn (v : Byte) (s : State) : (putByte v s).ReadsOn s := by
  rcases h : putByte v s with ⟨_, t⟩ | t | f | r
  · obtain ⟨m, p, u, rfl⟩ := putByte_ok h
    exact State.ReadsOn.refl s
  · exact absurd h (putByte_not_raised v s t)
  · trivial
  · trivial

theorem putCopies_readsOn (n : Nat) (v : Byte) (s : State) : (putCopies n v s).ReadsOn s := by
  induction n generalizing s with
  | zero => exact State.ReadsOn.refl s
  | succ n ih => exact (putByte_readsOn v s).bind fun _ s1 => ih s1

theorem putLiterals_readsOn (n : Nat) (s : State) : (putLiterals n s).ReadsOn s := by
  induction n generalizing s with
  | zero => exact State.ReadsOn.refl s
  | succ n ih => exact (nextByte_readsOn s).bind fun b s1 => (putByte_readsOn b s1).bind fun _ s2 => ih s2

theorem putLookups_readsOn (n : Nat) (s : State) : (putLookups n s).ReadsOn s := by
  induction n generalizing s with
  | zero => exact State.ReadsOn.refl s
  | succ n ih =>
    exact (nextByte_readsOn s).bind fun x s1 =>
      (tRead_readsOn (firstIndex s1.cfg x) s1).bind fun b s2 =>
      (putByte_readsOn b s2).bind fun _ s3 =>
      (tRead_readsOn (secondIndex s3.cfg x) s3).bind fun b' s4 =>
      (putByte_readsOn b' s4).bind fun _ s5 => ih s5

theorem readFiller_readsOn (n : Nat) (s : State) : (readFiller n s).ReadsOn s := by
  induction n generalizing s with
  | zero => exact State.ReadsOn.refl s
  | succ n ih => exact (nextByte_readsOn s).bind fun _ s1 => (ih _).after (State.ReadsOn.warnIf s1 _ _)

theorem loadTable_readsOn (i n : Nat) (s : State) : (loadTable i n s).ReadsOn s := by
  induction n generalizing i s with
  | zero => exact State.ReadsOn.refl s
  | succ n ih => exact (nextByte_readsOn s).bind fun _ s1 => (ih _ _).after ⟨rfl, Nat.le_refl _⟩

/-- The end of the lines keeps D and `cur` too: only the context says that the block is over. -/
theorem linesLoop_readsOn (s : State) : s.ReadsOn (linesLoop s) := by
  rcases linesLoop_cases s with ⟨-, e⟩ | ⟨-, e⟩ <;> rw [e]
  · exact State.ReadsOn.warnIf s (decide (s.cur < s.d.length)) .trailing
  · exact State.ReadsOn.refl s

theorem endLine_readsOn (s : State) : (endLine s).ReadsOn s := by
  unfold endLine
  split
  · exact State.ReadsOn.raise s _
  · exact State.ReadsOn.trans (State.ReadsOn.warnIf s (rowMismatch s) .pad) (linesLoop_readsOn _)

theorem opLoop_readsOn (s : State) : (opLoop s).ReadsOn s := by
  rcases opLoop_cases s with ⟨-, e⟩ | ⟨-, e⟩ <;> rw [e]
  · exact State.ReadsOn.refl s
  · exact endLine_readsOn s

theorem addProduced_readsOn (n : Nat) (s : State) : (addProduced n s).ReadsOn s := opLoop_readsOn _

theorem startOps_readsOn (n : Nat) (s : State) : (startOps n s).ReadsOn s := by
  rcases startOps_cases n s with ⟨-, e⟩ | ⟨-, e⟩ <;> rw [e]
  · exact State.ReadsOn.raise s _
  · exact (loadTable_readsOn 0 n _).bind fun _ s1 => opLoop_readsOn _

theorem repeatByte_readsOn (n : Nat) (s : State) : (repeatByte n s).ReadsOn s :=
  (nextByte_readsOn s).bind fun v s1 => (putCopies_readsOn n v s1).bind fun _ s2 => addProduced_readsOn n s2

/-! ### The instructions -/

/-- `t` has the same D as `s`, with `cur` further on. -/
def State.ReadsPast (s t : State) : Prop := t.d = s.d ∧ s.cur < t.cur

theorem State.ReadsPast.readsOn {s t u : State} (h : s.ReadsPast t) (h' : t.ReadsOn u) : s.ReadsPast u := by
  obtain ⟨hd, hcur⟩ := h
  obtain ⟨hd', hcur'⟩ := h'
  exact ⟨hd'.trans hd, hcur.trans_le hcur'⟩

theorem Flow.ReadsOn.next {x : Flow Unit} {s t : State} (hx : x.ReadsOn s) (ht : x.outcome = .next t) : s.ReadsOn t :=
  Flow.post_next hx ht

theorem State.pastOpcode_readsPast (s : State) : s.ReadsPast s.pastOpcode := ⟨rfl, Nat.lt_succ_self _⟩

theorem execLhdr_readsPast {present padp : Bool} {tlen : BitVec 7} {s t : State}
    (ht : execLhdr present padp tlen s = .next t) : s.ReadsPast t := by
  have hread : s.ReadsPast (s.lhdrRead present) := ⟨rfl, Nat.lt_succ_self _⟩
  cases padp with
  | false =>
    rw [execLhdr_plain] at ht
    exact hread.readsOn ((startOps_readsOn tlen.toNat _).next ht)
  | true =>
    rw [execLhdr_padded, State.awaitPadhdr_eq] at ht
    cases ht
    exact hread

theorem execPadhdr_readsPast {padLen : BitVec 2} {rowLen : BitVec 14} {s t : State}
    (ht : execPadhdr padLen rowLen s = .next t) : s.ReadsPast t := by
  have hread : s.ReadsPast { s with padRow := some rowLen.toNat, padLen := padLen.toNat, cur := s.cur + 2 } :=
    ⟨rfl, Nat.lt_add_of_pos_right Nat.two_pos⟩
  refine hread.readsOn (Flow.ReadsOn.next ?_ ht)
  exact (readFiller_readsOn padLen.toNat _).bind fun _ s2 => startOps_readsOn s2.hdrTlen s2

/-- An instruction of a line consumes at least its own first byte. -/
theorem exec_readsPast {i : Instr} {s t : State} (hi : i.context ≠ .frame) (ht : exec i s = .next t) :
    s.ReadsPast t := by
  have hop := s.pastOpcode_readsPast
  cases i with
  | lhdr present padp tlen => exact execLhdr_readsPast ht
  | padhdr padLen rowLen => exact execPadhdr_readsPast ht
  | raw fld => exact hop.readsOn (((putLiterals_readsOn _ _).bind fun _ s1 => addProduced_readsOn _ s1).next ht)
  | tbl fld => exact hop.readsOn (((putLookups_readsOn _ _).bind fun _ s1 => addProduced_readsOn _ s1).next ht)
  | rep fld => exact hop.readsOn ((repeatByte_readsOn _ _).next ht)
  | lrep fld => exact hop.readsOn ((repeatByte_readsOn _ _).next ht)
  | _ => exact absurd rfl hi

theorem size_instr (b : BlockType) (f : Frame) : Laws.EncodedLength.size (b.instr f) = 7 + f.payload.length := by
  cases b <;> rfl

theorem blockHandler_decodes (b : BlockType) (p : List Byte) (s : State) : (blockHandler b p s).Decodes s := by
  cases b with
  | begin => exact onBegin_decodes p s
  | end_ => exact onEnd_decodes p s
  | params => exact onParams_decodes p s
  | page => exact onPage_decodes p s
  | data => exact onData_decodes p s
  | endPart => exact onEndPart_decodes p s

/-- Whatever follows the reading of a frame, `ip` is past the frame (R134). -/
theorem acceptFrame_bind_ip {ty : Byte} {f : Frame} {s t : State} {k : Unit → State → Flow Unit}
    (hk : ∀ u, (k () u).Decodes u) (ht : ((acceptFrame ty f s).bind k).outcome = .next t) : s.ip < t.ip := by
  have hread : (acceptFrame ty f s).Decodes { s with ip := s.ip + (7 + f.payload.length), nblk := s.nblk + 1 } :=
    (frameCheck_decodes .magic _ _).bind fun _ s1 =>
      (frameCheck_decodes .typeInv _ s1).bind fun _ s2 => frameCheck_decodes .checksum _ s2
  have hpast := Flow.post_next (hread.bind fun _ u => hk u) ht
  have hip : s.ip + (7 + f.payload.length) ≤ t.ip := hpast.ip
  omega

/-! ### The rank of a decode session -/

/-- What is left to read of the Data block in progress; nothing between frames. -/
def State.dataLeft (s : State) : Nat := if s.ctx = .frame then 0 else s.d.length - s.cur + 1

/-- What is left to read of IN, and then of D. -/
def State.decodeRank (s : State) : ℕ ×ₗ ℕ := toLex (s.inp.length - s.ip, s.dataLeft)

theorem State.decodeRank_lt_of_ip {s t : State} (hinp : t.inp = s.inp) (hip : s.ip < t.ip)
    (hlt : s.ip < s.inp.length) : t.decodeRank < s.decodeRank := by
  refine Prod.Lex.toLex_lt_toLex.2 (.inl ?_)
  simp only [hinp]
  omega

theorem State.decodeRank_lt_of_data {s t : State} (h : s.Grows t) (hlt : t.dataLeft < s.dataLeft) :
    t.decodeRank < s.decodeRank := by
  have hip := h.ip
  refine Prod.Lex.toLex_lt_toLex'.2 ⟨?_, fun _ => hlt⟩
  simp only [h.inp]
  omega

theorem State.ReadsPast.dataLeft_lt {s t : State} (h : s.ReadsPast t) (hc : s.ctx ≠ .frame)
    (hcur : s.cur < s.d.length) : t.dataLeft < s.dataLeft := by
  obtain ⟨hd, hlt⟩ := h
  unfold State.dataLeft
  rw [if_neg hc, hd]
  split <;> omega

/-- An instruction is fetched where a byte is left. -/
theorem cur_lt_of_fetch_ok {s : State} {i : Instr} {rest : List Byte} (hc : s.ctx ≠ .frame)
    (h : fetch s = .ok i rest) : s.cur < s.d.length := by
  by_contra hge
  rw [fetch_of_drop hc (List.drop_of_length_le (Nat.le_of_not_lt hge))] at h
  cases hctx : s.ctx with
  | frame => exact hc hctx
  | _ => rw [hctx] at h; cases h

theorem truncatedLine_dataLeft {s : State} (hc : s.ctx ≠ .frame) : (truncatedLine s).dataLeft < s.dataLeft := by
  rw [State.dataLeft, State.dataLeft, truncatedLine_ctx, if_pos rfl, if_neg hc]
  exact Nat.succ_pos _

/-- Inside a Data block one instruction leaves less of it, or ends it. -/
theorem decodeOne_dataLeft {s t : State} (hc : s.ctx ≠ .frame) (ht : decodeOne s = .next t) :
    t.dataLeft < s.dataLeft := by
  unfold decodeOne at ht
  split at ht
  · next i rest he =>
    have hi : i.context ≠ .frame := decode_context he ▸ hc
    exact (exec_readsPast hi ht).dataLeft_lt hc (cur_lt_of_fetch_ok hc he)
  · cases ht; rw [atEnd, if_neg hc]; exact truncatedLine_dataLeft hc
  · cases ht; rw [atTruncation, if_neg hc]; exact truncatedLine_dataLeft hc
  · next he => exact absurd (decode_unknownType_ctx he) hc

/-- Between frames a step ends the session or moves `ip` on, past a frame that IN holds. -/
theorem decodeOne_frame {s t : State} (hc : s.ctx = .frame) (ht : decodeOne s = .next t) :
    t.runState = .done ∨ s.ip < t.ip ∧ s.ip < s.inp.length := by
  unfold decodeOne at ht
  split at ht
  · next i rest he =>
    obtain ⟨b, f, rfl⟩ := Instr.eq_instr_of_context ((decode_context he).trans hc)
    have hip : s.ip < t.ip := acceptFrame_bind_ip (blockHandler_decodes b f.payload) (exec_instr b f s ▸ ht)
    have hfits := size_instr b f ▸ fetch_ok_fits he ((decode_context he).trans hc)
    exact .inr ⟨hip, by omega⟩
  · cases ht; rw [atEnd, if_pos hc]; exact .inl rfl
  · cases ht; rw [atTruncation, if_pos hc]; exact .inl rfl
  · next ty f rest he =>
    have hip : s.ip < t.ip := acceptFrame_bind_ip (fun u => (State.DecodesTo.refl u).trap _) ht
    have hfits := fetch_unknownType_fits he
    exact .inr ⟨hip, by omega⟩

theorem decodeOne_rank {s t : State} (ht : decodeOne s = .next t) :
    t.runState = .done ∨ t.decodeRank < s.decodeRank := by
  have h := (decodeOne_decodesTo ht).toGrows
  by_cases hc : s.ctx = .frame
  · exact (decodeOne_frame hc ht).imp_right fun ⟨hip, hlt⟩ => State.decodeRank_lt_of_ip h.inp hip hlt
  · exact .inr (State.decodeRank_lt_of_data h (decodeOne_dataLeft hc ht))

/-- A step of two instructions makes the rank smaller twice: its LHDR stands inside a Data block. -/
theorem decodeStep_rank {s t : State} (ht : decodeStep s = .next t) :
    t.runState = .done ∨ t.decodeRank < s.decodeRank := by
  rcases decodeStep_cases s with e | ⟨u, hc, hu, -, e⟩ <;> rw [e] at ht
  · exact decodeOne_rank ht
  · have hfirst : u.decodeRank < s.decodeRank :=
      State.decodeRank_lt_of_data (decodeOne_decodesTo hu).toGrows (decodeOne_dataLeft (by simp [hc]) hu)
    exact (decodeOne_rank ht).imp_right fun hsecond => hsecond.trans hfirst

/-- Settles O45, by the rank: what is left of IN, and then of D. -/
theorem everyDecodeRunEnds : Obligations.EveryDecodeRunEnds := fun _ hd =>
  terminates_of_rank State.decodeRank (P := fun s => s.cfg.dir = .decode) (hs := hd) fun s t hd ht => by
    refine ⟨(step_grows ht).cfg ▸ hd, (decodeStep_rank ?_).imp_left State.stopped_of_done⟩
    exact step_of_decode (runState_of_step ht) hd ▸ ht

end Sys2Proof.Machine

namespace Sys2Proof.Machine

/-! PROOFS. Every encode run ends (R332): a step that does not stop the session encodes one of the finitely many lines
of a group, or goes on to the next group, plane or page, none of which comes again (R260, R238, R233). -/

/-! ### The rank of an encode session -/

/-- How many planes of a page come after one of a channel, in the order Y, M, C, K (R238). -/
def Channel.planesAfter : Channel → Nat
  | .y => 3
  | .m => 2
  | .c => 1
  | .k => 0

theorem Channel.planesAfter_lt_four (ch : Channel) : Channel.planesAfter ch < 4 := by cases ch <;> decide

/-- How far the session is from its End block: Begin and Params, the pages from the current one on, EndPart (R260). -/
def State.stagesLeft (s : State) : Nat :=
  match s.phase with
  | .begin => s.job.pages.length + 4
  | .params => s.job.pages.length + 3
  | .page => s.job.pages.length - s.encPage + 2
  | .line => s.job.pages.length - s.encPage + 2
  | .data => s.job.pages.length - s.encPage + 2
  | .endPart => 1
  | .end_ => 0

/-- The planes of the current page still to begin, its Page block before them (R238). -/
def State.planesLeft (s : State) : Nat := if s.phase = .page then 4 else Channel.planesAfter s.encChan

/-- The groups of the current plane after the current one (R232). -/
def State.groupsLeft (s : State) : Nat := groupCount s.totalLines - s.blkNum

/-- The lines of the current group still to encode, and its Data block (R233). -/
def State.groupStepsLeft (s : State) : Nat :=
  if s.phase = .line then groupEnd s.totalLines s.blkNum - s.encLine + 1 else 0

/-- What is left of the document, of the page, of the plane and of the group. -/
def State.encodeRank (s : State) : ℕ ×ₗ ℕ ×ₗ ℕ ×ₗ ℕ :=
  toLex (s.stagesLeft, toLex (s.planesLeft, toLex (s.groupsLeft, s.groupStepsLeft)))

section
variable {s t : State}

theorem State.encodeRank_lt_of_plane
    (h : t.stagesLeft < s.stagesLeft ∨ t.stagesLeft = s.stagesLeft ∧ t.planesLeft < s.planesLeft) :
    t.encodeRank < s.encodeRank :=
  Prod.Lex.toLex_lt_toLex.2 (h.imp_right fun ⟨hstage, hplane⟩ => ⟨hstage, Prod.Lex.toLex_lt_toLex.2 (.inl hplane)⟩)

theorem State.encodeRank_lt_of_stage (h : t.stagesLeft < s.stagesLeft) : t.encodeRank < s.encodeRank :=
  State.encodeRank_lt_of_plane (.inl h)

theorem State.encodeRank_lt_in_plane (hstage : t.stagesLeft = s.stagesLeft) (hplane : t.planesLeft = s.planesLeft)
    (h : t.groupsLeft < s.groupsLeft ∨ t.groupsLeft = s.groupsLeft ∧ t.groupStepsLeft < s.groupStepsLeft) :
    t.encodeRank < s.encodeRank :=
  Prod.Lex.toLex_lt_toLex.2 (.inr ⟨hstage, Prod.Lex.toLex_lt_toLex.2 (.inr ⟨hplane, Prod.Lex.toLex_lt_toLex.2 h⟩)⟩)

end

/-! ### Where the encoder goes next (R233, R238, R260) -/

/-- The session is at a page of the job. -/
def State.AtPage (s : State) : Prop := s.stagesLeft = s.job.pages.length - s.encPage + 2

theorem State.atPage_of_phase {s : State} (h : s.phase ∈ [EncPhase.page, .line, .data]) : s.AtPage := by
  simp only [List.mem_cons, List.not_mem_nil, or_false] at h
  rcases h with h | h | h <;> rw [State.AtPage, State.stagesLeft, h]

theorem toPage_stagesLeft (n : Nat) (s : State) :
    (toPage n s).stagesLeft = if n < s.job.pages.length then s.job.pages.length - n + 2 else 1 := by
  by_cases h : n < s.job.pages.length <;> simp [State.stagesLeft, toPage, h]

theorem toPage_stagesLeft_lt (n : Nat) (s : State) : (toPage n s).stagesLeft < s.job.pages.length + 3 := by
  rw [toPage_stagesLeft]
  split <;> omega

/-- The next page, or EndPart, is nearer to the end. -/
theorem toPage_next_stagesLeft {s : State} (h : s.AtPage) : (toPage (s.encPage + 1) s).stagesLeft < s.stagesLeft := by
  rw [toPage_stagesLeft, h]
  split <;> omega

/-- The first group of a plane of the same page; without lines, the next page. -/
theorem toPlane_stagesLeft {s : State} (h : s.AtPage) (ch : Channel) :
    (toPlane ch s).stagesLeft < s.stagesLeft ∨
      (toPlane ch s).stagesLeft = s.stagesLeft ∧ (toPlane ch s).planesLeft = Channel.planesAfter ch := by
  by_cases hlines : s.totalLines = 0
  · rw [toPlane_of_no_line hlines]
    exact .inl (toPage_next_stagesLeft h)
  · rw [toPlane_of_lines hlines]
    exact .inr ⟨h.symm, rfl⟩

section
variable {s : State}

/-- From a Page block to a plane of its page, under the page's own geometry. -/
theorem toPlane_encodeRank {u : State} (hp : s.phase = .page) (hu : u.AtPage) (hstage : u.stagesLeft = s.stagesLeft)
    (ch : Channel) : (toPlane ch u).encodeRank < s.encodeRank := by
  have hplanes : s.planesLeft = 4 := if_pos hp
  refine State.encodeRank_lt_of_plane ?_
  rw [← hstage, hplanes]
  refine (toPlane_stagesLeft hu ch).imp_right fun ⟨hsame, hplane⟩ => ⟨hsame, ?_⟩
  rw [hplane]
  exact Channel.planesAfter_lt_four ch

theorem afterPlane_encodeRank (hp : s.phase = .data) : (afterPlane s).encodeRank < s.encodeRank := by
  have hat : s.AtPage := State.atPage_of_phase (by simp [hp])
  have hplanes : s.planesLeft = Channel.planesAfter s.encChan := if_neg (by simp [hp])
  have next {ch : Channel} (h : Channel.planesAfter ch < s.planesLeft) : (toPlane ch s).encodeRank < s.encodeRank :=
    State.encodeRank_lt_of_plane ((toPlane_stagesLeft hat ch).imp_right fun ⟨he, hch⟩ => ⟨he, hch ▸ h⟩)
  cases hc : s.encChan with
  | k => rw [afterPlane_of_k hc]; exact State.encodeRank_lt_of_stage (toPage_next_stagesLeft hat)
  | c => rw [afterPlane_of_color (next := .k) (by simp) hc]; exact next (by rw [hplanes, hc]; decide)
  | m => rw [afterPlane_of_color (next := .c) (by simp) hc]; exact next (by rw [hplanes, hc]; decide)
  | y => rw [afterPlane_of_color (next := .m) (by simp) hc]; exact next (by rw [hplanes, hc]; decide)

/-- After a group the next one of the plane, or on from the plane. -/
theorem afterGroup_encodeRank (hp : s.phase = .data) : (afterGroup s).encodeRank < s.encodeRank := by
  by_cases h : s.blkNum < groupCount s.totalLines
  · rw [afterGroup_of_lt h]
    refine State.encodeRank_lt_in_plane ?_ ?_ (.inl ?_)
    · simp [State.stagesLeft, toGroup, hp]
    · simp [State.planesLeft, toGroup, hp]
    · have hnext : (toGroup (s.blkNum + 1) s).groupsLeft = groupCount s.totalLines - (s.blkNum + 1) := rfl
      rw [hnext, State.groupsLeft]
      omega
  · rw [afterGroup_of_le (Nat.le_of_not_lt h)]
    exact afterPlane_encodeRank hp

/-- After a line the next one of the group, or the group's Data block. -/
theorem afterLine_encodeRank (hp : s.phase = .line) : (afterLine s).encodeRank < s.encodeRank := by
  have hsteps : s.groupStepsLeft = groupEnd s.totalLines s.blkNum - s.encLine + 1 := if_pos hp
  rw [afterLine_of_line hp]
  by_cases hlast : groupEnd s.totalLines s.blkNum ≤ s.encLine + 1
  · rw [if_pos hlast]
    refine State.encodeRank_lt_in_plane ?_ ?_ (.inr ⟨rfl, ?_⟩)
    · simp only [State.stagesLeft, hp]
    · simp [State.planesLeft, hp]
    · rw [hsteps]
      exact Nat.succ_pos _
  · rw [if_neg hlast]
    refine State.encodeRank_lt_in_plane ?_ ?_ (.inr ⟨rfl, ?_⟩)
    · simp only [State.stagesLeft, hp]
    · simp [State.planesLeft, hp]
    · rw [hsteps]
      exact Nat.succ_lt_succ (Nat.sub_succ_lt_self _ _ (Nat.lt_of_succ_lt (Nat.lt_of_not_le hlast)))

/-! ### The steps -/

/-- A piece of pseudocode that is a whole step from `s` ends the session, or comes nearer to its end. -/
def Flow.Descends (x : Flow Unit) (s : State) : Prop :=
  x.Post (fun _ t => t.Stopped ∨ t.encodeRank < s.encodeRank) State.Stopped

theorem State.raise_stopped {f : Trap} (hf : f.runFatal = true) (s : State) : (s.raise f).Stopped :=
  State.stopped_of_ne_run (by simp [hf])

/-- A frame is emitted, or its payload is too long and ends the session (R133). -/
theorem writeBlock_descends {u : State} {ty : Byte} {payload : List Byte} {k : Unit → State → Flow Unit}
    (hk : (k () (u.wrote ty payload)).Descends s) : ((writeBlock ty payload u).bind k).Descends s := by
  rcases writeBlock_cases ty payload u with ⟨-, e⟩ | ⟨-, e⟩ <;> rw [e]
  · exact hk
  · exact State.raise_stopped rfl u

theorem encodeBegin_descends (hp : s.phase = .begin) : (encodeBegin s).Descends s := by
  unfold encodeBegin
  split
  · trivial
  · refine writeBlock_descends (.inr (State.encodeRank_lt_of_stage ?_))
    simp [State.stagesLeft, hp, State.wrote]

theorem encodeParams_descends (hp : s.phase = .params) : (encodeParams s).Descends s := by
  refine writeBlock_descends (.inr (State.encodeRank_lt_of_stage ?_))
  have hs : s.stagesLeft = s.job.pages.length + 3 := by rw [State.stagesLeft, hp]
  exact hs ▸ toPage_stagesLeft_lt _ _

theorem encodePageBlock_descends (hp : s.phase = .page) (pg : Page) : (encodePageBlock pg s).Descends s := by
  have hat : s.AtPage := State.atPage_of_phase (by simp [hp])
  unfold encodePageBlock
  refine writeBlock_descends (.inr ?_)
  refine toPlane_encodeRank hp ?_ ?_ _
  · exact hat
  · rfl

theorem encodePage_descends (hp : s.phase = .page) : (encodePage s).Descends s := by
  unfold encodePage
  split
  · refine .inr (State.encodeRank_lt_of_stage ?_)
    simp [State.stagesLeft, hp]
  · split
    · exact encodePageBlock_descends hp _
    · trivial

theorem encodeLogical_descends (hp : s.phase = .line) (line : List Byte) : (encodeLogical line s).Descends s := by
  cases hcode : encodeLine s.cfg s.model line with
  | fail f i =>
    rw [encodeLogical_of_fail hcode]
    exact State.raise_stopped (encodeLine_fail_runFatal hcode) _
  | stream bs =>
    cases hcap : pastCap s.cfg.encBufCap (s.encBuf.length + bs.length) with
    | false =>
      rw [encodeLogical_of_fits hcode hcap]
      exact .inr (afterLine_encodeRank (s := s.lineAppended line bs) hp)
    | true =>
      rw [encodeLogical_of_overflow hcode hcap]
      exact State.raise_stopped rfl _

theorem encodeLineStep_descends (hp : s.phase = .line) : (encodeLineStep s).Descends s := by
  unfold encodeLineStep
  split
  · trivial
  · split
    · trivial
    · exact encodeLogical_descends hp _

/-- What `EmitData` can do (R235). -/
theorem emitData_cases (desc data : List Byte) (s : State) :
    (∃ out, emitData desc data s = .ok () { s with out := out, seq := s.seq + 1 }) ∨
    ∃ n, emitData desc data s = .raised (s.raise (.encPayload n)) := by
  unfold emitData
  split
  · rcases writeBlock_cases BlockType.data.code (desc ++ data) s with ⟨-, e⟩ | ⟨-, e⟩ <;> rw [e]
    · exact .inl ⟨_, rfl⟩
    · exact .inr ⟨_, rfl⟩
  · rcases writeBlock_cases BlockType.data.code desc s with ⟨-, e⟩ | ⟨-, e⟩ <;> rw [e]
    · exact .inl ⟨_, rfl⟩
    · exact .inr ⟨_, rfl⟩

theorem encodeData_descends (hp : s.phase = .data) : (encodeData s).Descends s := by
  unfold encodeData
  rcases emitData_cases s.groupDesc s.encBuf s with ⟨out, e⟩ | ⟨n, e⟩ <;> rw [e]
  · exact .inr (afterGroup_encodeRank (s := { s with out := out, seq := s.seq + 1, encBuf := [] }) hp)
  · exact State.raise_stopped rfl s

theorem encodeEndPart_descends (hp : s.phase = .endPart) : (encodeEndPart s).Descends s := by
  refine writeBlock_descends (.inr (State.encodeRank_lt_of_stage ?_))
  simp [State.stagesLeft, hp]

theorem encodeEnd_descends (s : State) : (encodeEnd s).Descends s := by
  rw [encodeEnd_eq]
  exact .inl (State.stopped_of_done rfl)

theorem encodeStep_descends (s : State) : (encodeStep s).Descends s := by
  cases hp : s.phase with
  | begin => rw [encodeStep, hp]; exact encodeBegin_descends hp
  | params => rw [encodeStep, hp]; exact encodeParams_descends hp
  | page => rw [encodeStep, hp]; exact encodePage_descends hp
  | line => rw [encodeStep, hp]; exact encodeLineStep_descends hp
  | data => rw [encodeStep, hp]; exact encodeData_descends hp
  | endPart => rw [encodeStep, hp]; exact encodeEndPart_descends hp
  | end_ => rw [encodeStep, hp]; exact encodeEnd_descends s

end

/-- Settles O46, by the rank: what is left of the document, the page, the plane and the group. -/
theorem everyEncodeRunEnds : Obligations.EveryEncodeRunEnds := fun _ hd =>
  terminates_of_rank State.encodeRank (P := fun s => s.cfg.dir = .encode) (hs := hd) fun s t hd ht => by
    refine ⟨(step_grows ht).cfg ▸ hd, ?_⟩
    rw [step_of_encode (runState_of_step ht) hd] at ht
    exact Flow.post_next (Flow.post_mono (encodeStep_descends s) (fun _ _ => id) fun _ => .inl) ht

end Sys2Proof.Machine
